-- ==== Sys2Proof/Word.lean ====
section
/-! DEFINITION. The two word types of the engine: a ROM, output or dictionary byte, and the 32-bit
entry word (00_scope.md R7). Addresses and cursors are exact integers and naturals (R7, R105), not words. -/

namespace Sys2Proof

/-- A byte: the unit of the ROM, of `OUT` and of `DICT` (20_memory.md R50). -/
abbrev Byte := BitVec 8

/-- A 32-bit word: the `ENTRY` register and the `STATUS` view (10_state.md R23, R39). -/
abbrev Word := BitVec 32

end Sys2Proof
end

