-- ==== Sys2Proof/Config.lean ====
section
/-! DEFINITION. The fixed parameters of 00_scope.md R5 to R7. `ROM_LEN` and the number of engines are OPEN
there: the first is part of the state's ROM, the second the length of a `Cluster`. The spec leaves no
result undefined, so no free value stands here. -/

namespace Sys2Proof.Config

/-- `BLOCK`: every completed decode produces exactly 512 output bytes (00_scope.md R5). -/
abbrev block : Nat := 512

/-- `DICT_N`: the mode-2 dictionary holds exactly 16 bytes (00_scope.md R6). -/
abbrev dictN : Nat := 16

end Sys2Proof.Config
end

