-- ==== Sys2Proof/Syntax.lean ====
section
/-! DEFINITION. The decodable units of the engine, one constructor per row of spec/opcode_table.json
(30_encoding.md R92), and the formats they are read in (R70). -/

namespace Sys2Proof

/-- The encoding formats of 30_encoding.md R70. `code` stands for CODE5 and CODE9 together: the first bit
read alone decides which of the two it is (R86). -/
inductive Format where
  /-- ENTRY32: the 32-bit entry word. -/
  | entry32
  /-- RAW8: one stored byte of a mode-0 block. -/
  | raw8
  /-- CMD8: the command byte of a mode-1 stream; its operand bytes are read when it is performed. -/
  | cmd8
  /-- DICT16: the 16 dictionary bytes of a mode-2 block. -/
  | dict16
  /-- CODE5 or CODE9: one code of a mode-2 bit stream. -/
  | code
deriving DecidableEq, Repr

/-- One decodable unit (opcode table). The `ent…` units are entry words, performed by START; the others are
performed by the engine's steps (40_entry_resolve.md R108). -/
inductive Instr where
  /-- ENT_ZERO: the entry word 0x00000000 (R75, R120). -/
  | entZero
  /-- ENT_NEG: mode 0 with a nonzero `rawOffset` (R121). -/
  | entNeg (rawOffset : BitVec 24)
  /-- ENT_RLE: mode 1 (R140). -/
  | entRle (rawOffset : BitVec 24)
  /-- ENT_BITPACK: mode 2 (R170). -/
  | entBitpack (rawOffset : BitVec 24)
  /-- ENT_BADMODE: a mode of 3 to 255 (R211). -/
  | entBadMode (mode : Byte) (rawOffset : BitVec 24)
  /-- NEG_BYTE: one stored byte of a mode-0 block (R121). -/
  | negByte (b : Byte)
  /-- RLE_LIT: the command byte `c`, 0x00 to 0x7F (R142). -/
  | rleLit (c : Byte)
  /-- RLE_NOP: the command byte 0x80 (R141). -/
  | rleNop
  /-- RLE_REP: the command byte `c`, 0x81 to 0xFF (R143). -/
  | rleRep (c : Byte)
  /-- DICT_LOAD: the 16 dictionary bytes, `d[k]` the byte at `SRC + k` (R82, R170). -/
  | dictLoad (d : Vector Byte 16)
  /-- M2_HIT: the 4-bit dictionary index (R172). -/
  | m2Hit (i : BitVec 4)
  /-- M2_LIT: the 8-bit literal byte (R173). -/
  | m2Lit (b : Byte)
deriving DecidableEq, Repr

/-- The format a unit is encoded in (30_encoding.md R92, column "format"). -/
def Instr.format : Instr → Format
  | .entZero => .entry32
  | .entNeg _ => .entry32
  | .entRle _ => .entry32
  | .entBitpack _ => .entry32
  | .entBadMode _ _ => .entry32
  | .negByte _ => .raw8
  | .rleLit _ => .cmd8
  | .rleNop => .cmd8
  | .rleRep _ => .cmd8
  | .dictLoad _ => .dict16
  | .m2Hit _ => .code
  | .m2Lit _ => .code

/-- The number of bits the unit's own encoding has (30_encoding.md R70; for CMD8 the command byte). -/
def Instr.bitLength : Instr → Nat
  | .entZero => 32
  | .entNeg _ => 32
  | .entRle _ => 32
  | .entBitpack _ => 32
  | .entBadMode _ _ => 32
  | .negByte _ => 8
  | .rleLit _ => 8
  | .rleNop => 8
  | .rleRep _ => 8
  | .dictLoad _ => 128
  | .m2Hit _ => 5
  | .m2Lit _ => 9

end Sys2Proof
end

