-- ==== Sys2Proof/WellFormed.lean ====
section
/-! DEFINITION. Which units the opcode table has: the exclusions and value ranges of 30_encoding.md R92. -/

namespace Sys2Proof

/-- A unit is one of the opcode table's: ENT_NEG excludes ENT_ZERO, ENT_BADMODE has a mode of 3 or more,
RLE_LIT a command byte up to 0x7F, RLE_REP one from 0x81 (30_encoding.md R75, R78, R80, R92). -/
def Instr.wf : Instr → Bool
  | .entZero => true
  | .entNeg raw => raw != 0
  | .entRle _ => true
  | .entBitpack _ => true
  | .entBadMode m _ => decide (3 ≤ m.toNat)
  | .negByte _ => true
  | .rleLit c => decide (c.toNat ≤ 0x7F)
  | .rleNop => true
  | .rleRep c => decide (0x81 ≤ c.toNat)
  | .dictLoad _ => true
  | .m2Hit _ => true
  | .m2Lit _ => true

/-- `Instr.wf` as a proposition. -/
abbrev Instr.WellFormed (i : Instr) : Prop := i.wf = true

end Sys2Proof
end

