-- ==== Sys2Proof/Decode.lean ====
section
/-! DEFINITION. Decoding and encoding of the units of 30_encoding.md. Every encoding is written as the
list of its bits in stream order, the most significant bit of each field first (R8, R55, R83 to R85); an entry
word is big-endian (20_memory.md R54), so its bit 31 comes first. -/

namespace Sys2Proof

/-! ### Bit-field helpers -/

/-- The unsigned number whose bits are `l`, the first bit highest: `acc := 2 * acc + bit` over the bits in the
order read (44_bitstream_reader.md R192). -/
def natOfBits (l : List Bool) : Nat :=
  l.foldl (fun acc b => 2 * acc + b.toNat) 0

/-- The low `n` bits of `v`, highest first. -/
def bitsOf : Nat → Nat → List Bool
  | 0, _ => []
  | n + 1, v => v.testBit n :: bitsOf n v

/-- The bits of a byte in stream order: bit 7 first, bit 0 last (44_bitstream_reader.md R191). -/
def bitsOfByte (b : Byte) : List Bool :=
  bitsOf 8 b.toNat

/-- The bits of a byte sequence in stream order (20_memory.md R55). -/
def bitsOfBytes (bs : List Byte) : List Bool :=
  bs.flatMap bitsOfByte

/-- The byte whose bits are `l`, bit 7 first. -/
def byteOfBits (l : List Bool) : Byte :=
  BitVec.ofNat 8 (natOfBits l)

/-- The first `n` bytes of a list of bits. -/
def bytesOfBits : Nat → List Bool → List Byte
  | 0, _ => []
  | n + 1, l => byteOfBits (l.take 8) :: bytesOfBits n (l.drop 8)

theorem bytesOfBits_length (n : Nat) (l : List Bool) : (bytesOfBits n l).length = n := by
  induction n generalizing l with
  | zero => rfl
  | succ n ih => simp [bytesOfBits, ih]

/-- The 0 bits behind `n` bits that fill their last byte (30_encoding.md R90, `ENDBITS`). -/
def padBits (n : Nat) : List Bool :=
  List.replicate (8 * ((n + 7) / 8) - n) false

/-- Bits packed into bytes, most significant bit first, the last byte padded with 0 bits behind them
(30_encoding.md R90, `ENDBITS`; 43_mode2_bitpacked.md R176). -/
def packBits (l : List Bool) : List Byte :=
  bytesOfBits ((l.length + 7) / 8) (l ++ padBits l.length)

/-- `ENTRY[31:24]` (30_encoding.md R71). -/
def entryMode (w : Word) : Byte :=
  w.extractLsb' 24 8

/-- `ENTRY[23:0]` (30_encoding.md R71). -/
def entryRaw (w : Word) : BitVec 24 :=
  w.extractLsb' 0 24

/-- `mode << 24 | rawOffset` (30_encoding.md R71). -/
def entryWord (mode : Byte) (raw : BitVec 24) : Word :=
  mode ++ raw

/-! ### Decoding -/

/-- Why a list of bits is no unit. Every complete unit decodes (R81, R86, R88), so there is one reason. -/
inductive DecodeError where
  /-- The bits end before the unit does. -/
  | truncated
deriving DecidableEq, Repr

/-- The entry word's unit, by the match priority of 30_encoding.md R92. -/
def decodeEntry (w : Word) : Instr :=
  if 3 ≤ (entryMode w).toNat then .entBadMode (entryMode w) (entryRaw w)
  else if w = 0 then .entZero
  else if entryMode w = 0 then .entNeg (entryRaw w)
  else if entryMode w = 1 then .entRle (entryRaw w)
  else .entBitpack (entryRaw w)

/-- The command byte's unit: the no-op is tested before the repeat class (30_encoding.md R81, R92). -/
def decodeCmd (c : Byte) : Instr :=
  if c = 0x80 then .rleNop
  else if c.toNat ≤ 0x7F then .rleLit c
  else .rleRep c

/-- The dictionary unit of 16 bytes in ascending address order (30_encoding.md R82). -/
def decodeDict (bs : List Byte) : Except DecodeError Instr :=
  if h : bs.length = 16 then .ok (.dictLoad ⟨⟨bs⟩, h⟩) else .error .truncated

/-- The unit at the head of a list of bits and the bits after it. Which format to read is the caller's to say:
MODE and DICT_VALID decide it, never the bits (30_encoding.md R92). Total: bits that end inside a unit are
rejected as `truncated`. -/
def decode (f : Format) (bits : List Bool) : Except DecodeError (Instr × List Bool) :=
  match f with
  | .entry32 =>
    if 32 ≤ bits.length then
      .ok (decodeEntry (BitVec.ofNat 32 (natOfBits (bits.take 32))), bits.drop 32)
    else .error .truncated
  | .raw8 =>
    if 8 ≤ bits.length then .ok (.negByte (byteOfBits (bits.take 8)), bits.drop 8)
    else .error .truncated
  | .cmd8 =>
    if 8 ≤ bits.length then .ok (decodeCmd (byteOfBits (bits.take 8)), bits.drop 8)
    else .error .truncated
  | .dict16 =>
    if 128 ≤ bits.length then
      .ok (.dictLoad ⟨⟨bytesOfBits 16 bits⟩, bytesOfBits_length 16 bits⟩, bits.drop 128)
    else .error .truncated
  | .code =>
    match bits with
    | [] => .error .truncated
    | true :: r =>
      if 4 ≤ r.length then .ok (.m2Hit (BitVec.ofNat 4 (natOfBits (r.take 4))), r.drop 4)
      else .error .truncated
    | false :: r =>
      if 8 ≤ r.length then .ok (.m2Lit (byteOfBits (r.take 8)), r.drop 8)
      else .error .truncated

/-! ### Encoding -/

/-- The bits of a unit, from the encoding tables of 30_encoding.md R71, R76, R77, R82, R84, R85. -/
def encode : Instr → List Bool
  | .entZero => bitsOf 32 0x00000000
  | .entNeg raw => bitsOf 8 0 ++ bitsOf 24 raw.toNat
  | .entRle raw => bitsOf 8 1 ++ bitsOf 24 raw.toNat
  | .entBitpack raw => bitsOf 8 2 ++ bitsOf 24 raw.toNat
  | .entBadMode m raw => bitsOf 8 m.toNat ++ bitsOf 24 raw.toNat
  | .negByte b => bitsOfByte b
  | .rleLit c => bitsOfByte c
  | .rleNop => bitsOfByte 0x80
  | .rleRep c => bitsOfByte c
  | .dictLoad d => bitsOfBytes d.toList
  | .m2Hit i => true :: bitsOf 4 i.toNat
  | .m2Lit b => false :: bitsOfByte b

/-! ### The opcode table's numbering -/

/-- The format the table's rows of `nbits` bits are read in. 8 bits are read as CMD8 and 5, 9 and 16 bits as
a code of a bit stream; no other width is a row's (DESIGN CHOICE, log 11). -/
def tableFormat (nbits : Nat) : Option Format :=
  if nbits = 32 then some .entry32
  else if nbits = 8 then some .cmd8
  else if nbits = 128 then some .dict16
  else if nbits = 5 ∨ nbits = 9 ∨ nbits = 16 then some .code
  else none

/-- The `n` bytes of a number, the first byte its lowest 8 bits. -/
def bytesOfNat : Nat → Nat → List Byte
  | 0, _ => []
  | n + 1, w => BitVec.ofNat 8 w :: bytesOfNat n (w / 256)

/-- The bits, in stream order, of a table row whose number is `w`: an entry word and the patterns of CODE5 and
CODE9 are one number each; 8, 16 and 128 bits are bytes, the first the lowest (log 11). -/
def tableBits (nbits w : Nat) : List Bool :=
  if nbits = 8 ∨ nbits = 16 ∨ nbits = 128 then bitsOfBytes (bytesOfNat (nbits / 8) w)
  else bitsOf nbits w

/-- The unit this decoder reads from a table row of `nbits` bits whose number is `w` (log 11). -/
def decodeTableWord (nbits w : Nat) : Option Instr :=
  match tableFormat nbits with
  | none => none
  | some f =>
    match decode f (tableBits nbits w) with
    | .ok (i, _) => some i
    | .error _ => none

end Sys2Proof
end

