-- ==== Sys2Proof/Machine/State.lean ====
section
/-! DEFINITION. The machine's state: the engine's registers of 10_state.md R22, the ROM it reads (R21), and what
the host does next (R20). Plain data throughout. -/

namespace Sys2Proof.Machine

/-- `STATE` (10_state.md R25). -/
inductive Ctrl where
  /-- No decode has been started since reset. -/
  | idle
  /-- A decode is in progress, and the engine has an enabled step. -/
  | busy
  /-- A decode completed; `OUT` and `ENDOFF` hold its result. -/
  | done
  /-- A decode ended in a fault; `FKIND`, `FCAUSE` and `FADDR` hold it. -/
  | fault
deriving DecidableEq, Repr

/-- `FKIND` (10_state.md R35). -/
inductive FKind where
  | noFault
  | unsupportedBlockMode
  | outOfBounds
  | internal
deriving DecidableEq, Repr

/-- `FCAUSE` (10_state.md R36). -/
inductive FCause where
  | noCause
  | startOutside
  | bytePastEnd
  | bitPastEnd
  | runOverflow
deriving DecidableEq, Repr

/-- What `raise K(cause, addr)` records (00_scope.md R11; 60_exceptions.md R217). -/
structure FaultInfo where
  kind : FKind
  cause : FCause
  addr : Int
deriving DecidableEq, Repr

/-- The read-only ROM buffer (10_state.md R21; 20_memory.md R50): `ROM_LEN` bytes, held as the cells that are
not 0x00, addresses strictly rising. An address below `len` without a cell holds 0x00; an address from `len` on
names no byte (log 3). -/
structure Rom where
  len : Nat
  cells : List Host.Cell
deriving DecidableEq, Repr

/-- The registers of 10_state.md R22, by name: what a host read names, and what a refusal names. -/
inductive Reg where
  | entry
  | dataBase
  | state
  | mode
  | offset
  | src
  | iptr
  | bptr
  | ocnt
  | out (i : Fin 512)
  | dict (k : Fin 16)
  | dictValid
  | fkind
  | fcause
  | faddr
  | endoff
  | status
deriving DecidableEq, Repr

/-- A host access to the registers or the ROM (10_state.md R41; 70_reset_and_hazards.md R250 to R252). -/
inductive PortOp where
  /-- Write `ENTRY` (R23). -/
  | writeEntry (w : Word)
  /-- Write `DATA_BASE` (R24). -/
  | writeDataBase (n : Nat)
  /-- Write `STATUS`: no effect (R39). -/
  | writeStatus (w : Word)
  /-- Make a whole ROM image available as the buffer of `ROM_LEN` bytes (70_reset_and_hazards.md R251). -/
  | loadRom (image : List Byte)
  /-- Reset (70_reset_and_hazards.md R250). -/
  | reset
  /-- Read a register (10_state.md R41). -/
  | read (r : Reg)
deriving DecidableEq, Repr

/-- One thing the host does (10_state.md R20), or leaves to the engine (log 4). -/
inductive HostCmd where
  /-- The host does nothing while the engine takes its enabled step, if it has one. -/
  | idle
  /-- Issue START (40_entry_resolve.md R100). -/
  | start
  /-- Any other access. -/
  | port (op : PortOp)
deriving DecidableEq, Repr

/-- The machine. A register, or an `OUT` or `DICT` byte, that holds no value is `none`: "no value" is a state
the spec gives it, at reset and after START (00_scope.md R13; log 1). -/
structure State where
  /-- `ROM` and `ROM_LEN` (R21). -/
  rom : Rom
  /-- `ENTRY` (R23). -/
  entry : Option Word
  /-- `DATA_BASE` (R24). -/
  dataBase : Option Nat
  /-- `STATE` (R25). -/
  ctrl : Ctrl
  /-- `MODE` (R26). -/
  mode : Option Byte
  /-- `OFFSET` (R27). -/
  offset : Option Int
  /-- `SRC` (R28). -/
  src : Option Int
  /-- `IPTR` (R29). -/
  iptr : Option Nat
  /-- `BPTR` (R30). -/
  bptr : Option Nat
  /-- `OCNT` (R31). -/
  ocnt : Option Nat
  /-- `OUT[0..511]` (R32). -/
  out : Vector (Option Byte) 512
  /-- `DICT[0..15]` (R33). -/
  dict : Vector (Option Byte) 16
  /-- `DICT_VALID` (R34). -/
  dictValid : Bool
  /-- `FKIND` (R35). -/
  fkind : FKind
  /-- `FCAUSE` (R36). -/
  fcause : FCause
  /-- `FADDR` (R37). -/
  faddr : Int
  /-- `ENDOFF` (R38). -/
  endoff : Option Nat
  /-- The model's own: what the host does next, first command first (log 4). -/
  host : List HostCmd
  /-- The model's own: what the host's last register read returned (log 5). -/
  hostData : Option Int
deriving DecidableEq, Repr

/-- The machine right after reset (10_state.md R22; 70_reset_and_hazards.md R250). The spec gives the ROM no
contents before the host loads it (R251): it is empty here (log 2), and the host has done nothing yet (log 4). -/
def State.reset : State where
  rom := { len := 0, cells := [] }
  entry := none
  dataBase := none
  ctrl := .idle
  mode := none
  offset := none
  src := none
  iptr := none
  bptr := none
  ocnt := none
  out := Vector.replicate 512 none
  dict := Vector.replicate 16 none
  dictValid := false
  fkind := .noFault
  fcause := .noCause
  faddr := 0
  endoff := none
  host := []
  hostData := none

/-- No meaning of this model ends in a fault of the model. Every fault the spec describes is the ENGINE's fault
entry, which is a next state with STATE = FAULT (60_exceptions.md R217; log 27): nobody raises a `Fault`, and that
is safe, since it hides no behaviour. -/
inductive Fault where
deriving DecidableEq, Repr

/-- Why a step has no meaning. Each is a refusal the spec itself states, but for `notModelled` and for the model's own
`romLengthFixed` (log 8), `notEnabled` and `outputFull` (log 13); refusing is safe, since nothing can be proved of a run
that stops. -/
inductive Refusal where
  /-- Raised by an arm of `exec` for an instruction without a meaning yet; no arm is left so. Safe. -/
  | notModelled (mnemonic : String)
  /-- Raised by START (the five entry-word units) while STATE = BUSY (40_entry_resolve.md R100). Safe. -/
  | startWhileBusy
  /-- Raised by START when ENTRY or DATA_BASE holds no value (40_entry_resolve.md R100). Safe. -/
  | startWithoutInput (r : Reg)
  /-- Raised by a host write of ENTRY or DATA_BASE while STATE = BUSY (10_state.md R41(a)). Safe. -/
  | writeWhileBusy (r : Reg)
  /-- Raised by a host write of the ROM while STATE = BUSY (20_memory.md R51). Safe. -/
  | romWriteWhileBusy
  /-- Raised by a host load of a ROM image whose length is not ROM_LEN, once a ROM is there: ROM_LEN is a parameter of
  the machine (00_scope.md R7; log 8). Safe. -/
  | romLengthFixed
  /-- Raised by a host read of OUT or ENDOFF in a state other than DONE, or of ENTRY or DATA_BASE in BUSY
  (10_state.md R22, R41(d); log 9). Safe. -/
  | notReadableNow (r : Reg)
  /-- Raised by a host read of IPTR, BPTR, OCNT, DICT or DICT_VALID (10_state.md R41(e)). Safe. -/
  | noHostAccess (r : Reg)
  /-- Raised by a read of a register or byte that holds no value: "a read of it is refused" (00_scope.md R13; 10_state.md
  R41(c); 93_implementation_defined.md I10). No step of the engine itself reaches it (R40). Safe. -/
  | noValue (r : Reg)
  /-- Raised by the seven units of a decode step where MODE and DICT_VALID do not select that unit's step, or
  STATE is not BUSY: the engine has no such step (40_entry_resolve.md R108; log 13). Safe. -/
  | notEnabled
  /-- Raised by the units that output one byte where OCNT is not below 512: a step never starts so
  (40_entry_resolve.md R109; log 13). Safe. -/
  | outputFull
deriving DecidableEq, Repr

end Sys2Proof.Machine
end

