-- ==== Sys2Proof/Machine/Ops.lean ====
section
/-! DEFINITION. The named operations over the ROM and the registers, and taking and leaving a fault. -/

namespace Sys2Proof.Machine

/-- The outcome of one step of this machine. -/
abbrev StepOutcome := Host.Outcome State Fault Refusal

/-! ### The ROM -/

/-- The byte of the cell at `a`; 0x00 where no cell is listed (log 3). -/
def cellByte : List Host.Cell → Nat → Byte
  | [], _ => 0
  | (k, b) :: r, a => if k = a then b else cellByte r a

/-- The ROM byte at address `a`; no address outside `0 ..= ROM_LEN - 1` names a byte (20_memory.md R50). -/
def romByte (m : Rom) (a : Int) : Option Byte :=
  if 0 ≤ a ∧ a < m.len then some (cellByte m.cells a.toNat) else none

/-- Strictly rising addresses from `lo` up, below `len`, and no cell that holds what an unlisted address reads as. -/
def cellsWf (lo len : Nat) : List Host.Cell → Bool
  | [] => true
  | (k, b) :: r => decide (lo ≤ k) && decide (k < len) && (b != 0) && cellsWf (k + 1) len r

/-- The ROM is in its one canonical form (log 3). -/
def Rom.wf (m : Rom) : Bool :=
  cellsWf 0 m.len m.cells

/-- The cells with the byte at `a` set to `b`, in canonical form. -/
def cellWrite : List Host.Cell → Nat → Byte → List Host.Cell
  | [], a, b => if b = 0 then [] else [(a, b)]
  | (k, c) :: r, a, b =>
    if a < k then (if b = 0 then (k, c) :: r else (a, b) :: (k, c) :: r)
    else if a = k then (if b = 0 then r else (a, b) :: r)
    else (k, c) :: cellWrite r a b

/-- Consecutive bytes set from address `a` on. -/
def cellsWrite : List Host.Cell → Nat → List Byte → List Host.Cell
  | cs, _, [] => cs
  | cs, a, b :: bs => cellsWrite (cellWrite cs a b) (a + 1) bs

/-- A ROM with `bs` at the addresses from `a` on, long enough to hold them. -/
def Rom.place (m : Rom) (a : Nat) (bs : List Byte) : Rom :=
  { len := max m.len (a + bs.length), cells := cellsWrite m.cells a bs }

/-- The cells of a byte sequence that starts at address `a`. -/
def cellsOf : Nat → List Byte → List Host.Cell
  | _, [] => []
  | a, b :: bs => if b = 0 then cellsOf (a + 1) bs else (a, b) :: cellsOf (a + 1) bs

/-- The ROM whose whole content is `image`, address 0 its first byte (20_memory.md R50). -/
def Rom.ofBytes (image : List Byte) : Rom :=
  { len := image.length, cells := cellsOf 0 image }

/-- `MemRead(a, 1)` (00_scope.md R10; 20_memory.md R52, R53). -/
def memRead (m : Rom) (a : Int) : Except FaultInfo Byte :=
  match romByte m a with
  | some b => .ok b
  | none => .error ⟨.outOfBounds, .bytePastEnd, a⟩

/-- `n` bytes in ascending address order from `a`; the lowest offending address is the one reported
(20_memory.md R55; 60_exceptions.md R222). -/
def readBytes (m : Rom) : Int → Nat → Except FaultInfo (List Byte)
  | _, 0 => .ok []
  | a, n + 1 =>
    match memRead m a with
    | .error f => .error f
    | .ok b =>
      match readBytes m (a + 1) n with
      | .error f => .error f
      | .ok bs => .ok (b :: bs)

/-! ### Registers -/

/-- A read of register or byte `r`, which holds `v`: where it holds no value, "a read of it is refused" (00_scope.md R13;
10_state.md R41(c); 93_implementation_defined.md I10). Every read of a register that can be without a value goes through
here. -/
def held {α : Type} (r : Reg) (v : Option α) : Except Refusal α :=
  match v with
  | none => .error (.noValue r)
  | some a => .ok a

/-- A read of register `r`, which holds `v`, and then `k` (00_scope.md R13). -/
def need {α : Type} (r : Reg) (v : Option α) (k : α → StepOutcome) : StepOutcome :=
  match held r v with
  | .error e => .refused e
  | .ok a => k a

/-- `OUT[n] <- b0, OUT[n + 1] <- b1, …`: increasing index order, and no index at or above 512
(20_memory.md R59). -/
def writeOut : Vector (Option Byte) 512 → Nat → List Byte → Vector (Option Byte) 512
  | o, _, [] => o
  | o, n, b :: bs => writeOut (o.setIfInBounds n (some b)) (n + 1) bs

/-- What `OUT[j]` holds. -/
def State.outAt (s : State) (j : Nat) : Option Byte :=
  if h : j < 512 then s.out[j] else none

/-- What `DICT[k]` holds. -/
def State.dictAt (s : State) (k : Nat) : Option Byte :=
  if h : k < 16 then s.dict[k] else none

/-- The bytes `bs` output at `OUT[n]` and up, and `OCNT <- n + |bs|` (10_state.md R31, R32). -/
def emit (n : Nat) (bs : List Byte) (s : State) : State :=
  { s with out := writeOut s.out n bs, ocnt := some (n + bs.length) }

/-- `DICT[0..15] <- d; DICT_VALID <- 1` (43_mode2_bitpacked.md R170). -/
def loadDict (d : Vector Byte 16) (s : State) : State :=
  { s with dict := ⟨⟨d.toList.map some⟩, by simp⟩, dictValid := true }

/-! ### Taking a fault, and leaving it -/

/-- Fault entry, `raise K(cause, addr)` (00_scope.md R11; 60_exceptions.md R217): the fault registers and STATE,
in the state before the step, whose other effects are discarded. -/
def takeFault (f : FaultInfo) (s : State) : State :=
  { s with fkind := f.kind, fcause := f.cause, faddr := f.addr, ctrl := .fault }

/-- What START clears where it does not itself fault: the fault registers and every register a decode writes
(40_entry_resolve.md R100, R111). This is how the host leaves FAULT (60_exceptions.md R224). -/
def clearForStart (s : State) : State :=
  { s with
    fkind := .noFault, fcause := .noCause, faddr := 0
    out := Vector.replicate 512 none, dict := Vector.replicate 16 none, dictValid := false
    endoff := none, iptr := none, bptr := none, ocnt := none, src := none }

/-- Reset of the engine: every register at its reset value; the ROM is unaffected (70_reset_and_hazards.md R250),
and so is what the host goes on to do (log 19). -/
def resetEngine (s : State) : State :=
  { State.reset with rom := s.rom, host := s.host, hostData := s.hostData }

end Sys2Proof.Machine
end

