-- ==== Sys2Proof/Machine/Operands.lean ====
section
/-! DEFINITION. The operand forms: the sign-extended offset, mode-0 negation, run lengths, and the Bit Stream
Reader of 44_bitstream_reader.md. -/

namespace Sys2Proof.Machine

/-! ### Arithmetic on operands -/

/-- `sext_24` (30_encoding.md R74; 40_entry_resolve.md R102). -/
def sext24 (v : BitVec 24) : Int :=
  if v.toNat < 0x800000 then v.toNat else v.toNat - 0x1000000

/-- `(0 - b) mod 256` (41_mode0.md R121). -/
def negate (b : Byte) : Byte :=
  0 - b

/-- A literal command's run length, `c + 1` (42_mode1_rle.md R142). -/
def litLen (c : Byte) : Nat :=
  c.toNat + 1

/-- A repeat command's run length: `n = 256 - c`, and `n + 1` copies (42_mode1_rle.md R143). -/
def repLen (c : Byte) : Nat :=
  (256 - c.toNat) + 1

/-- A literal command's run: the `c + 1` payload bytes from `a` on, verbatim (42_mode1_rle.md R142). -/
def litRun (m : Rom) (a : Int) (c : Byte) : Except FaultInfo (List Byte) :=
  readBytes m a (litLen c)

/-- A repeat command's run: `257 - c` copies of the value byte at `a` (42_mode1_rle.md R143). -/
def repRun (m : Rom) (a : Int) (c : Byte) : Except FaultInfo (List Byte) :=
  match memRead m a with
  | .error f => .error f
  | .ok v => .ok (List.replicate (repLen c) v)

/-- `MemRead(a, 4)`, the big-endian word at `a`: how the host takes an entry word from the ROM (00_scope.md R10;
20_memory.md R54). The engine itself makes no such access (R52). -/
def memReadWord (m : Rom) (a : Int) : Except FaultInfo Word :=
  match readBytes m a 4 with
  | .error f => .error f
  | .ok bs => .ok (BitVec.ofNat 32 (natOfBits (bitsOfBytes bs)))

/-! ### The Bit Stream Reader -/

/-- `BB = SRC + 16`, the first byte of the bit stream (44_bitstream_reader.md R190). -/
def bitBase (src : Int) : Int :=
  src + 16

/-- `BLEN = 8 × (ROM_LEN - BB)` (44_bitstream_reader.md R190). -/
def bitLen (m : Rom) (bb : Int) : Int :=
  8 * (m.len - bb)

/-- `bit()` at cursor `p` of the stream from `bb`: the bit and the next cursor (44_bitstream_reader.md R191). The
byte itself is read through `memRead`, as every ROM read is (20_memory.md R53; log 21). -/
def readBit (m : Rom) (bb : Int) (p : Nat) : Except FaultInfo (Bool × Nat) :=
  if bitLen m bb ≤ p then .error ⟨.outOfBounds, .bitPastEnd, bb + (p / 8 : Nat)⟩
  else
    match memRead m (bb + (p / 8 : Nat)) with
    | .error f => .error f
    | .ok b => .ok (b.getLsbD (7 - p % 8), p + 1)

/-- `n` calls of `bit()`, the bits in the order read and the cursor after them. -/
def readBitList (m : Rom) (bb : Int) : Nat → Nat → Except FaultInfo (List Bool × Nat)
  | 0, p => .ok ([], p)
  | n + 1, p =>
    match readBit m bb p with
    | .error f => .error f
    | .ok (b, p') =>
      match readBitList m bb n p' with
      | .error f => .error f
      | .ok (bs, p'') => .ok (b :: bs, p'')

/-- `bits(n)`: the unsigned value of the next `n` bits, first bit highest (44_bitstream_reader.md R192). -/
def readBits (m : Rom) (bb : Int) (n p : Nat) : Except FaultInfo (Nat × Nat) :=
  match readBitList m bb n p with
  | .error f => .error f
  | .ok (bs, p') => .ok (natOfBits bs, p')

/-- `byteOffset()`, `ceiling(BPTR / 8)` (44_bitstream_reader.md R193). -/
def byteOffset (bptr : Nat) : Nat :=
  (bptr + 7) / 8

end Sys2Proof.Machine
end

