-- ==== Sys2Proof/Machine/Flags.lean ====
section
/-! DEFINITION. The status indications: the engine has no arithmetic flags, only STATE, FKIND and FCAUSE
(10_state.md R44), their codes, the STATUS view, and the completion that writes STATE. -/

namespace Sys2Proof.Machine

/-- The code of `STATE` (10_state.md R25). -/
def Ctrl.code : Ctrl → Nat
  | .idle => 0
  | .busy => 1
  | .done => 2
  | .fault => 3

/-- The code of `FKIND` (10_state.md R35). -/
def FKind.code : FKind → Nat
  | .noFault => 0
  | .unsupportedBlockMode => 1
  | .outOfBounds => 2
  | .internal => 3

/-- The code of `FCAUSE` (10_state.md R36). -/
def FCause.code : FCause → Nat
  | .noCause => 0
  | .startOutside => 1
  | .bytePastEnd => 2
  | .bitPastEnd => 3
  | .runOverflow => 4

/-- `STATUS = STATE | FKIND << 4 | FCAUSE << 8` (10_state.md R39). -/
def statusWord (s : State) : Word :=
  BitVec.ofNat 32 s.ctrl.code ||| (BitVec.ofNat 32 s.fkind.code <<< 4)
    ||| (BitVec.ofNat 32 s.fcause.code <<< 8)

/-- Completion, the last action of a step that outputs bytes: `if OCNT == 512: ENDOFF <- e; STATE <- DONE`
(40_entry_resolve.md R109). -/
def complete (e : Nat) (s : State) : State :=
  if s.ocnt = some Config.block then { s with endoff := some e, ctrl := .done } else s

/-- The step that MODE and DICT_VALID select in BUSY (40_entry_resolve.md R108). -/
inductive StepKind where
  /-- NEG (41_mode0.md R121). -/
  | neg
  /-- The RLE command step (42_mode1_rle.md R140). -/
  | rle
  /-- DICT_LOAD (43_mode2_bitpacked.md R170). -/
  | dictLoad
  /-- CODE (43_mode2_bitpacked.md R171). -/
  | code
  /-- The catch-all arm: a mode outside 0, 1, 2 (60_exceptions.md R216; log 25). -/
  | internal
deriving DecidableEq, Repr

/-- The table of 40_entry_resolve.md R108. -/
def stepKind (mode : Byte) (dictValid : Bool) : StepKind :=
  if mode = 0 then .neg
  else if mode = 1 then .rle
  else if mode = 2 then (if dictValid then .code else .dictLoad)
  else .internal

/-- The engine's one enabled step is of kind `k` (40_entry_resolve.md R108). -/
abbrev InStep (k : StepKind) (s : State) : Prop :=
  s.ctrl = .busy ∧ s.mode.map (fun m => stepKind m s.dictValid) = some k

/-- A unit performed where its step is the enabled one, and refused elsewhere (R108; log 13). -/
def inStep (k : StepKind) (s : State) (body : StepOutcome) : StepOutcome :=
  if InStep k s then body else .refused .notEnabled

end Sys2Proof.Machine
end

