-- ==== Sys2Proof/Machine/Entry.lean ====
section
/-! DEFINITION. START and the meanings of the five entry-word units (40_entry_resolve.md R100 to R107; 41_mode0.md
R120). An entry word is performed by START: the units differ in the mode and offset they carry. -/

namespace Sys2Proof.Machine

/-- ZERO: the zero block, performed inside START (41_mode0.md R120). -/
def zeroBlock (s : State) : State :=
  { s with
    out := Vector.replicate 512 (some 0x00), ocnt := some 512, endoff := some 0, ctrl := .done }

/-- BEGIN: enter BUSY at the storage start (40_entry_resolve.md R107). -/
def beginDecode (src : Int) (s : State) : State :=
  { s with
    ocnt := some 0, iptr := some src.toNat, bptr := some 0, dictValid := false, ctrl := .busy }

/-- What START gives MODE, OFFSET and SRC (R101, R102, R105): it keeps them even where it faults (60_exceptions.md
R217). -/
def setResolution (mode : Byte) (off : Int) (src : Option Int) (s : State) : State :=
  { s with mode := some mode, offset := some off, src := src }

/-- A START that faults: its clearing is discarded with its other effects, and only MODE, OFFSET, SRC, the fault
registers and STATE are written (00_scope.md R11; 60_exceptions.md R217; log 7). -/
def faultStart (f : FaultInfo) (mode : Byte) (off : Int) (src : Option Int) (s : State) : State :=
  takeFault f (setResolution mode off src s)

/-- A START that does not fault: every register of an earlier decode cleared, then the resolution's (R100, R111). -/
def acceptStart (mode : Byte) (off : Int) (src : Option Int) (s : State) : State :=
  setResolution mode off src (clearForStart s)

/-- ADDR, SRCCHK and BEGIN (40_entry_resolve.md R105, R106, R107): the sum is exact and never wraps. -/
def locate (mode : Byte) (base : Nat) (off : Int) (s : State) : State :=
  let src : Int := base + off
  if src < 0 ∨ (s.rom.len : Int) ≤ src then faultStart ⟨.outOfBounds, .startOutside, src⟩ mode off (some src) s
  else beginDecode src (acceptStart mode off (some src) s)

/-- Entry resolution: SPLIT and SEXT, then MODECHK, ZEROCHK and the rest in that order (40_entry_resolve.md R101
to R106; 60_exceptions.md R220). -/
def resolve (mode : Byte) (raw : BitVec 24) (base : Nat) (s : State) : State :=
  let off := sext24 raw
  if 2 < mode.toNat then faultStart ⟨.unsupportedBlockMode, .noCause, 0⟩ mode off none s
  else if mode = 0 ∧ off = 0 then zeroBlock (acceptStart mode off none s)
  else locate mode base off s

/-- START with an entry word whose fields are `mode` and `raw` (40_entry_resolve.md R100): refused in BUSY and
where an input holds no value, otherwise the clearing and the resolution in one atomic step. -/
def start (mode : Byte) (raw : BitVec 24) (s : State) : StepOutcome :=
  if s.ctrl = .busy then .refused .startWhileBusy
  else if s.entry = none then .refused (.startWithoutInput .entry)
  else
    match s.dataBase with
    | none => .refused (.startWithoutInput .dataBase)
    | some base => .next (resolve mode raw base s)

/-- ENT_ZERO (R75, R120). -/
def execEntZero (s : State) : StepOutcome :=
  start 0 0 s

/-- ENT_NEG (R121): mode 0 with a nonzero offset. -/
def execEntNeg (raw : BitVec 24) (s : State) : StepOutcome :=
  start 0 raw s

/-- ENT_RLE (R140): mode 1. -/
def execEntRle (raw : BitVec 24) (s : State) : StepOutcome :=
  start 1 raw s

/-- ENT_BITPACK (R170): mode 2. -/
def execEntBitpack (raw : BitVec 24) (s : State) : StepOutcome :=
  start 2 raw s

/-- ENT_BADMODE (R103, R211): MODE keeps the offending byte. -/
def execEntBadMode (mode : Byte) (raw : BitVec 24) (s : State) : StepOutcome :=
  start mode raw s

end Sys2Proof.Machine
end

