-- ==== Sys2Proof/Machine/Mode0.lean ====
section
/-! DEFINITION. Mode 0: the negated raw byte (41_mode0.md R121, R122). -/

namespace Sys2Proof.Machine

/-- NEG_BYTE (41_mode0.md R121): the byte `b` was read at IPTR; its negation is output. ENDOFF is 512 at the
512th (R122). -/
def execNegByte (b : Byte) (s : State) : StepOutcome :=
  inStep .neg s <|
    need .iptr s.iptr fun p =>
    need .ocnt s.ocnt fun n =>
      if n < Config.block then
        .next (complete 512 { emit n [negate b] s with iptr := some (p + 1) })
      else .refused .outputFull

end Sys2Proof.Machine
end

