-- ==== Sys2Proof/Machine/Mode1.lean ====
section
/-! DEFINITION. Mode 1: the run-length commands (42_mode1_rle.md R141 to R145). The command byte was read at IPTR;
a command reads its own operand bytes behind it. -/

namespace Sys2Proof.Machine

/-- A run's bytes output, IPTR past the whole command, and completion with `ENDOFF = IPTR - SRC`
(42_mode1_rle.md R142 to R144; log 14). -/
def finishRun (src : Int) (n next : Nat) (run : List Byte) (s : State) : State :=
  complete (next - src).toNat { emit n run s with iptr := some next }

/-- A literal or repeat command whose run is `len` bytes and whose operands are `operands` bytes: RUN_OVERFLOW at
the command's address comes before any operand read (42_mode1_rle.md R145; 60_exceptions.md R221), then the operand
bytes are read as `run` says, then the run is output. -/
def performRun (len operands : Nat) (run : Rom → Int → Except FaultInfo (List Byte)) (s : State) :
    StepOutcome :=
  need .src s.src fun src =>
  need .iptr s.iptr fun p =>
  need .ocnt s.ocnt fun n =>
    if Config.block < n + len then .next (takeFault ⟨.outOfBounds, .runOverflow, p⟩ s)
    else
      match run s.rom (p + 1) with
      | .error f => .next (takeFault f s)
      | .ok bs => .next (finishRun src n (p + 1 + operands) bs s)

/-- RLE_NOP (42_mode1_rle.md R141): consume and continue, no output. -/
def execRleNop (s : State) : StepOutcome :=
  inStep .rle s <|
    need .iptr s.iptr fun p => .next { s with iptr := some (p + 1) }

/-- RLE_LIT (42_mode1_rle.md R142): the next `c + 1` bytes, verbatim. -/
def execRleLit (c : Byte) (s : State) : StepOutcome :=
  inStep .rle s <| performRun (litLen c) (litLen c) (fun m a => litRun m a c) s

/-- RLE_REP (42_mode1_rle.md R143): `257 - c` copies of the next byte. -/
def execRleRep (c : Byte) (s : State) : StepOutcome :=
  inStep .rle s <| performRun (repLen c) 1 (fun m a => repRun m a c) s

end Sys2Proof.Machine
end

