-- ==== Sys2Proof/Machine/Mode2.lean ====
section
/-! DEFINITION. Mode 2: the dictionary load and the two codes (43_mode2_bitpacked.md R170 to R174). The unit's own
bits were read by the step that performs it; its meaning moves BPTR over them (log 12). -/

namespace Sys2Proof.Machine

/-- DICT_LOAD (43_mode2_bitpacked.md R170): the 16 bytes read at SRC ..= SRC + 15. -/
def execDictLoad (d : Vector Byte 16) (s : State) : StepOutcome :=
  inStep .dictLoad s <| .next (loadDict d s)

/-- A code of `len` bits that outputs `b`: BPTR past the code, one byte output, and completion with
`ENDOFF = byteOffset()` (43_mode2_bitpacked.md R172 to R174). -/
def finishCode (len : Nat) (b : Byte) (s : State) : StepOutcome :=
  need .bptr s.bptr fun p =>
  need .ocnt s.ocnt fun n =>
    if n < Config.block then
      .next (complete (byteOffset (p + len)) { emit n [b] s with bptr := some (p + len) })
    else .refused .outputFull

/-- M2_HIT (43_mode2_bitpacked.md R172): output `DICT[i]`; 5 bits in all. -/
def execM2Hit (i : BitVec 4) (s : State) : StepOutcome :=
  inStep .code s <|
    need (.dict i.toFin) (s.dict.get i.toFin) fun b => finishCode 5 b s

/-- M2_LIT (43_mode2_bitpacked.md R173): output `b`; 9 bits in all. -/
def execM2Lit (b : Byte) (s : State) : StepOutcome :=
  inStep .code s <| finishCode 9 b s

end Sys2Proof.Machine
end

