-- ==== Sys2Proof/Machine/Dispatch.lean ====
section
/-! DEFINITION. One arm per unit of the opcode table. -/

namespace Sys2Proof.Machine

def exec (i : Instr) (s : State) : Host.Outcome State Fault Refusal :=
  match i with
  | .entZero => Sys2Proof.Machine.execEntZero s
  | .entNeg raw => Sys2Proof.Machine.execEntNeg raw s
  | .entRle raw => Sys2Proof.Machine.execEntRle raw s
  | .entBitpack raw => Sys2Proof.Machine.execEntBitpack raw s
  | .entBadMode mode raw => Sys2Proof.Machine.execEntBadMode mode raw s
  | .negByte b => Sys2Proof.Machine.execNegByte b s
  | .rleLit c => Sys2Proof.Machine.execRleLit c s
  | .rleNop => Sys2Proof.Machine.execRleNop s
  | .rleRep c => Sys2Proof.Machine.execRleRep c s
  | .dictLoad d => Sys2Proof.Machine.execDictLoad d s
  | .m2Hit idx => Sys2Proof.Machine.execM2Hit idx s
  | .m2Lit b => Sys2Proof.Machine.execM2Lit b s

end Sys2Proof.Machine
end

