-- ==== Sys2Proof/Machine/Fetch.lean ====
section
/-! DEFINITION. What the next step performs: the host's next command, or the unit the engine's enabled step reads
(40_entry_resolve.md R108; 30_encoding.md R92). -/

namespace Sys2Proof.Machine

/-- What the next step performs. -/
inductive Fetched where
  /-- Nothing: the host is idle and the engine has no enabled step (R108). -/
  | nothing
  /-- A decoded unit. -/
  | unit (i : Instr)
  /-- A fault raised while the unit's own bytes or bits were read. -/
  | raise (f : FaultInfo)
  /-- A host access other than START. -/
  | access (op : PortOp)
  /-- No meaning. -/
  | refused (r : Refusal)
deriving DecidableEq, Repr

/-- A register the step reads. -/
def fetchNeed {α : Type} (r : Reg) (v : Option α) (k : α → Fetched) : Fetched :=
  match held r v with
  | .error e => .refused e
  | .ok a => k a

/-- The byte at IPTR as a unit: of mode 0 (41_mode0.md R121) or of a mode-1 stream (42_mode1_rle.md R140). -/
def fetchByte (m : Rom) (p : Nat) (decodeByte : Byte → Instr) : Fetched :=
  match memRead m p with
  | .error f => .raise f
  | .ok b => .unit (decodeByte b)

/-- The 16 bytes at SRC as the dictionary unit (43_mode2_bitpacked.md R170). -/
def fetchDict (m : Rom) (src : Int) : Fetched :=
  match readBytes m src 16 with
  | .error f => .raise f
  | .ok bs =>
    match decodeDict bs with
    | .ok i => .unit i
    | .error _ => .nothing

/-- One code at BPTR: the flag bit, then `bits(4)` or `bits(8)` (43_mode2_bitpacked.md R171 to R173). -/
def fetchCode (m : Rom) (src : Int) (p : Nat) : Fetched :=
  match readBit m (bitBase src) p with
  | .error f => .raise f
  | .ok (flag, p') =>
    match readBitList m (bitBase src) (if flag then 4 else 8) p' with
    | .error f => .raise f
    | .ok (bs, _) =>
      match decode .code (flag :: bs) with
      | .ok (i, _) => .unit i
      | .error _ => .nothing

/-- The engine's one enabled step in BUSY, none in any other state (40_entry_resolve.md R108). -/
def fetchStep (s : State) : Fetched :=
  if s.ctrl = .busy then
    fetchNeed .mode s.mode fun m =>
      match stepKind m s.dictValid with
      | .neg => fetchNeed .iptr s.iptr fun p => fetchByte s.rom p .negByte
      | .rle => fetchNeed .iptr s.iptr fun p => fetchByte s.rom p decodeCmd
      | .dictLoad => fetchNeed .src s.src fun src => fetchDict s.rom src
      | .code => fetchNeed .src s.src fun src => fetchNeed .bptr s.bptr fun p => fetchCode s.rom src p
      | .internal => .raise ⟨.internal, .noCause, 0⟩
  else .nothing

/-- START decodes the entry word (30_encoding.md R92); it is refused where ENTRY holds no value
(40_entry_resolve.md R100). -/
def fetchEntry (s : State) : Fetched :=
  match s.entry with
  | none => .refused (.startWithoutInput .entry)
  | some w => .unit (decodeEntry w)

/-- The host's next command decides; where it is idle, the engine's step is taken (log 4). -/
def fetch (s : State) : Fetched :=
  match s.host with
  | [] => fetchStep s
  | .idle :: _ => fetchStep s
  | .start :: _ => fetchEntry s
  | .port op :: _ => .access op

/-- The host's list with its next command taken off. -/
def takeCommand (s : State) : State :=
  { s with host := s.host.tail }

end Sys2Proof.Machine
end

