-- ==== Sys2Proof/Machine/HostPort.lean ====
section
/-! DEFINITION. What the host may do to the registers (10_state.md R41; 70_reset_and_hazards.md R250 to R255).
START is not here: it is performed by the entry word's unit. -/

namespace Sys2Proof.Machine

/-- ROM_LEN admits an image of `n` bytes: it is the machine's own, settled by the first ROM that holds a byte, and every
image is of that length (00_scope.md R7; 70_reset_and_hazards.md R251; log 8). -/
abbrev Rom.admits (m : Rom) (n : Nat) : Prop :=
  m.len = 0 ∨ n = m.len

/-- Readable only where `ok` (10_state.md R41(d)). -/
def readableWhen (ok : Bool) (r : Reg) (v : Option Int) : Except Refusal Int :=
  if ok then held r v else .error (.notReadableNow r)

/-- What a host read of `r` returns (10_state.md R22, R41): STATUS, STATE and the fault registers at any time; MODE,
OFFSET and SRC where they hold a value; OUT and ENDOFF only in DONE; ENTRY and DATA_BASE not in BUSY (log 9);
the rest never. -/
def readReg (r : Reg) (s : State) : Except Refusal Int :=
  match r with
  | .entry => readableWhen (s.ctrl != .busy) r (s.entry.map fun w => (w.toNat : Int))
  | .dataBase => readableWhen (s.ctrl != .busy) r (s.dataBase.map fun n => (n : Int))
  | .state => .ok s.ctrl.code
  | .mode => held r (s.mode.map fun m => (m.toNat : Int))
  | .offset => held r s.offset
  | .src => held r s.src
  | .iptr => .error (.noHostAccess r)
  | .bptr => .error (.noHostAccess r)
  | .ocnt => .error (.noHostAccess r)
  | .out i => readableWhen (s.ctrl == .done) r ((s.out.get i).map fun b => (b.toNat : Int))
  | .dict _ => .error (.noHostAccess r)
  | .dictValid => .error (.noHostAccess r)
  | .fkind => .ok s.fkind.code
  | .fcause => .ok s.fcause.code
  | .faddr => .ok s.faddr
  | .endoff => readableWhen (s.ctrl == .done) r (s.endoff.map fun n => (n : Int))
  | .status => .ok (statusWord s).toNat

/-- A host access: a write (10_state.md R23, R24, R39, R41(a); 20_memory.md R51), a reset
(70_reset_and_hazards.md R250) or a read (10_state.md R41). A ROM load is taken in every state but BUSY, of
an image of ROM_LEN bytes, so that SRC stays inside the ROM in DONE (10_state.md R28; DEDUCED, log 8). -/
def hostAccess (op : PortOp) (s : State) : StepOutcome :=
  match op with
  | .writeEntry w =>
    if s.ctrl = .busy then .refused (.writeWhileBusy .entry) else .next { s with entry := some w }
  | .writeDataBase n =>
    if s.ctrl = .busy then .refused (.writeWhileBusy .dataBase)
    else .next { s with dataBase := some n }
  | .writeStatus _ => .next s
  | .loadRom image =>
    if s.ctrl = .busy then .refused .romWriteWhileBusy
    else if s.rom.admits image.length then .next { s with rom := Rom.ofBytes image }
    else .refused .romLengthFixed
  | .reset => .next (resetEngine s)
  | .read r =>
    match readReg r s with
    | .error e => .refused e
    | .ok v => .next { s with hostData := some v }

end Sys2Proof.Machine
end

