-- ==== Sys2Proof/Machine/Step.lean ====
section
/-! DEFINITION. One step of the machine: the host's next command, or the engine's enabled step while the host is
idle (10_state.md R20, R25; 40_entry_resolve.md R108; log 4, log 6). -/

namespace Sys2Proof.Machine

/-- One step. A decoded unit runs by `exec`; a fault raised while it was read is taken (60_exceptions.md R217); with
the host idle and no enabled step nothing changes (log 6). -/
def step (s : State) : Host.Outcome State Fault Refusal :=
  match fetch s with
  | .nothing => .next (takeCommand s)
  | .unit i => exec i (takeCommand s)
  | .raise f => .next (takeFault f (takeCommand s))
  | .access op => hostAccess op (takeCommand s)
  | .refused r => .refused r

/-- `s` with its next step a START on the entry word `w` (log 10): the word in ENTRY, a DATA_BASE (0 where none was
written), and START next on the host's list; a decode in progress is given up, since START is refused in BUSY. -/
def State.withEntryWord (s : State) (w : Nat) : State :=
  { s with
    entry := some (BitVec.ofNat 32 w), dataBase := some (s.dataBase.getD 0)
    ctrl := if s.ctrl = .busy then .idle else s.ctrl
    host := .start :: s.host }

/-- `s` with its next step the mode-1 command whose bytes are `bs`, placed at IPTR (log 10). -/
def State.withCommandBytes (s : State) (bs : List Byte) : State :=
  { s with
    ctrl := .busy, mode := some 1
    src := some (s.src.getD (s.iptr.getD 0)), iptr := some (s.iptr.getD 0), ocnt := some (s.ocnt.getD 0)
    rom := s.rom.place (s.iptr.getD 0) bs
    host := .idle :: s.host }

/-- `s` with its next step the load of the dictionary `bs`, placed at SRC (log 10). -/
def State.withDictBytes (s : State) (bs : List Byte) : State :=
  { s with
    ctrl := .busy, mode := some 2, dictValid := false
    src := some (s.src.getD 0).toNat
    rom := s.rom.place (s.src.getD 0).toNat bs
    host := .idle :: s.host }

/-- `s` with its next step the mode-2 code at the head of the bytes `bs`, the start of the bit stream at
SRC + 16, in a decode whose dictionary is loaded (log 10). -/
def State.withCodeBytes (s : State) (bs : List Byte) : State :=
  { s with
    ctrl := .busy, mode := some 2, dictValid := true
    dict := if s.dictValid then s.dict else Vector.replicate 16 (some 0)
    src := some (s.src.getD 0).toNat, bptr := some 0, ocnt := some (s.ocnt.getD 0)
    rom := s.rom.place ((s.src.getD 0).toNat + 16) bs
    host := .idle :: s.host }

/-- `s` with the table row of `nbits` bits whose number is `w` where the next step reads its unit, the bits above
`nbits` zero (log 10, log 11). A width no row has leaves `s` as it is. -/
def State.withFetchWord (s : State) (nbits w : Nat) : State :=
  match tableFormat nbits with
  | some .entry32 => s.withEntryWord w
  | some .cmd8 => s.withCommandBytes (packBits (tableBits nbits w) ++ List.replicate 128 0)
  | some .dict16 => s.withDictBytes (packBits (tableBits nbits w))
  | some .code => s.withCodeBytes (packBits (tableBits nbits w ++ List.replicate 16 false))
  | some .raw8 => s
  | none => s

end Sys2Proof.Machine
end

