-- ==== Sys2Proof/Machine/Assembler.lean ====
section
/-! DEFINITION. The spec's assembler notation (30_encoding.md R90) and its pseudo-instructions (R91): what bytes, bits
and ENTRY value a program text stands for. It has no meaning for the engine beyond those (92_eei_decisions.md D22). -/

namespace Sys2Proof.Machine

/-- One line of the notation (30_encoding.md R90). -/
inductive AsmLine where
  /-- `.org A` -/
  | org (a : Nat)
  /-- `.byte b0, b1, …` -/
  | byte (bs : List Byte)
  /-- `ENTRY m, off` -/
  | entry (m : Nat) (off : Int)
  /-- `RAW b0, …` -/
  | raw (bs : List Byte)
  /-- `LIT b0, …, bk` -/
  | lit (bs : List Byte)
  /-- `REP L, v` -/
  | rep (len : Nat) (v : Byte)
  /-- `NOP` -/
  | nop
  /-- `DICT d0, …, d15` -/
  | dict (ds : List Byte)
  /-- `HIT i` -/
  | hit (i : Nat)
  /-- `BYTE b` -/
  | codeByte (b : Byte)
  /-- `ENDBITS` -/
  | endBits
deriving DecidableEq, Repr

/-- An assembly error (30_encoding.md R90). -/
inductive AsmError where
  /-- A form outside the ranges of R90 or R91. -/
  | outOfRange
  /-- Bytes are emitted before any `.org` has said where (log 17). -/
  | noOrigin
deriving DecidableEq, Repr

/-- What has been assembled: the address of the next byte (none before the first `.org`), the pending bit string,
the ROM's bytes, and the ENTRY value. -/
structure AsmState where
  addr : Option Nat
  pending : List Bool
  rom : Rom
  entry : Option Word
deriving DecidableEq, Repr

/-- Nothing assembled yet. -/
def AsmState.empty : AsmState where
  addr := none
  pending := []
  rom := { len := 0, cells := [] }
  entry := none

/-- The bytes of a mode-1 command line, or nothing where its range is broken (30_encoding.md R90): `LIT` emits `k`
and the bytes, `REP L` emits `257 - L` and the value, `NOP` emits 0x80. -/
def commandBytes : AsmLine → Option (List Byte)
  | .lit bs =>
    if 1 ≤ bs.length ∧ bs.length ≤ 128 then some (BitVec.ofNat 8 (bs.length - 1) :: bs) else none
  | .rep len v => if 2 ≤ len ∧ len ≤ 128 then some [BitVec.ofNat 8 (257 - len), v] else none
  | .nop => some [0x80]
  | .org _ => none
  | .byte _ => none
  | .entry _ _ => none
  | .raw _ => none
  | .dict _ => none
  | .hit _ => none
  | .codeByte _ => none
  | .endBits => none

/-- The bytes a mode-1 command line decodes to (42_mode1_rle.md R146). -/
def commandRun : AsmLine → List Byte
  | .lit bs => bs
  | .rep len v => List.replicate len v
  | .nop => []
  | .org _ => []
  | .byte _ => []
  | .entry _ _ => []
  | .raw _ => []
  | .dict _ => []
  | .hit _ => []
  | .codeByte _ => []
  | .endBits => []

/-- The bytes of a mode-1 command stream, or nothing where a line is no mode-1 command in its range. -/
def streamBytes : List AsmLine → Option (List Byte)
  | [] => some []
  | l :: ls =>
    match commandBytes l, streamBytes ls with
    | some bs, some rest => some (bs ++ rest)
    | none, _ => none
    | some _, none => none

/-- `ENTRY m, off`: the word `m << 24 | (off mod 2^24)` (30_encoding.md R90). -/
def asmEntryWord (m : Nat) (off : Int) : Word :=
  entryWord (BitVec.ofNat 8 m) (BitVec.ofInt 24 off)

/-- Bytes emitted at the current address. -/
def asmEmit (bs : List Byte) (st : AsmState) : Except AsmError AsmState :=
  match st.addr with
  | none => .error .noOrigin
  | some a => .ok { st with rom := st.rom.place a bs, addr := some (a + bs.length) }

/-- One mode-1 command emitted. -/
def asmCommand (l : AsmLine) (st : AsmState) : Except AsmError AsmState :=
  match commandBytes l with
  | none => .error .outOfRange
  | some bs => asmEmit bs st

/-- One line assembled (30_encoding.md R90). -/
def assembleLine (l : AsmLine) (st : AsmState) : Except AsmError AsmState :=
  match l with
  | .org a => .ok { st with addr := some a }
  | .byte bs => asmEmit bs st
  | .entry m off =>
    if m ≤ 255 ∧ -8388608 ≤ off ∧ off < 8388608 then
      match st.addr with
      | none => .ok { st with entry := some (asmEntryWord m off) }
      | some _ => asmEmit (bytesOfBits 4 (bitsOf 32 (asmEntryWord m off).toNat)) st
    else .error .outOfRange
  | .raw bs => asmEmit bs st
  | .lit bs => asmCommand (.lit bs) st
  | .rep len v => asmCommand (.rep len v) st
  | .nop => asmCommand .nop st
  | .dict ds => if ds.length = 16 then asmEmit ds st else .error .outOfRange
  | .hit i =>
    if i ≤ 15 then .ok { st with pending := st.pending ++ encode (.m2Hit (BitVec.ofNat 4 i)) }
    else .error .outOfRange
  | .codeByte b => .ok { st with pending := st.pending ++ encode (.m2Lit b) }
  | .endBits => asmEmit (packBits st.pending) { st with pending := [] }

/-- The lines of a program assembled in order. -/
def assemble : List AsmLine → AsmState → Except AsmError AsmState
  | [], st => .ok st
  | l :: ls, st =>
    match assembleLine l st with
    | .error e => .error e
    | .ok st' => assemble ls st'

/-- A pseudo-instruction (30_encoding.md R91). -/
inductive AsmPseudo where
  /-- `ZERO` -/
  | zero
  /-- `FILL L, v` -/
  | fill (len : Nat) (v : Byte)
  /-- `COPY b0, …, bk` -/
  | copy (bs : List Byte)
  /-- `PAD k` -/
  | pad (k : Nat)
  /-- `HITS n, i` -/
  | hits (n i : Nat)
  /-- `BYTES b0, …, bk` -/
  | bytes (bs : List Byte)
deriving DecidableEq, Repr

/-- `LIT` commands of 128 bytes, then one of the rest; `fuel` bounds their number. -/
def copyLines : Nat → List Byte → List AsmLine
  | 0, _ => []
  | fuel + 1, bs =>
    match bs with
    | [] => []
    | _ :: _ => .lit (bs.take 128) :: copyLines fuel (bs.drop 128)

/-- What is left of a `FILL` after its whole `REP 128`s. -/
def fillRest (r : Nat) (v : Byte) : List AsmLine :=
  if 2 ≤ r then [.rep r v] else if r = 1 then [.lit [v]] else []

/-- A pseudo-instruction's expansion (30_encoding.md R91). -/
def expandPseudo : AsmPseudo → Except AsmError (List AsmLine)
  | .zero => .ok [.entry 0 0]
  | .fill len v =>
    if 1 ≤ len ∧ len ≤ 512 then
      .ok (List.replicate (len / 128) (.rep 128 v) ++ fillRest (len % 128) v)
    else .error .outOfRange
  | .copy bs => .ok (copyLines bs.length bs)
  | .pad k => .ok (List.replicate k .nop)
  | .hits n i => .ok (List.replicate n (.hit i))
  | .bytes bs => .ok (bs.map .codeByte)

end Sys2Proof.Machine
end

