-- ==== Sys2Proof/Machine/Observe.lean ====
section
/-! DEFINITION. The observation of a decode (40_entry_resolve.md R110; 70_reset_and_hazards.md R257), and the
block results of R123, R146 and R175 written as plain functions of the ROM, to hold the step machine against. -/

namespace Sys2Proof.Machine

/-- `Decode(ROM, DATA_BASE, ENTRY)`: a block and its end offset, or a fault (40_entry_resolve.md R110). -/
inductive DecodeResult where
  | done (out : List Byte) (endoff : Nat)
  | fault (kind : FKind) (cause : FCause) (addr : Int)
deriving DecidableEq, Repr

/-- The values of a list of registers, where every one holds a value. -/
def valuesOf {α : Type} : List (Option α) → Option (List α)
  | [] => some []
  | none :: _ => none
  | some a :: r => (valuesOf r).map (a :: ·)

/-- The result a state shows in DONE and in FAULT, none elsewhere (10_state.md R41, R25). -/
def observe (s : State) : Option DecodeResult :=
  match s.ctrl with
  | .idle => none
  | .busy => none
  | .done =>
    match valuesOf s.out.toList, s.endoff with
    | some bs, some e => some (.done bs e)
    | _, _ => none
  | .fault => some (.fault s.fkind s.fcause s.faddr)

/-- The state after `n` steps, none where a step is refused. -/
def runSteps : Nat → State → Option State
  | 0, s => some s
  | n + 1, s =>
    match step s with
    | .next t => runSteps n t
    | .fault _ => none
    | .refused _ => none

/-- The engine after reset and boot, about to be started (70_reset_and_hazards.md R251). -/
def booted (rom : Rom) (base : Nat) (w : Word) : State :=
  { State.reset with rom := rom, entry := some w, dataBase := some base, host := [.start] }

/-- START and enough steps for any decode: 512 in mode 0, 513 in mode 2, `ROM_LEN - SRC + 1` in mode 1
(40_entry_resolve.md R110). -/
def decodeSteps (rom : Rom) : Nat :=
  1 + (rom.len + 514)

/-- `Decode(ROM, DATA_BASE, ENTRY)` (40_entry_resolve.md R110): what is observed once the engine has stopped. -/
def decodeBlock (rom : Rom) (base : Nat) (w : Word) : Option DecodeResult :=
  match runSteps (decodeSteps rom) (booted rom base w) with
  | none => none
  | some s => observe s

/-! ### Block results as functions of the ROM -/

/-- The fault of a block whose storage runs past the ROM (41_mode0.md R123, 42_mode1_rle.md R146,
43_mode2_bitpacked.md R175). -/
def pastEnd (rom : Rom) : DecodeResult :=
  .fault .outOfBounds .bytePastEnd rom.len

/-- The mode-0 block at `src` (41_mode0.md R123). -/
def negBlock (rom : Rom) (src : Nat) : DecodeResult :=
  match readBytes rom src 512 with
  | .error _ => pastEnd rom
  | .ok bs => .done (bs.map negate) 512

/-- The mode-1 block (42_mode1_rle.md R146): the commands from address `a` on, `out` the output so far. `fuel` bounds
the commands read. -/
def rleBlock (rom : Rom) (src : Nat) : Nat → Nat → List Byte → DecodeResult
  | 0, _, _ => pastEnd rom
  | fuel + 1, a, out =>
    match romByte rom a with
    | none => pastEnd rom
    | some c =>
      if c = 0x80 then rleBlock rom src fuel (a + 1) out
      else
        let len := if c.toNat ≤ 0x7F then litLen c else repLen c
        let operands := if c.toNat ≤ 0x7F then litLen c else 1
        let run := if c.toNat ≤ 0x7F then litRun rom (a + 1) c else repRun rom (a + 1) c
        if 512 < out.length + len then .fault .outOfBounds .runOverflow a
        else
          match run with
          | .error _ => pastEnd rom
          | .ok bs =>
            if out.length + len = 512 then .done (out ++ bs) (a + 1 + operands - src)
            else rleBlock rom src fuel (a + 1 + operands) (out ++ bs)

/-- All ROM bytes from address `a` to the ROM's end (43_mode2_bitpacked.md R175). -/
def bytesFrom (rom : Rom) (a : Nat) : List Byte :=
  (List.range (rom.len - a)).map fun k => cellByte rom.cells (a + k)

/-- The byte a mode-2 code outputs (43_mode2_bitpacked.md R172, R173); 0 for any other unit. -/
def codeByte (dict : List Byte) : Instr → Byte
  | .m2Hit i => dict.getD i.toNat 0
  | .m2Lit b => b
  | .entZero => 0
  | .entNeg _ => 0
  | .entRle _ => 0
  | .entBitpack _ => 0
  | .entBadMode _ _ => 0
  | .negByte _ => 0
  | .rleLit _ => 0
  | .rleNop => 0
  | .rleRep _ => 0
  | .dictLoad _ => 0

/-- The bytes of `n` codes at the head of a bit stream and the bits they take, none where the stream ends inside
one of them (43_mode2_bitpacked.md R175). -/
def codesOf (dict : List Byte) : Nat → List Bool → Option (List Byte × Nat)
  | 0, _ => some ([], 0)
  | n + 1, bits =>
    match decode .code bits with
    | .error _ => none
    | .ok (i, rest) => (codesOf dict n rest).map fun r => (codeByte dict i :: r.1, i.bitLength + r.2)

/-- The mode-2 block at `src` (43_mode2_bitpacked.md R175). -/
def packedBlock (rom : Rom) (src : Nat) : DecodeResult :=
  match readBytes rom src 16 with
  | .error _ => pastEnd rom
  | .ok dict =>
    match codesOf dict 512 (bitsOfBytes (bytesFrom rom (src + 16))) with
    | none => .fault .outOfBounds .bitPastEnd rom.len
    | some (bs, used) => .done bs (byteOffset used)

/-- What `Decode` is for every entry word (60_exceptions.md R220; 41_mode0.md R120, R123; 42_mode1_rle.md R146;
43_mode2_bitpacked.md R175). -/
def blockResult (rom : Rom) (base : Nat) (w : Word) : DecodeResult :=
  let src : Int := base + sext24 (entryRaw w)
  if 2 < (entryMode w).toNat then .fault .unsupportedBlockMode .noCause 0
  else if w = 0 then .done (List.replicate 512 0) 0
  else if src < 0 ∨ (rom.len : Int) ≤ src then .fault .outOfBounds .startOutside src
  else if entryMode w = 0 then negBlock rom src.toNat
  else if entryMode w = 1 then rleBlock rom src.toNat (rom.len - src.toNat + 1) src.toNat []
  else packedBlock rom src.toNat

end Sys2Proof.Machine
end

