-- ==== Sys2Proof/Machine/Cluster.lean ====
section
/-! DEFINITION. Several engines (20_memory.md R63; 60_exceptions.md R229): `N_ENGINES` independent machines, which
share only the read-only ROM and step one at a time in any order (log 15). -/

namespace Sys2Proof.Machine

/-- The engines of a system, by position: they have no identifiers of their own (60_exceptions.md R229). -/
structure Cluster where
  engines : List State
deriving DecidableEq, Repr

/-- There is an engine, and every engine reads the ROM `rom` (00_scope.md R7; 20_memory.md R63). -/
abbrev Cluster.shares (rom : Rom) (c : Cluster) : Prop :=
  c.engines ≠ [] ∧ ∀ s ∈ c.engines, s.rom = rom

/-- The engine's ROM replaced. -/
def setRom (rom : Rom) (s : State) : State :=
  { s with rom := rom }

/-- A host access that loads a ROM image. -/
def PortOp.isLoad : PortOp → Bool
  | .loadRom _ => true
  | .writeEntry _ => false
  | .writeDataBase _ => false
  | .writeStatus _ => false
  | .reset => false
  | .read _ => false

/-- The next step is a load of a ROM image by this engine's host. -/
def loadsRom (s : State) : Bool :=
  match s.host with
  | [] => false
  | .idle :: _ => false
  | .start :: _ => false
  | .port op :: _ => op.isLoad

/-- Some engine is in the middle of a decode. -/
def Cluster.anyBusy (c : Cluster) : Bool :=
  c.engines.any fun s => s.ctrl == .busy

/-- Engine `k` takes a step, if there is one and it answers a next state; the others do nothing but read the one
shared ROM as it then is (20_memory.md R63). A ROM load is refused while any engine is BUSY, since the ROM is read-only
to every agent for the duration of a decode (20_memory.md R51). That one host's load is a load of every engine's ROM,
and that another engine's BUSY refuses it, is the model's reading (DEDUCED, log 15). -/
def Cluster.stepAt (k : Nat) (c : Cluster) : Option Cluster :=
  match c.engines[k]? with
  | none => none
  | some s =>
    if loadsRom s && c.anyBusy then none
    else
      match step s with
      | .next t => some { engines := (c.engines.set k t).map (setRom t.rom) }
      | .fault _ => none
      | .refused _ => none

/-- The engines stepping in the order `ks`, none where one of those steps is refused. -/
def Cluster.runOrder : List Nat → Cluster → Option Cluster
  | [], c => some c
  | k :: ks, c => (c.stepAt k).bind (Cluster.runOrder ks)

end Sys2Proof.Machine
end

