-- ==== Sys2Proof/Safety.lean ====
section
/-! DEFINITION. The terms the claims are stated in: the invariant of 10_state.md R40, whose turn a step is, what a unit
leaves alone, and when a decode gives a result. -/

namespace Sys2Proof.Machine

/-! ### Whose turn it is -/

/-- The next step is the engine's: the host has nothing to do, or is idle (log 4). -/
abbrev EngineTurn (s : State) : Prop :=
  s.host = [] ∨ s.host.head? = some .idle

/-- START is legal: not in BUSY, ENTRY holds a value, and DATA_BASE holds `base` (40_entry_resolve.md R100). -/
abbrev StartReady (s : State) (base : Nat) : Prop :=
  s.ctrl ≠ .busy ∧ s.entry ≠ none ∧ s.dataBase = some base

/-- The host issues START on the entry word `w` with the data base `base`, and then leaves the engine alone. -/
abbrev Started (s : State) (base : Nat) (w : Word) : Prop :=
  s.host = [.start] ∧ s.ctrl ≠ .busy ∧ s.entry = some w ∧ s.dataBase = some base

/-- A state in the middle of an engine step of kind `k`, the engine's turn. -/
abbrev Stepping (k : StepKind) (s : State) : Prop :=
  EngineTurn s ∧ InStep k s

/-! ### What is left alone -/

/-- The inputs of a decode and the host's own fields are as before: ROM, ENTRY, DATA_BASE (10_state.md R21 to R24). -/
abbrev KeepsInputs (s t : State) : Prop :=
  t.rom = s.rom ∧ t.entry = s.entry ∧ t.dataBase = s.dataBase ∧ t.host = s.host ∧ t.hostData = s.hostData

/-- MODE, OFFSET and SRC are as before (10_state.md R26 to R28). -/
abbrev KeepsResolution (s t : State) : Prop :=
  t.mode = s.mode ∧ t.offset = s.offset ∧ t.src = s.src

/-- The fault registers are as before (10_state.md R35 to R37). -/
abbrev KeepsFaultRegs (s t : State) : Prop :=
  t.fkind = s.fkind ∧ t.fcause = s.fcause ∧ t.faddr = s.faddr

/-- The dictionary is as before (10_state.md R33, R34). -/
abbrev KeepsDict (s t : State) : Prop :=
  t.dict = s.dict ∧ t.dictValid = s.dictValid

/-- No fault is recorded (10_state.md R35 to R37). -/
abbrev NoFaultRecorded (s : State) : Prop :=
  s.fkind = .noFault ∧ s.fcause = .noCause ∧ s.faddr = 0

/-- No OUT byte, no DICT byte and no ENDOFF holds a value (40_entry_resolve.md R100). -/
abbrev NothingProduced (s : State) : Prop :=
  (∀ j, s.outAt j = none) ∧ (∀ k, s.dictAt k = none) ∧ s.dictValid = false ∧ s.endoff = none

/-- The output of `bs` from index `n` on, and no other OUT byte changed (20_memory.md R59). -/
abbrev Outputs (n : Nat) (bs : List Byte) (s t : State) : Prop :=
  ∀ j, t.outAt j = if n ≤ j ∧ j < n + bs.length then bs[j - n]? else s.outAt j

/-- The step ended the block exactly when OCNT reached 512, with the end offset `e`; else it is still BUSY and ENDOFF is
as before (40_entry_resolve.md R109). -/
abbrev Completes (e : Nat) (s t : State) : Prop :=
  (t.ocnt = some 512 → t.ctrl = .done ∧ t.endoff = some e) ∧
    (t.ocnt ≠ some 512 → t.ctrl = .busy ∧ t.endoff = s.endoff)

/-! ### The ROM and the bit stream -/

/-- The ROM holds the bytes `bs` from address `a` on. -/
abbrev RomHolds (m : Rom) (a : Int) (bs : List Byte) : Prop :=
  ∀ k : Nat, k < bs.length → romByte m (a + k) = bs[k]?

/-! ### The invariant -/

/-- What holds in BUSY (10_state.md R26 to R31, R40(d) to (g)): the decode's registers hold values that agree with its
inputs, and the cursors are where the bytes produced so far put them. -/
structure BusyInv (s : State) : Prop where
  inputs : ∃ w base, s.entry = some w ∧ s.dataBase = some base ∧ s.mode = some (entryMode w) ∧
    s.offset = some (sext24 (entryRaw w)) ∧ s.src = some (base + sext24 (entryRaw w)) ∧
    (entryMode w).toNat ≤ 2 ∧ w ≠ 0
  src : ∃ a : Nat, s.src = some (a : Int) ∧ a < s.rom.len
  ocnt : ∃ n, s.ocnt = some n ∧ n < 512
  cursors : ∃ p b, s.iptr = some p ∧ s.bptr = some b
  endoff : s.endoff = none
  mode0 : s.mode = some 0 → s.dictValid = false ∧
    ∃ (a n p : Nat), s.src = some (a : Int) ∧ s.ocnt = some n ∧ s.iptr = some p ∧ p = a + n ∧ p ≤ s.rom.len
  mode1 : s.mode = some 1 → s.dictValid = false ∧
    ∃ (a p : Nat), s.src = some (a : Int) ∧ s.iptr = some p ∧ a ≤ p ∧ p ≤ s.rom.len
  mode2 : s.mode = some 2 → s.dictValid = true →
    ∃ (a b : Nat), s.src = some (a : Int) ∧ s.bptr = some b ∧ a + 16 ≤ s.rom.len ∧ b ≤ 8 * (s.rom.len - (a + 16))
  unloaded : s.mode = some 2 → s.dictValid = false → s.bptr = some 0 ∧ s.ocnt = some 0

/-- The machine's invariant: 10_state.md R40 (a) to (g), SRC's place in DONE (R28), the ROM's canonical form, and what the status registers say
of each other (R25, R35, R36). -/
structure Inv (s : State) : Prop where
  romWf : s.rom.wf = true
  ocntLe : ∀ n, s.ocnt = some n → n ≤ 512
  outHeld : s.ctrl = .busy ∨ s.ctrl = .done →
    ∃ n, s.ocnt = some n ∧ ∀ j, j < 512 → (s.outAt j ≠ none ↔ j < n)
  dictHeld : ∀ k, k < 16 → (s.dictAt k ≠ none ↔ s.dictValid = true)
  offsetRange : ∀ o, s.offset = some o → -8388608 ≤ o ∧ o ≤ 8388607
  busy : s.ctrl = .busy → BusyInv s
  done : s.ctrl = .done → s.ocnt = some 512 ∧ s.endoff ≠ none ∧ ∃ m : Byte, s.mode = some m ∧ m.toNat ≤ 2
  doneSrc : s.ctrl = .done → (s.src = none ∧ s.mode = some 0 ∧ s.offset = some 0) ∨
    ∃ a : Nat, s.src = some (a : Int) ∧ a < s.rom.len
  faultKind : s.fkind = .noFault ↔ s.ctrl ≠ .fault
  faultCause : s.fcause = .noCause ↔ s.fkind ≠ .outOfBounds
  noInternal : s.fkind ≠ .internal
  faddrClear : s.fkind = .noFault → s.faddr = 0

/-! ### Results -/

/-- From `s`, the START and at most `bound` steps after it give the result `r` (40_entry_resolve.md R110). -/
abbrev DecodesWithin (s : State) (bound : Nat) (r : DecodeResult) : Prop :=
  ∃ k t, k ≤ bound ∧ runSteps (1 + k) s = some t ∧ observe t = some r

end Sys2Proof.Machine
end

