-- ==== Sys2Proof/Certificates/Slice0/Obligations.lean ====
section
/-! DEFINITION. The statements for the provers, in the order of OBLIGATIONS.json. -/

open Sys2Proof Sys2Proof.Machine

/-! ### Encodings (30_encoding.md) -/

/-- Decode and encode agree: every unit of the opcode table, with every operand its encoding admits, is read back
whole from its bits, whatever bits follow (R71, R76 to R85). -/
def Obligations.EncodedUnitsDecode : Prop :=
  ∀ (i : Instr) (rest : List Bool), i.WellFormed → decode i.format (encode i ++ rest) = .ok (i, rest)

/-- The other direction: what decodes is a unit of the table, of the format read, and its encoding is the bits it was
read from. So no bit pattern has two meanings (R81, R86, R92). -/
def Obligations.DecodedUnitsReencode : Prop :=
  ∀ (f : Format) (bits rest : List Bool) (i : Instr), decode f bits = .ok (i, rest) →
    i.WellFormed ∧ i.format = f ∧ encode i ++ rest = bits

/-- Words written out from the spec's encodings: the entry words 0, 0x02ABCDEF (R101's example), 0x01FFFF00 (P1),
0x00800000, 0xFF123456 (V10); the command bytes 0x01, 0x80, 0x83; the raw byte 0xAA; the codes 1 0101 and
0 01011010 (R171 to R173). -/
def Obligations.SpecWordsDecode : Prop :=
  decodeEntry 0x00000000 = .entZero ∧ decodeEntry 0x00800000 = .entNeg 0x800000 ∧
  decodeEntry 0x01FFFF00 = .entRle 0xFFFF00 ∧ decodeEntry 0x02ABCDEF = .entBitpack 0xABCDEF ∧
  decodeEntry 0xFF123456 = .entBadMode 0xFF 0x123456 ∧
  decodeCmd 0x01 = .rleLit 0x01 ∧ decodeCmd 0x80 = .rleNop ∧ decodeCmd 0x83 = .rleRep 0x83 ∧
  decode .raw8 [true, false, true, false, true, false, true, false] = .ok (.negByte 0xAA, []) ∧
  decode .code [true, false, true, false, true] = .ok (.m2Hit 5, []) ∧
  decode .code [false, false, true, false, true, true, false, true, false] = .ok (.m2Lit 0x5A, [])

/-- The CMD8 space is total (R81): each command byte is exactly one of a literal, the no-op or a repeat, and there
are 128, 1 and 127 of them. The spec marks the totality as its own inference, from R78 to R80. -/
def Obligations.CommandBytesClassified : Prop :=
  (∀ c : Byte, (c.toNat ≤ 0x7F → decodeCmd c = .rleLit c) ∧ (c = 0x80 → decodeCmd c = .rleNop) ∧
    (0x81 ≤ c.toNat → decodeCmd c = .rleRep c)) ∧
  ((List.range 256).countP fun n => decide (decodeCmd (BitVec.ofNat 8 n) = .rleLit (BitVec.ofNat 8 n))) = 128 ∧
  ((List.range 256).countP fun n => decide (decodeCmd (BitVec.ofNat 8 n) = .rleNop)) = 1 ∧
  ((List.range 256).countP fun n => decide (decodeCmd (BitVec.ofNat 8 n) = .rleRep (BitVec.ofNat 8 n))) = 127

/-- The entry word's fields and its unit, in the match order of R92 (R71, R72, R75, R88). -/
def Obligations.EntryWordsClassified : Prop :=
  ∀ w : Word, (entryMode w).toNat = w.toNat / 2 ^ 24 ∧ (entryRaw w).toNat = w.toNat % 2 ^ 24 ∧
    (3 ≤ (entryMode w).toNat → decodeEntry w = .entBadMode (entryMode w) (entryRaw w)) ∧
    (w = 0 → decodeEntry w = .entZero) ∧
    (entryMode w = 0 → entryRaw w ≠ 0 → decodeEntry w = .entNeg (entryRaw w)) ∧
    (entryMode w = 1 → decodeEntry w = .entRle (entryRaw w)) ∧
    (entryMode w = 2 → decodeEntry w = .entBitpack (entryRaw w))

/-- Sign extension from 24 bits (R74): its two cases, its range, that it is a bijection onto that range, its other
form, and the source's two values. The bijection is the spec's own inference. -/
def Obligations.SignExtensionOf24Bits : Prop :=
  (∀ v : BitVec 24, v.toNat < 0x800000 → sext24 v = v.toNat) ∧
  (∀ v : BitVec 24, 0x800000 ≤ v.toNat → sext24 v = v.toNat - 0x1000000) ∧
  (∀ v : BitVec 24, -8388608 ≤ sext24 v ∧ sext24 v ≤ 8388607) ∧
  (∀ u v : BitVec 24, sext24 u = sext24 v → u = v) ∧
  (∀ x : Int, -8388608 ≤ x → x ≤ 8388607 → ∃ v : BitVec 24, sext24 v = x) ∧
  (∀ v : BitVec 24, sext24 v = 0 ↔ v = 0) ∧
  (∀ v : BitVec 24, sext24 v = (v.toNat : Int) - (if v.getLsbD 23 then 2 ^ 24 else 0)) ∧
  sext24 0x800000 = -8388608 ∧ sext24 0x7FFFFF = 8388607

/-! ### START (40_entry_resolve.md, 41_mode0.md, 60_exceptions.md) -/

/-- ZERO (R120): whatever the ROM and the data base, START on the word 0 completes at once with 512 zero bytes; SRC
is not written, and no fault is recorded. ENDOFF = 0 is the spec's own decision D12. -/
def Obligations.EntZeroGivesZeroBlock : Prop :=
  ∀ (s : State) (base : Nat), StartReady s base →
    ∃ t, exec .entZero s = .next t ∧ t.ctrl = .done ∧ (∀ j, j < 512 → t.outAt j = some 0x00) ∧
      t.ocnt = some 512 ∧ t.endoff = some 0 ∧ t.src = none ∧ t.iptr = none ∧ t.bptr = none ∧
      t.mode = some 0 ∧ t.offset = some 0 ∧ (∀ k, t.dictAt k = none) ∧ t.dictValid = false ∧
      NoFaultRecorded t ∧ KeepsInputs s t

/-- UnsupportedBlockMode (R211, R103): a mode byte of 3 to 255 faults at START; MODE keeps the byte, FADDR is 0, and no
ROM byte is read: another ROM gives the same fault. -/
def Obligations.EntBadModeFaults : Prop :=
  ∀ (m : Byte) (raw : BitVec 24) (s : State) (base : Nat), 3 ≤ m.toNat → StartReady s base →
    ∃ t, exec (.entBadMode m raw) s = .next t ∧ t.ctrl = .fault ∧ t.fkind = .unsupportedBlockMode ∧
      t.fcause = .noCause ∧ t.faddr = 0 ∧ t.mode = some m ∧ t.offset = some (sext24 raw) ∧
      KeepsInputs s t ∧ ∀ r : Rom, exec (.entBadMode m raw) { s with rom := r } = .next { t with rom := r }

/-- START on a mode 0, 1 or 2 word whose storage starts inside the ROM enters BUSY there (R101, R102, R105, R107), all
results of an earlier decode cleared (R100). -/
def Obligations.StartBeginsDecode : Prop :=
  ∀ (i : Instr) (m : Byte) (raw : BitVec 24) (s : State) (base : Nat),
    (i = .entNeg raw ∧ m = 0 ∨ i = .entRle raw ∧ m = 1 ∨ i = .entBitpack raw ∧ m = 2) → i.WellFormed →
    StartReady s base → 0 ≤ (base : Int) + sext24 raw → (base : Int) + sext24 raw < s.rom.len →
    ∃ t, exec i s = .next t ∧ t.ctrl = .busy ∧ t.mode = some m ∧ t.offset = some (sext24 raw) ∧
      t.src = some (base + sext24 raw) ∧ t.iptr = some ((base : Int) + sext24 raw).toNat ∧ t.bptr = some 0 ∧
      t.ocnt = some 0 ∧ NothingProduced t ∧ NoFaultRecorded t ∧ KeepsInputs s t

/-- START_OUTSIDE (R106, R212): START on a mode 0, 1 or 2 word faults exactly when the exact sum SRC is outside the
ROM, and then records SRC, which may be negative. -/
def Obligations.StorageOutsideRomFaults : Prop :=
  ∀ (i : Instr) (raw : BitVec 24) (s : State) (base : Nat),
    (i = .entNeg raw ∨ i = .entRle raw ∨ i = .entBitpack raw) → i.WellFormed → StartReady s base →
    ∃ t, exec i s = .next t ∧ t.src = some (base + sext24 raw) ∧
      (t.ctrl = .fault ↔ (base : Int) + sext24 raw < 0 ∨ (s.rom.len : Int) ≤ base + sext24 raw) ∧
      (t.ctrl = .fault → t.fkind = .outOfBounds ∧ t.fcause = .startOutside ∧ t.faddr = base + sext24 raw ∧
        KeepsInputs s t)

/-- START is refused in BUSY, and where ENTRY or DATA_BASE holds no value, before any other check (R100, R220).
START's legality is the spec's own decision D14. -/
def Obligations.StartRefusedWhereIllegal : Prop :=
  ∀ (i : Instr) (s : State), i.format = .entry32 →
    (s.ctrl = .busy → exec i s = .refused .startWhileBusy) ∧
    (s.ctrl ≠ .busy → s.entry = none → exec i s = .refused (.startWithoutInput .entry)) ∧
    (s.ctrl ≠ .busy → s.entry ≠ none → s.dataBase = none →
      exec i s = .refused (.startWithoutInput .dataBase)) ∧
    (s.host.head? = some .start → s.entry = none → step s = .refused (.startWithoutInput .entry))

/-- What START leaves of an earlier decode (R100, R111, R217): the inputs stay; a START that begins a decode leaves nothing
produced, and one that does not fault leaves no fault recorded; a START that faults writes MODE, OFFSET, SRC, the fault
registers and STATE only, all other registers keeping their values from before it. That ENDOFF is among those is the
model's reading of R217 (DEDUCED, log 7). What START clears is the spec's own decision D14. -/
def Obligations.StartClearsEarlierDecode : Prop :=
  ∀ (i : Instr) (s t : State), i.format = .entry32 → exec i s = .next t →
    KeepsInputs s t ∧ (t.ctrl = .busy → NothingProduced t) ∧ (t.ctrl ≠ .fault → NoFaultRecorded t) ∧
    (t.ctrl = .fault → t = { s with
      mode := t.mode, offset := t.offset, src := t.src, ctrl := .fault, fkind := t.fkind, fcause := t.fcause
      faddr := t.faddr })

/-- Independence (R111): what START answers depends on the inputs alone, not on what an earlier decode left: from two
states with the same inputs it is refused alike, or it ends in the same state, or it faults alike, with the same result
observed, fault registers, MODE, OFFSET and SRC. (What it leaves untouched in a fault is R217's, log 7.) What START clears
is the spec's own decision D14. -/
def Obligations.StartForgetsEarlierDecode : Prop :=
  ∀ (i : Instr) (s₁ s₂ : State), i.format = .entry32 → s₁.ctrl ≠ .busy → s₂.ctrl ≠ .busy →
    KeepsInputs s₁ s₂ →
    (∀ r, exec i s₁ = .refused r → exec i s₂ = .refused r) ∧
    (∀ t₁, exec i s₁ = .next t₁ → ∃ t₂, exec i s₂ = .next t₂ ∧ observe t₂ = observe t₁ ∧ t₂.ctrl = t₁.ctrl ∧
      KeepsFaultRegs t₁ t₂ ∧ KeepsResolution t₁ t₂ ∧ (t₁.ctrl ≠ .fault → t₂ = t₁))

/-- The post-condition of resolution (R112): a START on the entry word `w` that ends in BUSY or DONE has a mode of 0, 1
or 2 in MODE and the source's signed offset in OFFSET, both taken from `w`. -/
def Obligations.ResolvedModeAndOffset : Prop :=
  ∀ (s t : State) (w : Word), exec (decodeEntry w) s = .next t → t.ctrl = .busy ∨ t.ctrl = .done →
    (entryMode w).toNat ≤ 2 ∧ t.mode = some (entryMode w) ∧ t.offset = some (sext24 (entryRaw w))

/-! ### Mode 0 (41_mode0.md) -/

/-- NEG_BYTE (R121, R122): OUT[OCNT] is (0 - b) mod 256, IPTR and OCNT go up by one, ENDOFF is 512 at the 512th
byte, and nothing else changes. ENDOFF is the spec's own decision D12. -/
def Obligations.NegByteResult : Prop :=
  ∀ (b : Byte) (s : State) (p n : Nat), InStep .neg s → s.iptr = some p → s.ocnt = some n → n < 512 →
    ∃ t, exec (.negByte b) s = .next t ∧
      t = { s with
        out := t.out, ocnt := some (n + 1), iptr := some (p + 1), endoff := t.endoff, ctrl := t.ctrl } ∧
      Outputs n [BitVec.ofNat 8 ((256 - b.toNat) % 256)] s t ∧ Completes 512 s t

/-- A mode-0 step performs NEG_BYTE on the byte at IPTR, or faults with BYTE_PAST_END there (R108, R121, R213). The
cause is the spec's own decision D7. -/
def Obligations.ModeZeroStepReads : Prop :=
  ∀ (s : State) (p : Nat), Stepping .neg s → s.iptr = some p →
    (∀ b, romByte s.rom p = some b → step s = exec (.negByte b) (takeCommand s)) ∧
    (romByte s.rom p = none → step s = .next { s with
      host := s.host.tail, ctrl := .fault, fkind := .outOfBounds, fcause := .bytePastEnd, faddr := p })

/-! ### Mode 1 (42_mode1_rle.md) -/

/-- RLE_NOP (R141): IPTR goes up by one and nothing else changes. -/
def Obligations.RleNopResult : Prop :=
  ∀ (s : State) (p : Nat), InStep .rle s → s.iptr = some p →
    exec .rleNop s = .next { s with iptr := some (p + 1) }

/-- RLE_LIT (R142, R144): the `c + 1` payload bytes are output verbatim, IPTR passes them, and a block that is full
is DONE with ENDOFF = IPTR - SRC; nothing else changes. (Where IPTR lies before SRC, which no run reaches, ENDOFF is
0: DESIGN CHOICE, log 14.) ENDOFF is the spec's own decision D12, and that the block ends with the command that
fills it D9. -/
def Obligations.RleLitResult : Prop :=
  ∀ (c : Byte) (s : State) (a : Int) (p n : Nat) (bs : List Byte), c.toNat ≤ 0x7F → InStep .rle s →
    s.src = some a → s.iptr = some p → s.ocnt = some n → n + (c.toNat + 1) ≤ 512 →
    bs.length = c.toNat + 1 → RomHolds s.rom (p + 1) bs →
    ∃ t, exec (.rleLit c) s = .next t ∧
      t = { s with
        out := t.out, ocnt := some (n + (c.toNat + 1)), iptr := some (p + 1 + (c.toNat + 1))
        endoff := t.endoff, ctrl := t.ctrl } ∧
      Outputs n bs s t ∧ Completes (((p + 1 + (c.toNat + 1) : Nat) : Int) - a).toNat s t

/-- RLE_REP (R143, R144): `257 - c` copies of the value byte are output, IPTR goes up by two, and a block that is
full is DONE with ENDOFF = IPTR - SRC (log 14 as above); nothing else changes. ENDOFF is the spec's own decision
D12, and that the block ends with the command that fills it D9. -/
def Obligations.RleRepResult : Prop :=
  ∀ (c v : Byte) (s : State) (a : Int) (p n : Nat), 0x81 ≤ c.toNat → InStep .rle s →
    s.src = some a → s.iptr = some p → s.ocnt = some n → n + (257 - c.toNat) ≤ 512 →
    romByte s.rom (p + 1) = some v →
    ∃ t, exec (.rleRep c) s = .next t ∧
      t = { s with
        out := t.out, ocnt := some (n + (257 - c.toNat)), iptr := some (p + 2), endoff := t.endoff
        ctrl := t.ctrl } ∧
      Outputs n (List.replicate (257 - c.toNat) v) s t ∧ Completes (((p + 2 : Nat) : Int) - a).toNat s t

/-- Overshoot (R145, R215): a literal or repeat command whose run would take OCNT past 512 faults with RUN_OVERFLOW
at its own address, whatever its operands, and no byte of it is output. The fault, and its order before the operand
reads, are the spec's own decision D10. -/
def Obligations.RunOverflowFaults : Prop :=
  ∀ (i : Instr) (c : Byte) (len : Nat) (s : State) (p n : Nat),
    (i = .rleLit c ∧ c.toNat ≤ 0x7F ∧ len = c.toNat + 1 ∨ i = .rleRep c ∧ 0x81 ≤ c.toNat ∧ len = 257 - c.toNat) →
    InStep .rle s → s.src ≠ none → s.iptr = some p → s.ocnt = some n → 512 < n + len →
    exec i s = .next { s with
      ctrl := .fault, fkind := .outOfBounds, fcause := .runOverflow, faddr := p }

/-- An operand byte past the end (R142, R143, R213, R221): where the run fits, the first operand address that names
no byte is the fault's, and the step is discarded whole. That a run which fits is checked first is the spec's own
decision D10. -/
def Obligations.OperandPastEndFaults : Prop :=
  ∀ (i : Instr) (c : Byte) (len operands k : Nat) (s : State) (p n : Nat),
    (i = .rleLit c ∧ c.toNat ≤ 0x7F ∧ len = c.toNat + 1 ∧ operands = c.toNat + 1 ∨
      i = .rleRep c ∧ 0x81 ≤ c.toNat ∧ len = 257 - c.toNat ∧ operands = 1) →
    InStep .rle s → s.src ≠ none → s.iptr = some p → s.ocnt = some n → n + len ≤ 512 →
    k < operands → romByte s.rom (p + 1 + k) = none →
    (∀ j : Nat, j < k → romByte s.rom (p + 1 + j) ≠ none) →
    exec i s = .next { s with
      ctrl := .fault, fkind := .outOfBounds, fcause := .bytePastEnd, faddr := p + 1 + k }

/-- The RLE command step (R140): the byte at IPTR selects the no-op, a literal or a repeat, the no-op tested before
the repeat class; a command byte past the end faults with BYTE_PAST_END at IPTR. -/
def Obligations.RleStepReads : Prop :=
  ∀ (s : State) (p : Nat), Stepping .rle s → s.iptr = some p →
    (∀ c, romByte s.rom p = some c →
      (c = 0x80 → step s = exec .rleNop (takeCommand s)) ∧
      (c.toNat ≤ 0x7F → step s = exec (.rleLit c) (takeCommand s)) ∧
      (0x81 ≤ c.toNat → step s = exec (.rleRep c) (takeCommand s))) ∧
    (romByte s.rom p = none → step s = .next { s with
      host := s.host.tail, ctrl := .fault, fkind := .outOfBounds, fcause := .bytePastEnd, faddr := p })

/-! ### Mode 2 (43_mode2_bitpacked.md, 44_bitstream_reader.md) -/

/-- DICT_LOAD (R170): DICT holds the 16 bytes in order, DICT_VALID is 1, and nothing else changes. That the load is
a step of its own is the spec's decision D8. -/
def Obligations.DictLoadResult : Prop :=
  ∀ (d : Vector Byte 16) (s : State), InStep .dictLoad s →
    ∃ t, exec (.dictLoad d) s = .next t ∧ t = { s with dict := t.dict, dictValid := true } ∧
      ∀ k, t.dictAt k = d.toList[k]?

/-- The dictionary-load step (R108, R170): it loads the 16 bytes from SRC up, or faults with BYTE_PAST_END at the
first of them that names no byte. That the load is a step of its own is the spec's decision D8; the cause is D7. -/
def Obligations.DictStepReads : Prop :=
  ∀ (s : State) (a : Int), Stepping .dictLoad s → s.src = some a →
    (∀ d : Vector Byte 16, RomHolds s.rom a d.toList → step s = exec (.dictLoad d) (takeCommand s)) ∧
    (∀ k : Nat, k < 16 → romByte s.rom (a + k) = none → (∀ j : Nat, j < k → romByte s.rom (a + j) ≠ none) →
      step s = .next { s with
        host := s.host.tail, ctrl := .fault, fkind := .outOfBounds, fcause := .bytePastEnd, faddr := a + k })

/-- M2_HIT (R172, R174): OUT[OCNT] is DICT[i], OCNT goes up by one and BPTR by five, ENDOFF is byteOffset() at the
512th code, and nothing else changes. ENDOFF is the spec's own decision D12. -/
def Obligations.HitCodeResult : Prop :=
  ∀ (i : BitVec 4) (b : Byte) (s : State) (p n : Nat), InStep .code s → s.dictAt i.toNat = some b →
    s.bptr = some p → s.ocnt = some n → n < 512 →
    ∃ t, exec (.m2Hit i) s = .next t ∧
      t = { s with
        out := t.out, ocnt := some (n + 1), bptr := some (p + 5), endoff := t.endoff, ctrl := t.ctrl } ∧
      Outputs n [b] s t ∧ Completes ((p + 5 + 7) / 8) s t

/-- M2_LIT (R173, R174): OUT[OCNT] is the literal byte, OCNT goes up by one and BPTR by nine, ENDOFF is byteOffset()
at the 512th code, and nothing else changes. ENDOFF is the spec's own decision D12. -/
def Obligations.LiteralCodeResult : Prop :=
  ∀ (b : Byte) (s : State) (p n : Nat), InStep .code s → s.bptr = some p → s.ocnt = some n → n < 512 →
    ∃ t, exec (.m2Lit b) s = .next t ∧
      t = { s with
        out := t.out, ocnt := some (n + 1), bptr := some (p + 9), endoff := t.endoff, ctrl := t.ctrl } ∧
      Outputs n [b] s t ∧ Completes ((p + 9 + 7) / 8) s t

/-- The CODE step (R171): the flag bit 1 performs a hit with the next `bits(4)`, the flag 0 a literal with the next
`bits(8)`; a fault at any of the bits is the step's only effect. -/
def Obligations.CodeStepReads : Prop :=
  ∀ (s : State) (a : Int) (p : Nat), Stepping .code s → s.src = some a → s.bptr = some p →
    (∀ q v r, readBit s.rom (bitBase a) p = .ok (true, q) → readBits s.rom (bitBase a) 4 q = .ok (v, r) →
      step s = exec (.m2Hit (BitVec.ofNat 4 v)) (takeCommand s)) ∧
    (∀ q v r, readBit s.rom (bitBase a) p = .ok (false, q) → readBits s.rom (bitBase a) 8 q = .ok (v, r) →
      step s = exec (.m2Lit (BitVec.ofNat 8 v)) (takeCommand s)) ∧
    (∀ f, (readBit s.rom (bitBase a) p = .error f ∨
        (∃ q, readBit s.rom (bitBase a) p = .ok (true, q) ∧ readBits s.rom (bitBase a) 4 q = .error f) ∨
        (∃ q, readBit s.rom (bitBase a) p = .ok (false, q) ∧ readBits s.rom (bitBase a) 8 q = .error f)) →
      step s = .next { s with
        host := s.host.tail, ctrl := .fault, fkind := f.kind, fcause := f.cause, faddr := f.addr })

/-- BIT_PAST_END (R171 to R173, R214): a code any of whose bits lies past the stream's end faults with the address
ROM_LEN, and the whole step is discarded. The stream's length is the spec's own decision D11. -/
def Obligations.CodePastEndFaults : Prop :=
  ∀ (s : State) (a p : Nat), Stepping .code s → s.src = some (a : Int) → s.bptr = some p → a + 16 ≤ s.rom.len →
    p ≤ 8 * (s.rom.len - (a + 16)) →
    (p = 8 * (s.rom.len - (a + 16)) ∨
      (∃ q, readBit s.rom (bitBase a) p = .ok (true, q) ∧ 8 * (s.rom.len - (a + 16)) < p + 5) ∨
      (∃ q, readBit s.rom (bitBase a) p = .ok (false, q) ∧ 8 * (s.rom.len - (a + 16)) < p + 9)) →
    step s = .next { s with
      host := s.host.tail, ctrl := .fault, fkind := .outOfBounds, fcause := .bitPastEnd, faddr := s.rom.len }

/-- `bit()` (R191): the bit `7 - (BPTR mod 8)` of the byte `BB + (BPTR div 8)`, most significant first, and the cursor one
further; past the buffer's bit length, the fault BIT_PAST_END, at ROM_LEN where the cursor is at the end. -/
def Obligations.BitReadsMostSignificantFirst : Prop :=
  ∀ (m : Rom) (bb : Int) (p : Nat),
    (8 * ((m.len : Int) - bb) ≤ p →
      readBit m bb p = .error ⟨.outOfBounds, .bitPastEnd, bb + (p / 8 : Nat)⟩) ∧
    ((p : Int) = 8 * ((m.len : Int) - bb) → bb + (p / 8 : Nat) = m.len) ∧
    ((p : Int) < 8 * ((m.len : Int) - bb) → 0 ≤ bb →
      ∃ b, romByte m (bb + (p / 8 : Nat)) = some b ∧ readBit m bb p = .ok (b.toNat.testBit (7 - p % 8), p + 1))

/-- `bits(n)` (R192): `bits(0)` is 0 and reads nothing; one more bit makes `2 * acc + bit()`; a fault at any bit is
the fault of the whole; the value is below `2 ^ n`, and the cursor has moved `n`. That `bits(0)` is 0 is the spec's
own inference. -/
def Obligations.BitsAccumulateFirstBitHighest : Prop :=
  ∀ (m : Rom) (bb : Int) (n p : Nat),
    readBits m bb 0 p = .ok (0, p) ∧
    (∀ v q, readBits m bb n p = .ok (v, q) → v < 2 ^ n ∧ q = p + n ∧
      (∀ b r, readBit m bb q = .ok (b, r) → readBits m bb (n + 1) p = .ok (2 * v + b.toNat, r)) ∧
      (∀ f, readBit m bb q = .error f → readBits m bb (n + 1) p = .error f)) ∧
    (∀ f, readBits m bb n p = .error f → readBits m bb (n + 1) p = .error f)

/-- `byteOffset()` (R193): the least number of whole bytes that hold BPTR bits. -/
def Obligations.ByteOffsetIsCeiling : Prop :=
  (∀ p : Nat, byteOffset p = (p + 7) / 8 ∧ p ≤ 8 * byteOffset p ∧ 8 * byteOffset p < p + 8) ∧
  byteOffset 0 = 0 ∧ byteOffset 1 = 1 ∧ byteOffset 8 = 1 ∧ byteOffset 9 = 2 ∧ byteOffset 2564 = 321

/-! ### The step -/

/-- A step runs the unit it read by `exec`, on the state with the host's command taken off; START's unit is the one
ENTRY decodes to; on the engine's turn the unit is the engine's; any other host command is its access. That the
host's commands stand in a list, one action a step, is the model's own (DESIGN CHOICE, log 4). -/
def Obligations.StepRunsDecodedUnit : Prop :=
  (∀ (s : State) (i : Instr), fetch s = .unit i → step s = exec i (takeCommand s)) ∧
  (∀ (s : State) (w : Word) (q : List HostCmd), s.host = .start :: q → s.entry = some w →
    step s = exec (decodeEntry w) { s with host := q }) ∧
  (∀ s : State, EngineTurn s → fetch s = fetchStep s) ∧
  (∀ (s : State) (op : PortOp) (q : List HostCmd), s.host = .port op :: q →
    step s = hostAccess op { s with host := q })

/-- The unit an engine step performs is a unit of the table, and its encoding is what the ROM holds at the decode's own
place: the byte at IPTR, the 16 bytes at SRC, or the bits at BPTR (R55, R76, R82, R83, R108). -/
def Obligations.FetchedUnitStandsInRom : Prop :=
  ∀ (s : State) (i : Instr), EngineTurn s → fetch s = .unit i →
    s.ctrl = .busy ∧ i.WellFormed ∧ i.format ≠ .entry32 ∧
    (i.format = .raw8 ∨ i.format = .cmd8 →
      ∃ p : Nat, s.iptr = some p ∧ romByte s.rom p = some (byteOfBits (encode i))) ∧
    (i.format = .dict16 → ∃ a, s.src = some a ∧ RomHolds s.rom a (bytesOfBits 16 (encode i))) ∧
    (i.format = .code → ∃ a p, s.src = some a ∧ s.bptr = some p ∧
      readBitList s.rom (bitBase a) i.bitLength p = .ok (encode i, p + i.bitLength))

/-- A decode step's unit has no meaning where MODE and DICT_VALID do not select its step, or STATE is not BUSY (R108;
DEDUCED, log 13). -/
def Obligations.UnitsRefusedOutsideTheirStep : Prop :=
  ∀ s : State,
    (¬InStep .neg s → ∀ b, exec (.negByte b) s = .refused .notEnabled) ∧
    (¬InStep .rle s → exec .rleNop s = .refused .notEnabled ∧
      ∀ c, exec (.rleLit c) s = .refused .notEnabled ∧ exec (.rleRep c) s = .refused .notEnabled) ∧
    (¬InStep .dictLoad s → ∀ d, exec (.dictLoad d) s = .refused .notEnabled) ∧
    (¬InStep .code s → ∀ i b, exec (.m2Hit i) s = .refused .notEnabled ∧ exec (.m2Lit b) s = .refused .notEnabled)

/-- In any state but BUSY the engine has no step (R25, R108): on its turn nothing changes but the host's list. That the
model then waits, and does not stop, is its own choice (DESIGN CHOICE, log 6). -/
def Obligations.NoStepOutsideBusy : Prop :=
  ∀ s : State, EngineTurn s → s.ctrl ≠ .busy → step s = .next { s with host := s.host.tail }

/-- The transitions of STATE (R25): its codes; START, legal outside BUSY only, leads to BUSY, DONE or FAULT; an
engine step in BUSY leads to BUSY, DONE or FAULT; reset leads to IDLE; no other transition exists. The codes are the
spec's own decision D5; that a step without an engine step waits is the model's (log 6). -/
def Obligations.StateTransitionsLegal : Prop :=
  (Ctrl.idle.code = 0 ∧ Ctrl.busy.code = 1 ∧ Ctrl.done.code = 2 ∧ Ctrl.fault.code = 3) ∧
  ∀ s t : State, step s = .next t →
    (EngineTurn s → s.ctrl = .busy → t.ctrl ≠ .idle) ∧
    (EngineTurn s → s.ctrl ≠ .busy → t.ctrl = s.ctrl) ∧
    (s.host.head? = some .start → s.ctrl ≠ .busy ∧ t.ctrl ≠ .idle) ∧
    (s.host.head? = some (.port .reset) → t.ctrl = .idle) ∧
    (∀ op, op ≠ .reset → s.host.head? = some (.port op) → t.ctrl = s.ctrl)

/-! ### Faults (60_exceptions.md) -/

/-- Faults of a decode step are precise (R11, R217, R218): the state in FAULT is the state before the step with the fault
registers and STATE written, and the engine has no step after it. That the model's step then waits, changing nothing but
the host's list, is its own choice (DESIGN CHOICE, log 6), as is the list (log 4). -/
def Obligations.DecodeFaultsArePrecise : Prop :=
  ∀ s t : State, EngineTurn s → s.ctrl = .busy → step s = .next t → t.ctrl = .fault →
    t = { s with
      host := s.host.tail, ctrl := .fault, fkind := t.fkind, fcause := t.fcause, faddr := t.faddr } ∧
    (EngineTurn t → step t = .next { t with host := t.host.tail })

/-- Which fault a decode step can raise (R210, R213 to R215, R222): BYTE_PAST_END at ROM_LEN, BIT_PAST_END at
ROM_LEN in mode 2 with the dictionary loaded, or RUN_OVERFLOW at the command's address in mode 1. The causes and
addresses are the spec's own decisions D5, D7 and D10. -/
def Obligations.DecodeFaultTable : Prop :=
  ∀ s t : State, Inv s → EngineTurn s → s.ctrl = .busy → step s = .next t → t.ctrl = .fault →
    t.fkind = .outOfBounds ∧
    ((t.fcause = .bytePastEnd ∧ t.faddr = s.rom.len ∧ ¬InStep .code s) ∨
      (t.fcause = .bitPastEnd ∧ t.faddr = s.rom.len ∧ InStep .code s) ∨
      (t.fcause = .runOverflow ∧ InStep .rle s ∧ ∃ p : Nat, s.iptr = some p ∧ t.faddr = p))

/-- Internal is unreachable (R216): in BUSY the mode is 0, 1 or 2, an engine step leaves MODE as it is, and no step
raises Internal. The spec marks it as its own inference, and the code as decision D24; the catch-all arm is log 25. -/
def Obligations.InternalIsUnreachable : Prop :=
  ∀ s : State, Inv s →
    (s.ctrl = .busy → ∃ m : Byte, s.mode = some m ∧ stepKind m s.dictValid ≠ .internal) ∧
    ∀ t, step s = .next t → t.fkind ≠ .internal ∧ (EngineTurn s → t.mode = s.mode)

/-! ### Invariants and frames -/

/-- The invariant holds at reset (R40, R250). R40 is the spec's own inference. -/
def Obligations.InvariantAtReset : Prop :=
  Inv State.reset

/-- The invariant of R40, with SRC inside the ROM in BUSY and DONE (R28), the ROM's canonical form and what the status
registers say of each other, is kept by every step: the host's and the engine's. And under it the engine's own step is never
refused: no rule of the engine reads a register or byte that holds no value (R13, R40). R40, R28's range and R13's last
sentence are the spec's own inferences; that SRC stays inside the ROM in DONE rests on loads keeping ROM_LEN (DEDUCED, log
8), and an engine's turn without an enabled step waits (DESIGN CHOICE, log 6). -/
def Obligations.StepKeepsInvariant : Prop :=
  (∀ s t : State, Inv s → step s = .next t → Inv t) ∧
  ∀ s : State, Inv s → EngineTurn s → ∃ t, step s = .next t

/-- The frame of the decode steps' units NEG_BYTE, RLE_LIT, RLE_NOP, RLE_REP, DICT_LOAD, M2_HIT, M2_LIT: the inputs,
every ROM byte, MODE, OFFSET and SRC stay; the fault registers stay unless the unit faults; the dictionary stays but for
DICT_LOAD; each cursor stays but in the modes that use it; bytes already output stay (R28 to R34, R51, R59). -/
def Obligations.DecodeUnitFrame : Prop :=
  ∀ (i : Instr) (s t : State), i.format ≠ .entry32 → exec i s = .next t →
    KeepsInputs s t ∧ KeepsResolution s t ∧ (∀ a, romByte t.rom a = romByte s.rom a) ∧
    (t.ctrl ≠ .fault → KeepsFaultRegs s t) ∧ (i.format ≠ .dict16 → KeepsDict s t) ∧
    (i.format = .dict16 ∨ i.format = .code → t.iptr = s.iptr) ∧ (i.format ≠ .code → t.bptr = s.bptr) ∧
    (i = .rleNop ∨ i.format = .dict16 →
      t.out = s.out ∧ t.ocnt = s.ocnt ∧ t.endoff = s.endoff ∧ t.ctrl = s.ctrl) ∧
    (∀ n j, s.ocnt = some n → j < n → t.outAt j = s.outAt j)

/-- The cursors and the output count only go up, and BPTR by a code's own bits (R29 to R31, R42, R194). The spec
marks R42 and R194 as its own inferences. -/
def Obligations.CursorsOnlyAdvance : Prop :=
  ∀ (i : Instr) (s t : State), i.format ≠ .entry32 → exec i s = .next t →
    (∀ p, s.iptr = some p → ∃ q, t.iptr = some q ∧ p ≤ q) ∧
    (∀ n, s.ocnt = some n → ∃ k, t.ocnt = some k ∧ n ≤ k) ∧
    (∀ b, s.bptr = some b → t.bptr = some (if i.format = .code then b + i.bitLength else b))

/-! ### Reset and the host (10_state.md, 70_reset_and_hazards.md) -/

/-- Reset (R250): every register at its reset value, STATUS reads 0; reset is legal in any state, leaves the ROM,
and after it the engine takes no step until START. Reset is the spec's own decision D17; that the machine then waits
is the model's (log 6). -/
def Obligations.ResetRegisters : Prop :=
  (∀ s : State, ∃ t, hostAccess .reset s = .next t ∧ t.rom = s.rom) ∧
  ∀ s t : State, t = State.reset ∨ hostAccess .reset s = .next t →
    t.ctrl = .idle ∧ NoFaultRecorded t ∧ NothingProduced t ∧ statusWord t = 0 ∧ t.entry = none ∧
    t.dataBase = none ∧ t.mode = none ∧ t.offset = none ∧ t.src = none ∧ t.iptr = none ∧ t.bptr = none ∧
    t.ocnt = none ∧ (EngineTurn t → step t = .next { t with host := t.host.tail })

/-- The host's writes (R23, R24, R41(a), R51): ENTRY, DATA_BASE and the ROM are written outside BUSY and nothing
else changes; in BUSY each is refused. The rights are the spec's own decisions D14 and D19. That the ROM is loaded in every
state but BUSY, and that an image of another length than ROM_LEN is refused once a ROM is there, is the model's reading
(DEDUCED, log 8). -/
def Obligations.HostWritesInputs : Prop :=
  ∀ (s : State) (w : Word) (n : Nat) (image : List Byte),
    (s.ctrl ≠ .busy → hostAccess (.writeEntry w) s = .next { s with entry := some w } ∧
      hostAccess (.writeDataBase n) s = .next { s with dataBase := some n } ∧
      (s.rom.admits image.length → hostAccess (.loadRom image) s = .next { s with rom := Rom.ofBytes image }) ∧
      (¬s.rom.admits image.length → hostAccess (.loadRom image) s = .refused .romLengthFixed)) ∧
    (s.ctrl = .busy → hostAccess (.writeEntry w) s = .refused (.writeWhileBusy .entry) ∧
      hostAccess (.writeDataBase n) s = .refused (.writeWhileBusy .dataBase) ∧
      hostAccess (.loadRom image) s = .refused .romWriteWhileBusy)

/-- The host's reads (R13, R22, R41(b) to (e), R255): a read changes nothing but what the host has seen; STATE and the
fault registers read at any time; MODE, OFFSET and SRC where they hold a value; OUT and ENDOFF in DONE only; ENTRY and
DATA_BASE outside BUSY where they hold a value; IPTR, BPTR, OCNT, DICT and DICT_VALID never. That a read of ENTRY or
DATA_BASE in BUSY is refused is the model's reading of R22 (DEDUCED, log 9). The rights are the spec's own decisions D4,
D14, D19 and D21; where the read value stands is log 5. -/
def Obligations.HostReadsByRights : Prop :=
  ∀ s : State,
    (∀ r v, readReg r s = .ok v → hostAccess (.read r) s = .next { s with hostData := some v }) ∧
    (∀ r e, readReg r s = .error e → hostAccess (.read r) s = .refused e) ∧
    readReg .state s = .ok s.ctrl.code ∧ readReg .fkind s = .ok s.fkind.code ∧
    readReg .fcause s = .ok s.fcause.code ∧ readReg .faddr s = .ok s.faddr ∧
    (∀ m, s.mode = some m → readReg .mode s = .ok m.toNat) ∧ (∀ o, s.offset = some o → readReg .offset s = .ok o) ∧
    (∀ a, s.src = some a → readReg .src s = .ok a) ∧
    (s.mode = none → readReg .mode s = .error (.noValue .mode)) ∧
    (s.offset = none → readReg .offset s = .error (.noValue .offset)) ∧
    (s.src = none → readReg .src s = .error (.noValue .src)) ∧
    (∀ (j : Fin 512) b, s.ctrl = .done → s.outAt j = some b → readReg (.out j) s = .ok b.toNat) ∧
    (∀ e : Nat, s.ctrl = .done → s.endoff = some e → readReg .endoff s = .ok e) ∧
    (s.ctrl ≠ .done → (∀ j, readReg (.out j) s = .error (.notReadableNow (.out j))) ∧
      readReg .endoff s = .error (.notReadableNow .endoff)) ∧
    (s.ctrl ≠ .busy → (∀ w : Word, s.entry = some w → readReg .entry s = .ok w.toNat) ∧
      (∀ n : Nat, s.dataBase = some n → readReg .dataBase s = .ok n) ∧
      (s.entry = none → readReg .entry s = .error (.noValue .entry)) ∧
      (s.dataBase = none → readReg .dataBase s = .error (.noValue .dataBase))) ∧
    (s.ctrl = .busy → readReg .entry s = .error (.notReadableNow .entry) ∧
      readReg .dataBase s = .error (.notReadableNow .dataBase)) ∧
    readReg .iptr s = .error (.noHostAccess .iptr) ∧ readReg .bptr s = .error (.noHostAccess .bptr) ∧
    readReg .ocnt s = .error (.noHostAccess .ocnt) ∧ readReg .dictValid s = .error (.noHostAccess .dictValid) ∧
    (∀ k, readReg (.dict k) s = .error (.noHostAccess (.dict k)))

/-- STATUS (R39): STATE in bits 1:0, FKIND in 5:4, FCAUSE in 10:8, every other bit 0; readable at any time; a write
has no effect; 0 at reset. The layout is the spec's own decision D5. -/
def Obligations.StatusWordLayout : Prop :=
  ∀ (s : State) (w : Word),
    ((statusWord s).extractLsb' 0 2).toNat = s.ctrl.code ∧ ((statusWord s).extractLsb' 2 2).toNat = 0 ∧
    ((statusWord s).extractLsb' 4 2).toNat = s.fkind.code ∧ ((statusWord s).extractLsb' 6 2).toNat = 0 ∧
    ((statusWord s).extractLsb' 8 3).toNat = s.fcause.code ∧ ((statusWord s).extractLsb' 11 21).toNat = 0 ∧
    (statusWord s).toNat = s.ctrl.code + 16 * s.fkind.code + 256 * s.fcause.code ∧
    hostAccess (.read .status) s = .next { s with hostData := some (statusWord s).toNat } ∧
    hostAccess (.writeStatus w) s = .next s ∧ statusWord State.reset = 0

/-- A loaded ROM image (R50, R251): address `k` names its byte `k`, no other address names a byte, and the memory is
in its canonical form. That the host makes the ROM available is the spec's own decision D18; its form is log 3. -/
def Obligations.LoadedRomReadsBack : Prop :=
  ∀ image : List Byte, (Rom.ofBytes image).wf = true ∧ (Rom.ofBytes image).len = image.length ∧
    (∀ k : Nat, romByte (Rom.ofBytes image) k = image[k]?) ∧
    (∀ a : Int, a < 0 → romByte (Rom.ofBytes image) a = none)

/-- An entry word taken from the ROM is big-endian, its first byte the mode (R54), and the four bytes' bits decode
to the word's unit. That the host hands the word over is the spec's own decision D20. -/
def Obligations.EntryWordIsBigEndian : Prop :=
  ∀ (m : Rom) (a : Int) (b₀ b₁ b₂ b₃ : Byte), RomHolds m a [b₀, b₁, b₂, b₃] →
    ∃ w : Word, memReadWord m a = .ok w ∧
      w.toNat = b₀.toNat * 2 ^ 24 + b₁.toNat * 2 ^ 16 + b₂.toNat * 2 ^ 8 + b₃.toNat ∧ entryMode w = b₀ ∧
      decode .entry32 (bitsOfBytes [b₀, b₁, b₂, b₃]) = .ok (decodeEntry w, [])

/-- Several engines share only the ROM (R63, R229): a step of engine `k` is the step of its own machine, which no other
engine's registers enter; the ROM is one for all of them before and after; and it stays the same one unless the step is a
ROM load with no engine BUSY (R51). That one host's load is every engine's, and is refused while any engine is BUSY, is the
model's reading (DEDUCED, log 15); that the engines step one at a time is its own (DESIGN CHOICE, log 15). -/
def Obligations.EnginesShareRom : Prop :=
  ∀ (rom : Rom) (c : Cluster) (k : Nat) (s t : State), c.shares rom → c.engines[k]? = some s → step s = .next t →
    (loadsRom s = true → c.anyBusy = true → c.stepAt k = none) ∧
    (loadsRom s = false ∨ c.anyBusy = false → ∃ rom' d, c.stepAt k = some d ∧ d.shares rom' ∧
      d.engines[k]? = some t ∧ (∀ j, j ≠ k → d.engines[j]? = (c.engines[j]?).map (setRom rom')) ∧
      (loadsRom s = false → rom' = rom))

/-! ### Blocks -/

/-- Mode-0 block result (R123). The spec marks this result as its own inference from the step rules; ENDOFF is its
decision D12. -/
def Obligations.ModeZeroBlockResult : Prop :=
  ∀ (s : State) (base : Nat) (w : Word) (src : Int), Started s base w → entryMode w = 0 → entryRaw w ≠ 0 →
    src = base + sext24 (entryRaw w) →
    (0 ≤ src → src + 512 ≤ s.rom.len → ∃ out : List Byte, out.length = 512 ∧
      DecodesWithin s 512 (.done out 512) ∧ ∀ i : Nat, i < 512 → ∃ b, romByte s.rom (src + i) = some b ∧
        out[i]? = some (BitVec.ofNat 8 ((256 - b.toNat) % 256))) ∧
    (0 ≤ src → src < s.rom.len → (s.rom.len : Int) < src + 512 →
      DecodesWithin s 512 (.fault .outOfBounds .bytePastEnd s.rom.len)) ∧
    (src < 0 ∨ (s.rom.len : Int) ≤ src → DecodesWithin s 0 (.fault .outOfBounds .startOutside src))

/-- Mode-1 block result (R146): from any storage start inside the ROM, the decode is what the command stream read
there gives, within `ROM_LEN - SRC + 1` steps (R110). The spec marks this result as its own inference from the step
rules; ENDOFF is its decision D12, the overflow fault D10. -/
def Obligations.ModeOneBlockResult : Prop :=
  ∀ (s : State) (base : Nat) (w : Word) (src : Nat), Started s base w → entryMode w = 1 →
    (src : Int) = base + sext24 (entryRaw w) → src < s.rom.len →
    DecodesWithin s (s.rom.len - src + 1) (rleBlock s.rom src (s.rom.len - src + 1) src [])

/-- Mode-2 block result (R175): from any storage start inside the ROM, the decode is what the dictionary and the
codes of the bits behind it give, within 513 steps (R110). The spec marks this result as its own inference from the
step rules; ENDOFF is its decision D12. -/
def Obligations.ModeTwoBlockResult : Prop :=
  ∀ (s : State) (base : Nat) (w : Word) (src : Nat), Started s base w → entryMode w = 2 →
    (src : Int) = base + sext24 (entryRaw w) → src < s.rom.len →
    DecodesWithin s 513 (packedBlock s.rom src)

/-- Negation is self-inverse (R124), so a block stored negated is decoded by mode 0. The spec marks it as its own
inference from R121. -/
def Obligations.NegatedBlockDecodes : Prop :=
  (∀ b : Byte, negate (negate b) = b) ∧
  ∀ (s : State) (base : Nat) (w : Word) (x : List Byte), Started s base w → entryMode w = 0 → entryRaw w ≠ 0 →
    x.length = 512 → RomHolds s.rom (base + sext24 (entryRaw w)) (x.map negate) →
    DecodesWithin s 512 (.done x 512)

/-- RLE round trip (R147): a stream of literal, repeat and no-op commands whose expansions concatenate to exactly a
512-byte block decodes to that block, whatever follows it in the ROM. The spec marks it as its own inference from
R146. -/
def Obligations.RleStreamRoundTrip : Prop :=
  ∀ (s : State) (base : Nat) (w : Word) (cmds : List AsmLine) (bytes : List Byte), Started s base w →
    entryMode w = 1 → streamBytes cmds = some bytes → (cmds.flatMap commandRun).length = 512 →
    RomHolds s.rom (base + sext24 (entryRaw w)) bytes →
    ∃ e, DecodesWithin s (s.rom.len + 1) (.done (cmds.flatMap commandRun) e)

/-- Dictionary round trip (R176): packing puts the bits first, most significant bit first, and pads the last byte with 0
bits behind them; and 16 dictionary bytes and 512 codes, hits and literals chosen freely, packed so or with any other pad
bits, decode to the bytes the codes stand for. The spec marks the round trip as its own inference from R175, and the 0 pad
bits of the notation as decision D22. -/
def Obligations.PackedStreamRoundTrip : Prop :=
  (∀ l : List Bool, ∃ pad, bitsOfBytes (packBits l) = l ++ pad ∧ pad.length < 8 ∧ ∀ b ∈ pad, b = false) ∧
  ∀ (s : State) (base : Nat) (w : Word) (d : Vector Byte 16) (codes : List Instr) (bytes : List Byte)
    (pad : List Bool), Started s base w → entryMode w = 2 → codes.length = 512 →
    (∀ i ∈ codes, i.format = .code) → bitsOfBytes bytes = codes.flatMap encode ++ pad →
    RomHolds s.rom (base + sext24 (entryRaw w)) (d.toList ++ bytes) →
    DecodesWithin s 513 (.done (codes.map (codeByte d.toList))
      (byteOffset (codes.flatMap encode).length))

/-- Every decode ends, within the bounds of R110: 512 steps after START in mode 0, 513 in mode 2, `ROM_LEN - SRC +
1` in mode 1. The spec marks the bounds as its own inference. -/
def Obligations.EveryDecodeEnds : Prop :=
  ∀ (s : State) (base : Nat) (w : Word), Started s base w →
    ∃ k t, runSteps (1 + k) s = some t ∧ (t.ctrl = .done ∨ t.ctrl = .fault) ∧
      k ≤ (if entryMode w = 0 then 512
        else if entryMode w = 1 then ((s.rom.len : Int) - (base + sext24 (entryRaw w)) + 1).toNat else 513)

/-- The machine refines the block results (R110, R120, R123, R146, R175, R211, R212, R220): for every ROM, data base
and entry word, the decode observed is the one the ROM's bytes give. The number of steps run is the model's (log
23). -/
def Obligations.DecodeIsBlockResult : Prop :=
  ∀ (rom : Rom) (base : Nat) (w : Word), decodeBlock rom base w = some (blockResult rom base w)

/-- The pseudo-instructions FILL and COPY of the notation stand for the bytes they name (R91), by command lines that
are all in range. The notation is the spec's own decision D22. -/
def Obligations.PseudoInstructionsExpand : Prop :=
  (∀ (len : Nat) (v : Byte), 1 ≤ len → len ≤ 512 → ∃ ls, expandPseudo (.fill len v) = .ok ls ∧
    ls.flatMap commandRun = List.replicate len v ∧ ∃ bytes, streamBytes ls = some bytes) ∧
  (∀ bs : List Byte, ∃ ls, expandPseudo (.copy bs) = .ok ls ∧ ls.flatMap commandRun = bs ∧
    ∃ bytes, streamBytes ls = some bytes)

/-- Parallel decoding (R63): in a system whose engines share the ROM, a decode that engine `k` begins gives the block
result of that ROM, whatever the other engines and their hosts do in between, provided none of their steps is refused. (The
order of steps is log 15's; the number of engine `k`'s steps is log 23's.) The spec marks the block results as its own
inferences. -/
def Obligations.EngineDecodesAlone : Prop :=
  ∀ (rom : Rom) (c d : Cluster) (k : Nat) (order : List Nat) (s : State) (base : Nat) (w : Word), c.shares rom →
    c.engines[k]? = some s → Started s base w → c.runOrder (k :: order) = some d →
    decodeSteps rom ≤ (k :: order).count k →
    ∃ t, d.engines[k]? = some t ∧ observe t = some (blockResult rom base w)
end

