-- ==== Sys2Proof/Laws/Bits.lean ====
section
/-! SUPPORT. Bit lists and the numbers they stand for. -/

namespace Sys2Proof

@[simp] theorem bitsOf_length (n v : Nat) : (bitsOf n v).length = n := by
  induction n with
  | zero => rfl
  | succ n ih => simp [bitsOf, ih]

@[simp] theorem bitsOfByte_length (b : Byte) : (bitsOfByte b).length = 8 := bitsOf_length 8 _

@[simp] theorem bitsOfBytes_nil : bitsOfBytes [] = [] := rfl

@[simp] theorem bitsOfBytes_cons (b : Byte) (bs : List Byte) :
    bitsOfBytes (b :: bs) = bitsOfByte b ++ bitsOfBytes bs := rfl

@[simp] theorem bitsOfBytes_append (as bs : List Byte) :
    bitsOfBytes (as ++ bs) = bitsOfBytes as ++ bitsOfBytes bs := by
  simp [bitsOfBytes]

@[simp] theorem bitsOfBytes_length (bs : List Byte) : (bitsOfBytes bs).length = 8 * bs.length := by
  induction bs with
  | nil => rfl
  | cons b bs ih => simp [ih]; omega

/-- The number of bits read so far, `acc`, is carried by the fold. -/
theorem natOfBits_foldl (l : List Bool) (acc : Nat) :
    l.foldl (fun acc b => 2 * acc + b.toNat) acc = acc * 2 ^ l.length + natOfBits l := by
  induction l generalizing acc with
  | nil => simp [natOfBits]
  | cons b l ih =>
    simp only [natOfBits, List.foldl_cons, List.length_cons]
    rw [ih, ih (2 * 0 + b.toNat)]
    ring

@[simp] theorem natOfBits_nil : natOfBits [] = 0 := rfl

theorem natOfBits_cons (b : Bool) (l : List Bool) :
    natOfBits (b :: l) = b.toNat * 2 ^ l.length + natOfBits l := by
  have := natOfBits_foldl l (2 * 0 + b.toNat)
  simpa [natOfBits] using this

theorem natOfBits_append (l r : List Bool) :
    natOfBits (l ++ r) = natOfBits l * 2 ^ r.length + natOfBits r := by
  have := natOfBits_foldl r (natOfBits l)
  simpa [natOfBits] using this

theorem natOfBits_lt (l : List Bool) : natOfBits l < 2 ^ l.length := by
  induction l with
  | nil => simp
  | cons b l ih =>
    rw [natOfBits_cons, List.length_cons, pow_succ]
    cases b <;> simp <;> omega

/-- The low `n` bits of a number, read back as a number. -/
theorem natOfBits_bitsOf (n v : Nat) : natOfBits (bitsOf n v) = v % 2 ^ n := by
  induction n with
  | zero => simp [bitsOf, Nat.mod_one]
  | succ n ih =>
    rw [bitsOf, natOfBits_cons, ih, bitsOf_length, Nat.mod_pow_succ, Nat.toNat_testBit]
    ring

/-- Bits above the `n`th do not matter to the low `n` bits. -/
theorem bitsOf_add (n v w : Nat) (h : w < 2 ^ n) : ∀ m, m ≤ n → bitsOf m (2 ^ n * v + w) = bitsOf m w := by
  intro m
  induction m with
  | zero => intro _; rfl
  | succ m ih =>
    intro hm
    rw [bitsOf, bitsOf, ih (by omega), Nat.testBit_two_pow_mul_add v h, if_pos (by omega)]

/-- The bits of the number a bit list stands for are that list. -/
theorem bitsOf_natOfBits (l : List Bool) : bitsOf l.length (natOfBits l) = l := by
  induction l with
  | nil => rfl
  | cons b l ih =>
    have hlt := natOfBits_lt l
    rw [List.length_cons, bitsOf, natOfBits_cons, Nat.mul_comm, bitsOf_add _ _ _ hlt _ le_rfl, ih,
      Nat.testBit_two_pow_mul_add _ hlt, if_neg (by omega)]
    cases b <;> simp

theorem bitsOf_natOfBits_of_length {n : Nat} {l : List Bool} (h : l.length = n) :
    bitsOf n (natOfBits l) = l := by
  subst h; exact bitsOf_natOfBits l

/-- A byte's bits stand for that byte. -/
@[simp] theorem byteOfBits_bitsOfByte (b : Byte) : byteOfBits (bitsOfByte b) = b := by
  apply BitVec.eq_of_toNat_eq
  simp only [byteOfBits, bitsOfByte, natOfBits_bitsOf, BitVec.toNat_ofNat]
  have := b.isLt
  omega

theorem bitsOfByte_byteOfBits {l : List Bool} (h : l.length = 8) : bitsOfByte (byteOfBits l) = l := by
  have := natOfBits_lt l
  rw [h] at this
  rw [bitsOfByte, byteOfBits, BitVec.toNat_ofNat, Nat.mod_eq_of_lt (by omega), bitsOf_natOfBits_of_length h]

/-- A byte sequence read back from its bits. -/
theorem bytesOfBits_bitsOfBytes (bs : List Byte) (rest : List Bool) :
    bytesOfBits bs.length (bitsOfBytes bs ++ rest) = bs := by
  induction bs with
  | nil => rfl
  | cons b bs ih =>
    rw [List.length_cons, bytesOfBits, bitsOfBytes_cons, List.append_assoc,
      List.take_append_of_le_length (by simp), List.take_of_length_le (by simp),
      byteOfBits_bitsOfByte, List.drop_append_of_le_length (by simp), List.drop_of_length_le (by simp)]
    simpa using ih

theorem bitsOfBytes_bytesOfBits {n : Nat} {l : List Bool} (h : 8 * n ≤ l.length) :
    bitsOfBytes (bytesOfBits n l) = l.take (8 * n) := by
  induction n generalizing l with
  | zero => simp [bytesOfBits]
  | succ n ih =>
    rw [bytesOfBits, bitsOfBytes_cons, bitsOfByte_byteOfBits (by simp; omega), ih (by simp; omega),
      show 8 * (n + 1) = 8 + 8 * n by ring, List.take_add]

@[simp] theorem padBits_length (n : Nat) : (padBits n).length = 8 * ((n + 7) / 8) - n := List.length_replicate

/-- Packed bits come first, and the padding behind them. -/
theorem bitsOfBytes_packBits (l : List Bool) : bitsOfBytes (packBits l) = l ++ padBits l.length := by
  rw [packBits, bitsOfBytes_bytesOfBits (by simp; omega), List.take_of_length_le (by simp; omega)]

/-- Bit `i` of a bit list's number, the first bit highest. -/
theorem bitsOf_getElem? (n v j : Nat) (h : j < n) : (bitsOf n v)[j]? = some (v.testBit (n - 1 - j)) := by
  induction n generalizing j with
  | zero => omega
  | succ n ih =>
    cases j with
    | zero => simp [bitsOf]
    | succ j =>
      rw [bitsOf, List.getElem?_cons_succ, ih j (by omega)]
      congr 2; omega

end Sys2Proof
end

