-- ==== Sys2Proof/Laws/Codec.lean ====
section
/-! SUPPORT. What decoding each format does, and the entry word's fields. -/

namespace Sys2Proof

/-! ### The entry word's fields (30_encoding.md R71) -/

theorem entryMode_toNat (w : Word) : (entryMode w).toNat = w.toNat / 2 ^ 24 := by
  have := w.isLt
  rw [entryMode, BitVec.extractLsb'_toNat, Nat.shiftRight_eq_div_pow, Nat.mod_eq_of_lt (by omega)]

theorem entryRaw_toNat (w : Word) : (entryRaw w).toNat = w.toNat % 2 ^ 24 := by
  rw [entryRaw, BitVec.extractLsb'_toNat, Nat.shiftRight_zero]

theorem entryWord_toNat (m : Byte) (raw : BitVec 24) :
    (entryWord m raw).toNat = m.toNat * 2 ^ 24 + raw.toNat := by
  have := raw.isLt
  rw [entryWord, BitVec.toNat_append, ← Nat.shiftLeft_add_eq_or_of_lt this, Nat.shiftLeft_eq]

@[simp] theorem entryMode_entryWord (m : Byte) (raw : BitVec 24) : entryMode (entryWord m raw) = m := by
  apply BitVec.eq_of_toNat_eq
  have := m.isLt
  have := raw.isLt
  rw [entryMode_toNat, entryWord_toNat]
  omega

@[simp] theorem entryRaw_entryWord (m : Byte) (raw : BitVec 24) : entryRaw (entryWord m raw) = raw := by
  apply BitVec.eq_of_toNat_eq
  have := raw.isLt
  rw [entryRaw_toNat, entryWord_toNat]
  omega

/-- A word is its two fields. -/
@[simp] theorem entryWord_fields (w : Word) : entryWord (entryMode w) (entryRaw w) = w := by
  apply BitVec.eq_of_toNat_eq
  rw [entryWord_toNat, entryMode_toNat, entryRaw_toNat]
  omega

theorem word_eq_zero_iff (w : Word) : w = 0 ↔ entryMode w = 0 ∧ entryRaw w = 0 := by
  constructor
  · rintro rfl; exact ⟨rfl, rfl⟩
  · rintro ⟨hm, hr⟩
    rw [← entryWord_fields w, hm, hr]; rfl

/-! ### The units of an entry word and of a command byte (R81, R92) -/

theorem decodeEntry_bad {w : Word} (h : 3 ≤ (entryMode w).toNat) :
    decodeEntry w = .entBadMode (entryMode w) (entryRaw w) := if_pos h

theorem decodeEntry_zero : decodeEntry 0 = .entZero := rfl

theorem decodeEntry_neg {w : Word} (hm : entryMode w = 0) (hr : entryRaw w ≠ 0) :
    decodeEntry w = .entNeg (entryRaw w) := by
  have hw : w ≠ 0 := fun h => hr ((word_eq_zero_iff w).1 h).2
  rw [decodeEntry, if_neg (by simp [hm]), if_neg hw, if_pos hm]

theorem decodeEntry_rle {w : Word} (hm : entryMode w = 1) : decodeEntry w = .entRle (entryRaw w) := by
  have hw : w ≠ 0 := fun h => by have := ((word_eq_zero_iff w).1 h).1; simp_all
  rw [decodeEntry, if_neg (by simp [hm]), if_neg hw, if_neg (by simp [hm]), if_pos hm]

theorem decodeEntry_bitpack {w : Word} (hm : entryMode w = 2) : decodeEntry w = .entBitpack (entryRaw w) := by
  have hw : w ≠ 0 := fun h => by have := ((word_eq_zero_iff w).1 h).1; simp_all
  rw [decodeEntry, if_neg (by simp [hm]), if_neg hw, if_neg (by simp [hm]), if_neg (by simp [hm])]

/-- The five classes of an entry word; each word is in exactly one (R92). -/
theorem entryClass (w : Word) : 3 ≤ (entryMode w).toNat ∨ w = 0 ∨ (entryMode w = 0 ∧ entryRaw w ≠ 0) ∨
    entryMode w = 1 ∨ entryMode w = 2 := by
  by_cases h3 : 3 ≤ (entryMode w).toNat
  · exact .inl h3
  · have : entryMode w = 0 ∨ entryMode w = 1 ∨ entryMode w = 2 := by
      have : (entryMode w).toNat = 0 ∨ (entryMode w).toNat = 1 ∨ (entryMode w).toNat = 2 := by omega
      simpa [BitVec.toNat_eq] using this
    rcases this with h | h | h
    · by_cases hr : entryRaw w = 0
      · exact .inr (.inl ((word_eq_zero_iff w).2 ⟨h, hr⟩))
      · exact .inr (.inr (.inl ⟨h, hr⟩))
    · exact .inr (.inr (.inr (.inl h)))
    · exact .inr (.inr (.inr (.inr h)))

theorem decodeCmd_nop : decodeCmd 0x80 = .rleNop := rfl

theorem decodeCmd_lit {c : Byte} (h : c.toNat ≤ 0x7F) : decodeCmd c = .rleLit c := by
  rw [decodeCmd, if_neg (by rintro rfl; simp at h), if_pos h]

theorem decodeCmd_rep {c : Byte} (h : 0x81 ≤ c.toNat) : decodeCmd c = .rleRep c := by
  rw [decodeCmd, if_neg (by rintro rfl; simp at h), if_neg (by omega)]

/-- The three classes of a command byte (R81). -/
theorem cmdClass (c : Byte) : c.toNat ≤ 0x7F ∨ c = 0x80 ∨ 0x81 ≤ c.toNat := by
  by_cases h : c = 0x80
  · exact .inr (.inl h)
  · have : c.toNat ≠ 0x80 := fun e => h (BitVec.eq_of_toNat_eq e)
    omega

/-! ### Decoding each format, in two directions -/

theorem take_append_exact {α : Type} {l r : List α} {n : Nat} (h : l.length = n) : (l ++ r).take n = l := by
  subst h; exact List.take_left

theorem drop_append_exact {α : Type} {l r : List α} {n : Nat} (h : l.length = n) : (l ++ r).drop n = r := by
  subst h; exact List.drop_left

theorem decode_entry32 {l rest : List Bool} (h : l.length = 32) :
    decode .entry32 (l ++ rest) = .ok (decodeEntry (BitVec.ofNat 32 (natOfBits l)), rest) := by
  rw [decode, if_pos (by simp [h]), take_append_exact h, drop_append_exact h]

theorem decode_raw8 {l rest : List Bool} (h : l.length = 8) :
    decode .raw8 (l ++ rest) = .ok (.negByte (byteOfBits l), rest) := by
  rw [decode, if_pos (by simp [h]), take_append_exact h, drop_append_exact h]

theorem decode_cmd8 {l rest : List Bool} (h : l.length = 8) :
    decode .cmd8 (l ++ rest) = .ok (decodeCmd (byteOfBits l), rest) := by
  rw [decode, if_pos (by simp [h]), take_append_exact h, drop_append_exact h]

theorem decode_hit {l rest : List Bool} (h : l.length = 4) :
    decode .code (true :: (l ++ rest)) = .ok (.m2Hit (BitVec.ofNat 4 (natOfBits l)), rest) := by
  simp only [decode]
  rw [if_pos (by simp [h]), take_append_exact h, drop_append_exact h]

theorem decode_lit {l rest : List Bool} (h : l.length = 8) :
    decode .code (false :: (l ++ rest)) = .ok (.m2Lit (byteOfBits l), rest) := by
  simp only [decode]
  rw [if_pos (by simp [h]), take_append_exact h, drop_append_exact h]

theorem decode_dict16 (d : Vector Byte 16) (rest : List Bool) :
    decode .dict16 (bitsOfBytes d.toList ++ rest) = .ok (.dictLoad d, rest) := by
  have hd : bytesOfBits 16 (bitsOfBytes d.toList ++ rest) = d.toList := by
    simpa using bytesOfBits_bitsOfBytes d.toList rest
  rw [decode, if_pos (by simp), drop_append_exact (by simp)]
  simp only [hd]
  rfl

/-- The entry word a mode and an offset's bits stand for. -/
theorem ofNat_entryBits (m : Byte) (raw : BitVec 24) :
    BitVec.ofNat 32 (natOfBits (bitsOf 8 m.toNat ++ bitsOf 24 raw.toNat)) = entryWord m raw := by
  apply BitVec.eq_of_toNat_eq
  have := m.isLt
  have := raw.isLt
  rw [natOfBits_append, natOfBits_bitsOf, natOfBits_bitsOf, bitsOf_length, entryWord_toNat, BitVec.toNat_ofNat]
  omega

/-- A bit vector read back from its own bits. -/
theorem ofNat_natOfBits_bitsOf {n : Nat} (v : BitVec n) :
    BitVec.ofNat n (natOfBits (bitsOf n v.toNat)) = v := by
  apply BitVec.eq_of_toNat_eq
  rw [natOfBits_bitsOf, BitVec.toNat_ofNat, Nat.mod_mod, Nat.mod_eq_of_lt v.isLt]

/-- A code of a bit stream is its flag bit and 4 or 8 more (R86). -/
theorem decode_code_ok {bits rest : List Bool} {i : Instr} (h : decode .code bits = .ok (i, rest)) :
    (∃ l, l.length = 4 ∧ bits = true :: (l ++ rest) ∧ i = .m2Hit (BitVec.ofNat 4 (natOfBits l))) ∨
    (∃ l, l.length = 8 ∧ bits = false :: (l ++ rest) ∧ i = .m2Lit (byteOfBits l)) := by
  cases bits with
  | nil => cases h
  | cons f r =>
    cases f with
    | true =>
      simp only [decode] at h
      split at h
      · rename_i hl
        cases h
        exact .inl ⟨r.take 4, by simp [hl], by rw [List.take_append_drop], rfl⟩
      · cases h
    | false =>
      simp only [decode] at h
      split at h
      · rename_i hl
        cases h
        exact .inr ⟨r.take 8, by simp [hl], by rw [List.take_append_drop], rfl⟩
      · cases h

end Sys2Proof
end

