-- ==== Sys2Proof/Laws/State.lean ====
section
/-! SUPPORT. What each named update of the state does to each field: one lemma a field, so that no later proof
unfolds an update. -/

namespace Sys2Proof.Machine

/-! ### takeFault -/

@[simp] theorem takeFault_rom (f : FaultInfo) (s : State) : (takeFault f s).rom = s.rom := rfl
@[simp] theorem takeFault_entry (f : FaultInfo) (s : State) : (takeFault f s).entry = s.entry := rfl
@[simp] theorem takeFault_dataBase (f : FaultInfo) (s : State) : (takeFault f s).dataBase = s.dataBase := rfl
@[simp] theorem takeFault_ctrl (f : FaultInfo) (s : State) : (takeFault f s).ctrl = .fault := rfl
@[simp] theorem takeFault_mode (f : FaultInfo) (s : State) : (takeFault f s).mode = s.mode := rfl
@[simp] theorem takeFault_offset (f : FaultInfo) (s : State) : (takeFault f s).offset = s.offset := rfl
@[simp] theorem takeFault_src (f : FaultInfo) (s : State) : (takeFault f s).src = s.src := rfl
@[simp] theorem takeFault_iptr (f : FaultInfo) (s : State) : (takeFault f s).iptr = s.iptr := rfl
@[simp] theorem takeFault_bptr (f : FaultInfo) (s : State) : (takeFault f s).bptr = s.bptr := rfl
@[simp] theorem takeFault_ocnt (f : FaultInfo) (s : State) : (takeFault f s).ocnt = s.ocnt := rfl
@[simp] theorem takeFault_out (f : FaultInfo) (s : State) : (takeFault f s).out = s.out := rfl
@[simp] theorem takeFault_dict (f : FaultInfo) (s : State) : (takeFault f s).dict = s.dict := rfl
@[simp] theorem takeFault_dictValid (f : FaultInfo) (s : State) : (takeFault f s).dictValid = s.dictValid := rfl
@[simp] theorem takeFault_fkind (f : FaultInfo) (s : State) : (takeFault f s).fkind = f.kind := rfl
@[simp] theorem takeFault_fcause (f : FaultInfo) (s : State) : (takeFault f s).fcause = f.cause := rfl
@[simp] theorem takeFault_faddr (f : FaultInfo) (s : State) : (takeFault f s).faddr = f.addr := rfl
@[simp] theorem takeFault_endoff (f : FaultInfo) (s : State) : (takeFault f s).endoff = s.endoff := rfl
@[simp] theorem takeFault_host (f : FaultInfo) (s : State) : (takeFault f s).host = s.host := rfl
@[simp] theorem takeFault_hostData (f : FaultInfo) (s : State) : (takeFault f s).hostData = s.hostData := rfl

/-! ### emit -/

@[simp] theorem emit_rom (n : Nat) (bs : List Byte) (s : State) : (emit n bs s).rom = s.rom := rfl
@[simp] theorem emit_entry (n : Nat) (bs : List Byte) (s : State) : (emit n bs s).entry = s.entry := rfl
@[simp] theorem emit_dataBase (n : Nat) (bs : List Byte) (s : State) : (emit n bs s).dataBase = s.dataBase := rfl
@[simp] theorem emit_ctrl (n : Nat) (bs : List Byte) (s : State) : (emit n bs s).ctrl = s.ctrl := rfl
@[simp] theorem emit_mode (n : Nat) (bs : List Byte) (s : State) : (emit n bs s).mode = s.mode := rfl
@[simp] theorem emit_offset (n : Nat) (bs : List Byte) (s : State) : (emit n bs s).offset = s.offset := rfl
@[simp] theorem emit_src (n : Nat) (bs : List Byte) (s : State) : (emit n bs s).src = s.src := rfl
@[simp] theorem emit_iptr (n : Nat) (bs : List Byte) (s : State) : (emit n bs s).iptr = s.iptr := rfl
@[simp] theorem emit_bptr (n : Nat) (bs : List Byte) (s : State) : (emit n bs s).bptr = s.bptr := rfl
@[simp] theorem emit_ocnt (n : Nat) (bs : List Byte) (s : State) : (emit n bs s).ocnt = some (n + bs.length) := rfl
@[simp] theorem emit_out (n : Nat) (bs : List Byte) (s : State) : (emit n bs s).out = writeOut s.out n bs := rfl
@[simp] theorem emit_dict (n : Nat) (bs : List Byte) (s : State) : (emit n bs s).dict = s.dict := rfl
@[simp] theorem emit_dictValid (n : Nat) (bs : List Byte) (s : State) : (emit n bs s).dictValid = s.dictValid := rfl
@[simp] theorem emit_fkind (n : Nat) (bs : List Byte) (s : State) : (emit n bs s).fkind = s.fkind := rfl
@[simp] theorem emit_fcause (n : Nat) (bs : List Byte) (s : State) : (emit n bs s).fcause = s.fcause := rfl
@[simp] theorem emit_faddr (n : Nat) (bs : List Byte) (s : State) : (emit n bs s).faddr = s.faddr := rfl
@[simp] theorem emit_endoff (n : Nat) (bs : List Byte) (s : State) : (emit n bs s).endoff = s.endoff := rfl
@[simp] theorem emit_host (n : Nat) (bs : List Byte) (s : State) : (emit n bs s).host = s.host := rfl
@[simp] theorem emit_hostData (n : Nat) (bs : List Byte) (s : State) : (emit n bs s).hostData = s.hostData := rfl

/-! ### loadDict -/

@[simp] theorem loadDict_rom (d : Vector Byte 16) (s : State) : (loadDict d s).rom = s.rom := rfl
@[simp] theorem loadDict_entry (d : Vector Byte 16) (s : State) : (loadDict d s).entry = s.entry := rfl
@[simp] theorem loadDict_dataBase (d : Vector Byte 16) (s : State) : (loadDict d s).dataBase = s.dataBase := rfl
@[simp] theorem loadDict_ctrl (d : Vector Byte 16) (s : State) : (loadDict d s).ctrl = s.ctrl := rfl
@[simp] theorem loadDict_mode (d : Vector Byte 16) (s : State) : (loadDict d s).mode = s.mode := rfl
@[simp] theorem loadDict_offset (d : Vector Byte 16) (s : State) : (loadDict d s).offset = s.offset := rfl
@[simp] theorem loadDict_src (d : Vector Byte 16) (s : State) : (loadDict d s).src = s.src := rfl
@[simp] theorem loadDict_iptr (d : Vector Byte 16) (s : State) : (loadDict d s).iptr = s.iptr := rfl
@[simp] theorem loadDict_bptr (d : Vector Byte 16) (s : State) : (loadDict d s).bptr = s.bptr := rfl
@[simp] theorem loadDict_ocnt (d : Vector Byte 16) (s : State) : (loadDict d s).ocnt = s.ocnt := rfl
@[simp] theorem loadDict_out (d : Vector Byte 16) (s : State) : (loadDict d s).out = s.out := rfl
@[simp] theorem loadDict_dict (d : Vector Byte 16) (s : State) :
    (loadDict d s).dict = ⟨⟨d.toList.map some⟩, by simp⟩ := rfl
@[simp] theorem loadDict_dictValid (d : Vector Byte 16) (s : State) : (loadDict d s).dictValid = true := rfl
@[simp] theorem loadDict_fkind (d : Vector Byte 16) (s : State) : (loadDict d s).fkind = s.fkind := rfl
@[simp] theorem loadDict_fcause (d : Vector Byte 16) (s : State) : (loadDict d s).fcause = s.fcause := rfl
@[simp] theorem loadDict_faddr (d : Vector Byte 16) (s : State) : (loadDict d s).faddr = s.faddr := rfl
@[simp] theorem loadDict_endoff (d : Vector Byte 16) (s : State) : (loadDict d s).endoff = s.endoff := rfl
@[simp] theorem loadDict_host (d : Vector Byte 16) (s : State) : (loadDict d s).host = s.host := rfl
@[simp] theorem loadDict_hostData (d : Vector Byte 16) (s : State) : (loadDict d s).hostData = s.hostData := rfl

/-! ### clearForStart -/

@[simp] theorem clearForStart_rom (s : State) : (clearForStart s).rom = s.rom := rfl
@[simp] theorem clearForStart_entry (s : State) : (clearForStart s).entry = s.entry := rfl
@[simp] theorem clearForStart_dataBase (s : State) : (clearForStart s).dataBase = s.dataBase := rfl
@[simp] theorem clearForStart_ctrl (s : State) : (clearForStart s).ctrl = s.ctrl := rfl
@[simp] theorem clearForStart_mode (s : State) : (clearForStart s).mode = s.mode := rfl
@[simp] theorem clearForStart_offset (s : State) : (clearForStart s).offset = s.offset := rfl
@[simp] theorem clearForStart_src (s : State) : (clearForStart s).src = none := rfl
@[simp] theorem clearForStart_iptr (s : State) : (clearForStart s).iptr = none := rfl
@[simp] theorem clearForStart_bptr (s : State) : (clearForStart s).bptr = none := rfl
@[simp] theorem clearForStart_ocnt (s : State) : (clearForStart s).ocnt = none := rfl
@[simp] theorem clearForStart_out (s : State) : (clearForStart s).out = Vector.replicate 512 none := rfl
@[simp] theorem clearForStart_dict (s : State) : (clearForStart s).dict = Vector.replicate 16 none := rfl
@[simp] theorem clearForStart_dictValid (s : State) : (clearForStart s).dictValid = false := rfl
@[simp] theorem clearForStart_fkind (s : State) : (clearForStart s).fkind = .noFault := rfl
@[simp] theorem clearForStart_fcause (s : State) : (clearForStart s).fcause = .noCause := rfl
@[simp] theorem clearForStart_faddr (s : State) : (clearForStart s).faddr = 0 := rfl
@[simp] theorem clearForStart_endoff (s : State) : (clearForStart s).endoff = none := rfl
@[simp] theorem clearForStart_host (s : State) : (clearForStart s).host = s.host := rfl
@[simp] theorem clearForStart_hostData (s : State) : (clearForStart s).hostData = s.hostData := rfl

/-! ### resetEngine -/

@[simp] theorem resetEngine_rom (s : State) : (resetEngine s).rom = s.rom := rfl
@[simp] theorem resetEngine_entry (s : State) : (resetEngine s).entry = State.reset.entry := rfl
@[simp] theorem resetEngine_dataBase (s : State) : (resetEngine s).dataBase = State.reset.dataBase := rfl
@[simp] theorem resetEngine_ctrl (s : State) : (resetEngine s).ctrl = State.reset.ctrl := rfl
@[simp] theorem resetEngine_mode (s : State) : (resetEngine s).mode = State.reset.mode := rfl
@[simp] theorem resetEngine_offset (s : State) : (resetEngine s).offset = State.reset.offset := rfl
@[simp] theorem resetEngine_src (s : State) : (resetEngine s).src = State.reset.src := rfl
@[simp] theorem resetEngine_iptr (s : State) : (resetEngine s).iptr = State.reset.iptr := rfl
@[simp] theorem resetEngine_bptr (s : State) : (resetEngine s).bptr = State.reset.bptr := rfl
@[simp] theorem resetEngine_ocnt (s : State) : (resetEngine s).ocnt = State.reset.ocnt := rfl
@[simp] theorem resetEngine_out (s : State) : (resetEngine s).out = State.reset.out := rfl
@[simp] theorem resetEngine_dict (s : State) : (resetEngine s).dict = State.reset.dict := rfl
@[simp] theorem resetEngine_dictValid (s : State) : (resetEngine s).dictValid = State.reset.dictValid := rfl
@[simp] theorem resetEngine_fkind (s : State) : (resetEngine s).fkind = State.reset.fkind := rfl
@[simp] theorem resetEngine_fcause (s : State) : (resetEngine s).fcause = State.reset.fcause := rfl
@[simp] theorem resetEngine_faddr (s : State) : (resetEngine s).faddr = State.reset.faddr := rfl
@[simp] theorem resetEngine_endoff (s : State) : (resetEngine s).endoff = State.reset.endoff := rfl
@[simp] theorem resetEngine_host (s : State) : (resetEngine s).host = s.host := rfl
@[simp] theorem resetEngine_hostData (s : State) : (resetEngine s).hostData = s.hostData := rfl

/-! ### takeCommand -/

@[simp] theorem takeCommand_rom (s : State) : (takeCommand s).rom = s.rom := rfl
@[simp] theorem takeCommand_entry (s : State) : (takeCommand s).entry = s.entry := rfl
@[simp] theorem takeCommand_dataBase (s : State) : (takeCommand s).dataBase = s.dataBase := rfl
@[simp] theorem takeCommand_ctrl (s : State) : (takeCommand s).ctrl = s.ctrl := rfl
@[simp] theorem takeCommand_mode (s : State) : (takeCommand s).mode = s.mode := rfl
@[simp] theorem takeCommand_offset (s : State) : (takeCommand s).offset = s.offset := rfl
@[simp] theorem takeCommand_src (s : State) : (takeCommand s).src = s.src := rfl
@[simp] theorem takeCommand_iptr (s : State) : (takeCommand s).iptr = s.iptr := rfl
@[simp] theorem takeCommand_bptr (s : State) : (takeCommand s).bptr = s.bptr := rfl
@[simp] theorem takeCommand_ocnt (s : State) : (takeCommand s).ocnt = s.ocnt := rfl
@[simp] theorem takeCommand_out (s : State) : (takeCommand s).out = s.out := rfl
@[simp] theorem takeCommand_dict (s : State) : (takeCommand s).dict = s.dict := rfl
@[simp] theorem takeCommand_dictValid (s : State) : (takeCommand s).dictValid = s.dictValid := rfl
@[simp] theorem takeCommand_fkind (s : State) : (takeCommand s).fkind = s.fkind := rfl
@[simp] theorem takeCommand_fcause (s : State) : (takeCommand s).fcause = s.fcause := rfl
@[simp] theorem takeCommand_faddr (s : State) : (takeCommand s).faddr = s.faddr := rfl
@[simp] theorem takeCommand_endoff (s : State) : (takeCommand s).endoff = s.endoff := rfl
@[simp] theorem takeCommand_host (s : State) : (takeCommand s).host = s.host.tail := rfl
@[simp] theorem takeCommand_hostData (s : State) : (takeCommand s).hostData = s.hostData := rfl

/-! ### setResolution -/

@[simp] theorem setResolution_rom (m : Byte) (o : Int) (a : Option Int) (s : State) :
    (setResolution m o a s).rom = s.rom := rfl
@[simp] theorem setResolution_entry (m : Byte) (o : Int) (a : Option Int) (s : State) :
    (setResolution m o a s).entry = s.entry := rfl
@[simp] theorem setResolution_dataBase (m : Byte) (o : Int) (a : Option Int) (s : State) :
    (setResolution m o a s).dataBase = s.dataBase := rfl
@[simp] theorem setResolution_ctrl (m : Byte) (o : Int) (a : Option Int) (s : State) :
    (setResolution m o a s).ctrl = s.ctrl := rfl
@[simp] theorem setResolution_mode (m : Byte) (o : Int) (a : Option Int) (s : State) :
    (setResolution m o a s).mode = some m := rfl
@[simp] theorem setResolution_offset (m : Byte) (o : Int) (a : Option Int) (s : State) :
    (setResolution m o a s).offset = some o := rfl
@[simp] theorem setResolution_src (m : Byte) (o : Int) (a : Option Int) (s : State) :
    (setResolution m o a s).src = a := rfl
@[simp] theorem setResolution_iptr (m : Byte) (o : Int) (a : Option Int) (s : State) :
    (setResolution m o a s).iptr = s.iptr := rfl
@[simp] theorem setResolution_bptr (m : Byte) (o : Int) (a : Option Int) (s : State) :
    (setResolution m o a s).bptr = s.bptr := rfl
@[simp] theorem setResolution_ocnt (m : Byte) (o : Int) (a : Option Int) (s : State) :
    (setResolution m o a s).ocnt = s.ocnt := rfl
@[simp] theorem setResolution_out (m : Byte) (o : Int) (a : Option Int) (s : State) :
    (setResolution m o a s).out = s.out := rfl
@[simp] theorem setResolution_dict (m : Byte) (o : Int) (a : Option Int) (s : State) :
    (setResolution m o a s).dict = s.dict := rfl
@[simp] theorem setResolution_dictValid (m : Byte) (o : Int) (a : Option Int) (s : State) :
    (setResolution m o a s).dictValid = s.dictValid := rfl
@[simp] theorem setResolution_fkind (m : Byte) (o : Int) (a : Option Int) (s : State) :
    (setResolution m o a s).fkind = s.fkind := rfl
@[simp] theorem setResolution_fcause (m : Byte) (o : Int) (a : Option Int) (s : State) :
    (setResolution m o a s).fcause = s.fcause := rfl
@[simp] theorem setResolution_faddr (m : Byte) (o : Int) (a : Option Int) (s : State) :
    (setResolution m o a s).faddr = s.faddr := rfl
@[simp] theorem setResolution_endoff (m : Byte) (o : Int) (a : Option Int) (s : State) :
    (setResolution m o a s).endoff = s.endoff := rfl
@[simp] theorem setResolution_host (m : Byte) (o : Int) (a : Option Int) (s : State) :
    (setResolution m o a s).host = s.host := rfl
@[simp] theorem setResolution_hostData (m : Byte) (o : Int) (a : Option Int) (s : State) :
    (setResolution m o a s).hostData = s.hostData := rfl

/-! ### faultStart -/

@[simp] theorem faultStart_rom (f : FaultInfo) (m : Byte) (o : Int) (a : Option Int) (s : State) :
    (faultStart f m o a s).rom = s.rom := rfl
@[simp] theorem faultStart_entry (f : FaultInfo) (m : Byte) (o : Int) (a : Option Int) (s : State) :
    (faultStart f m o a s).entry = s.entry := rfl
@[simp] theorem faultStart_dataBase (f : FaultInfo) (m : Byte) (o : Int) (a : Option Int) (s : State) :
    (faultStart f m o a s).dataBase = s.dataBase := rfl
@[simp] theorem faultStart_ctrl (f : FaultInfo) (m : Byte) (o : Int) (a : Option Int) (s : State) :
    (faultStart f m o a s).ctrl = .fault := rfl
@[simp] theorem faultStart_mode (f : FaultInfo) (m : Byte) (o : Int) (a : Option Int) (s : State) :
    (faultStart f m o a s).mode = some m := rfl
@[simp] theorem faultStart_offset (f : FaultInfo) (m : Byte) (o : Int) (a : Option Int) (s : State) :
    (faultStart f m o a s).offset = some o := rfl
@[simp] theorem faultStart_src (f : FaultInfo) (m : Byte) (o : Int) (a : Option Int) (s : State) :
    (faultStart f m o a s).src = a := rfl
@[simp] theorem faultStart_iptr (f : FaultInfo) (m : Byte) (o : Int) (a : Option Int) (s : State) :
    (faultStart f m o a s).iptr = s.iptr := rfl
@[simp] theorem faultStart_bptr (f : FaultInfo) (m : Byte) (o : Int) (a : Option Int) (s : State) :
    (faultStart f m o a s).bptr = s.bptr := rfl
@[simp] theorem faultStart_ocnt (f : FaultInfo) (m : Byte) (o : Int) (a : Option Int) (s : State) :
    (faultStart f m o a s).ocnt = s.ocnt := rfl
@[simp] theorem faultStart_out (f : FaultInfo) (m : Byte) (o : Int) (a : Option Int) (s : State) :
    (faultStart f m o a s).out = s.out := rfl
@[simp] theorem faultStart_dict (f : FaultInfo) (m : Byte) (o : Int) (a : Option Int) (s : State) :
    (faultStart f m o a s).dict = s.dict := rfl
@[simp] theorem faultStart_dictValid (f : FaultInfo) (m : Byte) (o : Int) (a : Option Int) (s : State) :
    (faultStart f m o a s).dictValid = s.dictValid := rfl
@[simp] theorem faultStart_fkind (f : FaultInfo) (m : Byte) (o : Int) (a : Option Int) (s : State) :
    (faultStart f m o a s).fkind = f.kind := rfl
@[simp] theorem faultStart_fcause (f : FaultInfo) (m : Byte) (o : Int) (a : Option Int) (s : State) :
    (faultStart f m o a s).fcause = f.cause := rfl
@[simp] theorem faultStart_faddr (f : FaultInfo) (m : Byte) (o : Int) (a : Option Int) (s : State) :
    (faultStart f m o a s).faddr = f.addr := rfl
@[simp] theorem faultStart_endoff (f : FaultInfo) (m : Byte) (o : Int) (a : Option Int) (s : State) :
    (faultStart f m o a s).endoff = s.endoff := rfl
@[simp] theorem faultStart_host (f : FaultInfo) (m : Byte) (o : Int) (a : Option Int) (s : State) :
    (faultStart f m o a s).host = s.host := rfl
@[simp] theorem faultStart_hostData (f : FaultInfo) (m : Byte) (o : Int) (a : Option Int) (s : State) :
    (faultStart f m o a s).hostData = s.hostData := rfl

/-! ### acceptStart -/

@[simp] theorem acceptStart_rom (m : Byte) (o : Int) (a : Option Int) (s : State) :
    (acceptStart m o a s).rom = s.rom := rfl
@[simp] theorem acceptStart_entry (m : Byte) (o : Int) (a : Option Int) (s : State) :
    (acceptStart m o a s).entry = s.entry := rfl
@[simp] theorem acceptStart_dataBase (m : Byte) (o : Int) (a : Option Int) (s : State) :
    (acceptStart m o a s).dataBase = s.dataBase := rfl
@[simp] theorem acceptStart_ctrl (m : Byte) (o : Int) (a : Option Int) (s : State) :
    (acceptStart m o a s).ctrl = s.ctrl := rfl
@[simp] theorem acceptStart_mode (m : Byte) (o : Int) (a : Option Int) (s : State) :
    (acceptStart m o a s).mode = some m := rfl
@[simp] theorem acceptStart_offset (m : Byte) (o : Int) (a : Option Int) (s : State) :
    (acceptStart m o a s).offset = some o := rfl
@[simp] theorem acceptStart_src (m : Byte) (o : Int) (a : Option Int) (s : State) :
    (acceptStart m o a s).src = a := rfl
@[simp] theorem acceptStart_iptr (m : Byte) (o : Int) (a : Option Int) (s : State) :
    (acceptStart m o a s).iptr = none := rfl
@[simp] theorem acceptStart_bptr (m : Byte) (o : Int) (a : Option Int) (s : State) :
    (acceptStart m o a s).bptr = none := rfl
@[simp] theorem acceptStart_ocnt (m : Byte) (o : Int) (a : Option Int) (s : State) :
    (acceptStart m o a s).ocnt = none := rfl
@[simp] theorem acceptStart_out (m : Byte) (o : Int) (a : Option Int) (s : State) :
    (acceptStart m o a s).out = Vector.replicate 512 none := rfl
@[simp] theorem acceptStart_dict (m : Byte) (o : Int) (a : Option Int) (s : State) :
    (acceptStart m o a s).dict = Vector.replicate 16 none := rfl
@[simp] theorem acceptStart_dictValid (m : Byte) (o : Int) (a : Option Int) (s : State) :
    (acceptStart m o a s).dictValid = false := rfl
@[simp] theorem acceptStart_fkind (m : Byte) (o : Int) (a : Option Int) (s : State) :
    (acceptStart m o a s).fkind = .noFault := rfl
@[simp] theorem acceptStart_fcause (m : Byte) (o : Int) (a : Option Int) (s : State) :
    (acceptStart m o a s).fcause = .noCause := rfl
@[simp] theorem acceptStart_faddr (m : Byte) (o : Int) (a : Option Int) (s : State) :
    (acceptStart m o a s).faddr = 0 := rfl
@[simp] theorem acceptStart_endoff (m : Byte) (o : Int) (a : Option Int) (s : State) :
    (acceptStart m o a s).endoff = none := rfl
@[simp] theorem acceptStart_host (m : Byte) (o : Int) (a : Option Int) (s : State) :
    (acceptStart m o a s).host = s.host := rfl
@[simp] theorem acceptStart_hostData (m : Byte) (o : Int) (a : Option Int) (s : State) :
    (acceptStart m o a s).hostData = s.hostData := rfl

/-! ### setRom -/

@[simp] theorem setRom_rom (m : Rom) (s : State) : (setRom m s).rom = m := rfl
@[simp] theorem setRom_entry (m : Rom) (s : State) : (setRom m s).entry = s.entry := rfl
@[simp] theorem setRom_dataBase (m : Rom) (s : State) : (setRom m s).dataBase = s.dataBase := rfl
@[simp] theorem setRom_ctrl (m : Rom) (s : State) : (setRom m s).ctrl = s.ctrl := rfl
@[simp] theorem setRom_mode (m : Rom) (s : State) : (setRom m s).mode = s.mode := rfl
@[simp] theorem setRom_offset (m : Rom) (s : State) : (setRom m s).offset = s.offset := rfl
@[simp] theorem setRom_src (m : Rom) (s : State) : (setRom m s).src = s.src := rfl
@[simp] theorem setRom_iptr (m : Rom) (s : State) : (setRom m s).iptr = s.iptr := rfl
@[simp] theorem setRom_bptr (m : Rom) (s : State) : (setRom m s).bptr = s.bptr := rfl
@[simp] theorem setRom_ocnt (m : Rom) (s : State) : (setRom m s).ocnt = s.ocnt := rfl
@[simp] theorem setRom_out (m : Rom) (s : State) : (setRom m s).out = s.out := rfl
@[simp] theorem setRom_dict (m : Rom) (s : State) : (setRom m s).dict = s.dict := rfl
@[simp] theorem setRom_dictValid (m : Rom) (s : State) : (setRom m s).dictValid = s.dictValid := rfl
@[simp] theorem setRom_fkind (m : Rom) (s : State) : (setRom m s).fkind = s.fkind := rfl
@[simp] theorem setRom_fcause (m : Rom) (s : State) : (setRom m s).fcause = s.fcause := rfl
@[simp] theorem setRom_faddr (m : Rom) (s : State) : (setRom m s).faddr = s.faddr := rfl
@[simp] theorem setRom_endoff (m : Rom) (s : State) : (setRom m s).endoff = s.endoff := rfl
@[simp] theorem setRom_host (m : Rom) (s : State) : (setRom m s).host = s.host := rfl
@[simp] theorem setRom_hostData (m : Rom) (s : State) : (setRom m s).hostData = s.hostData := rfl

/-! ### zeroBlock -/

@[simp] theorem zeroBlock_rom (s : State) : (zeroBlock s).rom = s.rom := rfl
@[simp] theorem zeroBlock_entry (s : State) : (zeroBlock s).entry = s.entry := rfl
@[simp] theorem zeroBlock_dataBase (s : State) : (zeroBlock s).dataBase = s.dataBase := rfl
@[simp] theorem zeroBlock_ctrl (s : State) : (zeroBlock s).ctrl = .done := rfl
@[simp] theorem zeroBlock_mode (s : State) : (zeroBlock s).mode = s.mode := rfl
@[simp] theorem zeroBlock_offset (s : State) : (zeroBlock s).offset = s.offset := rfl
@[simp] theorem zeroBlock_src (s : State) : (zeroBlock s).src = s.src := rfl
@[simp] theorem zeroBlock_iptr (s : State) : (zeroBlock s).iptr = s.iptr := rfl
@[simp] theorem zeroBlock_bptr (s : State) : (zeroBlock s).bptr = s.bptr := rfl
@[simp] theorem zeroBlock_ocnt (s : State) : (zeroBlock s).ocnt = some 512 := rfl
@[simp] theorem zeroBlock_out (s : State) : (zeroBlock s).out = Vector.replicate 512 (some 0) := rfl
@[simp] theorem zeroBlock_dict (s : State) : (zeroBlock s).dict = s.dict := rfl
@[simp] theorem zeroBlock_dictValid (s : State) : (zeroBlock s).dictValid = s.dictValid := rfl
@[simp] theorem zeroBlock_fkind (s : State) : (zeroBlock s).fkind = s.fkind := rfl
@[simp] theorem zeroBlock_fcause (s : State) : (zeroBlock s).fcause = s.fcause := rfl
@[simp] theorem zeroBlock_faddr (s : State) : (zeroBlock s).faddr = s.faddr := rfl
@[simp] theorem zeroBlock_endoff (s : State) : (zeroBlock s).endoff = some 0 := rfl
@[simp] theorem zeroBlock_host (s : State) : (zeroBlock s).host = s.host := rfl
@[simp] theorem zeroBlock_hostData (s : State) : (zeroBlock s).hostData = s.hostData := rfl

/-! ### beginDecode -/

@[simp] theorem beginDecode_rom (a : Int) (s : State) : (beginDecode a s).rom = s.rom := rfl
@[simp] theorem beginDecode_entry (a : Int) (s : State) : (beginDecode a s).entry = s.entry := rfl
@[simp] theorem beginDecode_dataBase (a : Int) (s : State) : (beginDecode a s).dataBase = s.dataBase := rfl
@[simp] theorem beginDecode_ctrl (a : Int) (s : State) : (beginDecode a s).ctrl = .busy := rfl
@[simp] theorem beginDecode_mode (a : Int) (s : State) : (beginDecode a s).mode = s.mode := rfl
@[simp] theorem beginDecode_offset (a : Int) (s : State) : (beginDecode a s).offset = s.offset := rfl
@[simp] theorem beginDecode_src (a : Int) (s : State) : (beginDecode a s).src = s.src := rfl
@[simp] theorem beginDecode_iptr (a : Int) (s : State) : (beginDecode a s).iptr = some a.toNat := rfl
@[simp] theorem beginDecode_bptr (a : Int) (s : State) : (beginDecode a s).bptr = some 0 := rfl
@[simp] theorem beginDecode_ocnt (a : Int) (s : State) : (beginDecode a s).ocnt = some 0 := rfl
@[simp] theorem beginDecode_out (a : Int) (s : State) : (beginDecode a s).out = s.out := rfl
@[simp] theorem beginDecode_dict (a : Int) (s : State) : (beginDecode a s).dict = s.dict := rfl
@[simp] theorem beginDecode_dictValid (a : Int) (s : State) : (beginDecode a s).dictValid = false := rfl
@[simp] theorem beginDecode_fkind (a : Int) (s : State) : (beginDecode a s).fkind = s.fkind := rfl
@[simp] theorem beginDecode_fcause (a : Int) (s : State) : (beginDecode a s).fcause = s.fcause := rfl
@[simp] theorem beginDecode_faddr (a : Int) (s : State) : (beginDecode a s).faddr = s.faddr := rfl
@[simp] theorem beginDecode_endoff (a : Int) (s : State) : (beginDecode a s).endoff = s.endoff := rfl
@[simp] theorem beginDecode_host (a : Int) (s : State) : (beginDecode a s).host = s.host := rfl
@[simp] theorem beginDecode_hostData (a : Int) (s : State) : (beginDecode a s).hostData = s.hostData := rfl

/-! ### complete -/

theorem complete_of_full {e : Nat} {s : State} (h : s.ocnt = some 512) :
    complete e s = { s with endoff := some e, ctrl := .done } := by
  simp [complete, h]

theorem complete_of_notFull {e : Nat} {s : State} (h : s.ocnt ≠ some 512) : complete e s = s := by
  simp [complete, h]

@[simp] theorem complete_rom (e : Nat) (s : State) : (complete e s).rom = s.rom := by
  unfold complete; split <;> rfl
@[simp] theorem complete_entry (e : Nat) (s : State) : (complete e s).entry = s.entry := by
  unfold complete; split <;> rfl
@[simp] theorem complete_dataBase (e : Nat) (s : State) : (complete e s).dataBase = s.dataBase := by
  unfold complete; split <;> rfl
@[simp] theorem complete_mode (e : Nat) (s : State) : (complete e s).mode = s.mode := by
  unfold complete; split <;> rfl
@[simp] theorem complete_offset (e : Nat) (s : State) : (complete e s).offset = s.offset := by
  unfold complete; split <;> rfl
@[simp] theorem complete_src (e : Nat) (s : State) : (complete e s).src = s.src := by
  unfold complete; split <;> rfl
@[simp] theorem complete_iptr (e : Nat) (s : State) : (complete e s).iptr = s.iptr := by
  unfold complete; split <;> rfl
@[simp] theorem complete_bptr (e : Nat) (s : State) : (complete e s).bptr = s.bptr := by
  unfold complete; split <;> rfl
@[simp] theorem complete_ocnt (e : Nat) (s : State) : (complete e s).ocnt = s.ocnt := by
  unfold complete; split <;> rfl
@[simp] theorem complete_out (e : Nat) (s : State) : (complete e s).out = s.out := by
  unfold complete; split <;> rfl
@[simp] theorem complete_dict (e : Nat) (s : State) : (complete e s).dict = s.dict := by
  unfold complete; split <;> rfl
@[simp] theorem complete_dictValid (e : Nat) (s : State) : (complete e s).dictValid = s.dictValid := by
  unfold complete; split <;> rfl
@[simp] theorem complete_fkind (e : Nat) (s : State) : (complete e s).fkind = s.fkind := by
  unfold complete; split <;> rfl
@[simp] theorem complete_fcause (e : Nat) (s : State) : (complete e s).fcause = s.fcause := by
  unfold complete; split <;> rfl
@[simp] theorem complete_faddr (e : Nat) (s : State) : (complete e s).faddr = s.faddr := by
  unfold complete; split <;> rfl
@[simp] theorem complete_host (e : Nat) (s : State) : (complete e s).host = s.host := by
  unfold complete; split <;> rfl
@[simp] theorem complete_hostData (e : Nat) (s : State) : (complete e s).hostData = s.hostData := by
  unfold complete; split <;> rfl

end Sys2Proof.Machine
end

