-- ==== Sys2Proof/Laws/Memory.lean ====
section
/-! SUPPORT. The ROM's laws: a byte placed is read back, every other byte is as it was, and every operation keeps the
one canonical form. -/

namespace Sys2Proof.Machine

/-! ### Reads -/

theorem romByte_inside {m : Rom} {a : Nat} (h : a < m.len) : romByte m a = some (cellByte m.cells a) := by
  simp [romByte, h]

theorem romByte_isSome_iff (m : Rom) (a : Int) : (romByte m a).isSome ↔ 0 ≤ a ∧ a < m.len := by
  unfold romByte; split <;> simp_all

theorem romByte_none_iff (m : Rom) (a : Int) : romByte m a = none ↔ a < 0 ∨ (m.len : Int) ≤ a := by
  unfold romByte; split <;> (simp_all; try omega)

/-! ### The canonical form -/

theorem cellsWf_cons {lo len k : Nat} {b : Byte} {r : List Host.Cell} :
    cellsWf lo len ((k, b) :: r) = true ↔ lo ≤ k ∧ k < len ∧ b ≠ 0 ∧ cellsWf (k + 1) len r = true := by
  simp [cellsWf, and_assoc]

theorem cellsWf_weaken {lo lo' len len' : Nat} {cs : List Host.Cell} (h : cellsWf lo len cs = true)
    (hlo : lo' ≤ lo) (hlen : len ≤ len') : cellsWf lo' len' cs = true := by
  induction cs generalizing lo lo' with
  | nil => rfl
  | cons c r ih =>
    obtain ⟨k, b⟩ := c
    rw [cellsWf_cons] at h ⊢
    exact ⟨by omega, by omega, h.2.2.1, ih h.2.2.2 le_rfl⟩

/-- Below the first cell everything reads as unlisted. -/
theorem cellByte_below {lo len k : Nat} {cs : List Host.Cell} (h : cellsWf lo len cs = true) (hk : k < lo) :
    cellByte cs k = 0 := by
  induction cs generalizing lo with
  | nil => rfl
  | cons c r ih =>
    obtain ⟨x, b⟩ := c
    rw [cellsWf_cons] at h
    rw [cellByte, if_neg (by omega)]
    exact ih h.2.2.2 (by omega)

/-- A byte written is read back, and every other byte is as it was. -/
theorem cellByte_cellWrite {lo len : Nat} {cs : List Host.Cell} (h : cellsWf lo len cs = true) (a k : Nat)
    (b : Byte) : cellByte (cellWrite cs a b) k = if k = a then b else cellByte cs k := by
  induction cs generalizing lo with
  | nil =>
    by_cases hb : b = 0
    · subst hb; rw [cellWrite, if_pos rfl]; split <;> rfl
    · rw [cellWrite, if_neg hb, cellByte]; simp only [cellByte, eq_comm]
  | cons c r ih =>
    obtain ⟨x, y⟩ := c
    rw [cellsWf_cons] at h
    have below : ∀ j, j < x + 1 → cellByte r j = 0 := fun j hj => cellByte_below h.2.2.2 hj
    rw [cellWrite]
    by_cases hax : a < x
    · have ha := below a (by omega)
      rw [if_pos hax]
      by_cases hb : b = 0
      · rw [if_pos hb]
        by_cases hk : k = a
        · rw [if_pos hk, hk, cellByte, if_neg (by omega), ha, hb]
        · rw [if_neg hk]
      · rw [if_neg hb, cellByte]
        by_cases hk : k = a
        · rw [if_pos hk, if_pos hk.symm]
        · rw [if_neg hk, if_neg (Ne.symm hk)]
    · rw [if_neg hax]
      by_cases hx : a = x
      · have ha := below a (by omega)
        rw [if_pos hx]
        by_cases hk : k = a
        · rw [if_pos hk, hk]
          by_cases hb : b = 0
          · rw [if_pos hb, ha, hb]
          · rw [if_neg hb, cellByte, if_pos rfl]
        · have hxk : ¬x = k := by omega
          rw [if_neg hk, cellByte, if_neg hxk]
          by_cases hb : b = 0
          · rw [if_pos hb]
          · rw [if_neg hb, cellByte, if_neg (Ne.symm hk)]
      · rw [if_neg hx, cellByte, ih h.2.2.2, cellByte]
        by_cases hk : k = a
        · rw [if_pos hk, if_pos hk, if_neg (by omega)]
        · rw [if_neg hk, if_neg hk]

theorem cellWrite_wf {lo len : Nat} {cs : List Host.Cell} (h : cellsWf lo len cs = true) {a : Nat}
    (hlo : lo ≤ a) (ha : a < len) (b : Byte) : cellsWf lo len (cellWrite cs a b) = true := by
  induction cs generalizing lo with
  | nil =>
    unfold cellWrite; split
    · rfl
    · simp_all [cellsWf]
  | cons c r ih =>
    obtain ⟨x, y⟩ := c
    have h' := cellsWf_cons.1 h
    unfold cellWrite
    split
    · split
      · exact h
      · rw [cellsWf_cons, cellsWf_cons]
        exact ⟨hlo, ha, by assumption, by omega, h'.2.1, h'.2.2.1, h'.2.2.2⟩
    · split
      · split
        · exact cellsWf_weaken h'.2.2.2 (by omega) le_rfl
        · subst a; exact cellsWf_cons.2 ⟨hlo, ha, by assumption, h'.2.2.2⟩
      · rw [cellsWf_cons]
        exact ⟨h'.1, h'.2.1, h'.2.2.1, ih h'.2.2.2 (by omega)⟩

theorem cellsWrite_wf {len : Nat} {cs : List Host.Cell} (h : cellsWf 0 len cs = true) {a : Nat} {bs : List Byte}
    (hlen : a + bs.length ≤ len) : cellsWf 0 len (cellsWrite cs a bs) = true := by
  induction bs generalizing cs a with
  | nil => exact h
  | cons b bs ih =>
    rw [List.length_cons] at hlen
    exact ih (cellWrite_wf h (Nat.zero_le _) (by omega) b) (by omega)

theorem cellByte_cellsWrite {len : Nat} {cs : List Host.Cell} (h : cellsWf 0 len cs = true) {a : Nat}
    {bs : List Byte} (hlen : a + bs.length ≤ len) (k : Nat) :
    cellByte (cellsWrite cs a bs) k =
      if a ≤ k ∧ k < a + bs.length then bs.getD (k - a) 0 else cellByte cs k := by
  induction bs generalizing cs a with
  | nil => rw [if_neg (by simp)]; rfl
  | cons b bs ih =>
    rw [List.length_cons] at hlen
    rw [cellsWrite, ih (cellWrite_wf h (Nat.zero_le _) (by omega) b) (by omega), cellByte_cellWrite h,
      List.length_cons]
    by_cases hk : k = a
    · subst k; simp
    · by_cases hin : a + 1 ≤ k ∧ k < a + 1 + bs.length
      · have hs : k - a = (k - (a + 1)) + 1 := by omega
        rw [if_pos hin, if_pos (by omega), hs, List.getD_cons_succ]
      · rw [if_neg hin, if_neg hk, if_neg (by omega)]

/-- Placing bytes keeps the canonical form. -/
theorem Rom.place_wf {m : Rom} (h : m.wf = true) (a : Nat) (bs : List Byte) : (m.place a bs).wf = true :=
  cellsWrite_wf (cellsWf_weaken h le_rfl (Nat.le_max_left _ _)) (Nat.le_max_right _ _)

theorem cellsOf_wf (a : Nat) (bs : List Byte) : cellsWf a (a + bs.length) (cellsOf a bs) = true := by
  induction bs generalizing a with
  | nil => rfl
  | cons b bs ih =>
    have := ih (a + 1)
    unfold cellsOf
    split
    · exact cellsWf_weaken this (by omega) (by rw [List.length_cons]; omega)
    · rw [cellsWf_cons]
      exact ⟨le_rfl, by simp, by assumption, cellsWf_weaken this le_rfl (by rw [List.length_cons]; omega)⟩

/-- A loaded image is in canonical form. -/
theorem Rom.ofBytes_wf (image : List Byte) : (Rom.ofBytes image).wf = true := by
  unfold Rom.wf Rom.ofBytes; simpa using cellsOf_wf 0 image

theorem cellByte_cellsOf (a k : Nat) (bs : List Byte) :
    cellByte (cellsOf a bs) (a + k) = bs.getD k 0 := by
  induction bs generalizing a k with
  | nil => simp [cellsOf, cellByte]
  | cons b bs ih =>
    cases k with
    | zero =>
      unfold cellsOf
      split
      · rw [cellByte_below (cellsOf_wf (a + 1) bs) (by omega)]; simp_all
      · simp [cellByte]
    | succ k =>
      have := ih (a + 1) k
      rw [show a + (k + 1) = a + 1 + k by omega]
      unfold cellsOf
      split
      · simpa using this
      · rw [cellByte, if_neg (by omega)]; simpa using this

/-- The reset ROM is in canonical form. -/
theorem reset_rom_wf : State.reset.rom.wf = true := rfl

/-! ### MemRead -/

theorem memRead_ok_iff {m : Rom} {a : Int} {b : Byte} : memRead m a = .ok b ↔ romByte m a = some b := by
  unfold memRead; split <;> simp_all

theorem memRead_error_iff {m : Rom} {a : Int} {f : FaultInfo} :
    memRead m a = .error f ↔ romByte m a = none ∧ f = ⟨.outOfBounds, .bytePastEnd, a⟩ := by
  unfold memRead
  cases romByte m a <;> simp [eq_comm]

theorem readBytes_length {m : Rom} {a : Int} {n : Nat} {bs : List Byte} (h : readBytes m a n = .ok bs) :
    bs.length = n := by
  induction n generalizing a bs with
  | zero => simp [readBytes] at h; subst h; rfl
  | succ n ih =>
    unfold readBytes at h
    split at h
    · cases h
    · split at h
      · cases h
      · cases h; simp [ih (by assumption)]

/-- `n` bytes read are the ROM's bytes from `a` on. -/
theorem readBytes_ok_iff {m : Rom} {a : Int} {n : Nat} {bs : List Byte} :
    readBytes m a n = .ok bs ↔ bs.length = n ∧ ∀ k : Nat, k < n → romByte m (a + k) = bs[k]? := by
  induction n generalizing a bs with
  | zero => cases bs <;> simp [readBytes]
  | succ n ih =>
    constructor
    · intro h
      refine ⟨readBytes_length h, fun k hk => ?_⟩
      unfold readBytes at h
      split at h
      · cases h
      · rename_i b hb
        split at h
        · cases h
        · rename_i r hr
          cases h
          cases k with
          | zero => simpa using memRead_ok_iff.1 hb
          | succ k =>
            have := (ih.1 hr).2 k (by omega)
            rw [List.getElem?_cons_succ, ← this]
            congr 1; push_cast; omega
    · rintro ⟨hl, h⟩
      cases bs with
      | nil => simp at hl
      | cons b r =>
        have h0 : memRead m a = .ok b := memRead_ok_iff.2 (by simpa using h 0 (by omega))
        have hr : readBytes m (a + 1) n = .ok r := by
          refine ih.2 ⟨by simpa using hl, fun k hk => ?_⟩
          have := h (k + 1) (by omega)
          rw [List.getElem?_cons_succ] at this
          rw [← this]; congr 1; push_cast; omega
        simp [readBytes, h0, hr]

/-- A read that fails reports the first address the ROM does not have. -/
theorem readBytes_error {m : Rom} {a : Int} {n : Nat} {f : FaultInfo} (h : readBytes m a n = .error f) :
    ∃ k : Nat, k < n ∧ romByte m (a + k) = none ∧ (∀ j : Nat, j < k → romByte m (a + j) ≠ none) ∧
      f = ⟨.outOfBounds, .bytePastEnd, a + k⟩ := by
  induction n generalizing a with
  | zero => simp [readBytes] at h
  | succ n ih =>
    unfold readBytes at h
    split at h
    · rename_i e he
      cases h
      obtain ⟨hn, rfl⟩ := memRead_error_iff.1 he
      exact ⟨0, by omega, by simpa using hn, by simp, by simp⟩
    · rename_i b hb
      split at h
      · rename_i e he
        cases h
        obtain ⟨k, hk, hn, hj, rfl⟩ := ih he
        refine ⟨k + 1, by omega, ?_, ?_, ?_⟩
        · rw [← hn]; congr 1; push_cast; omega
        · intro j hj'
          cases j with
          | zero => simp [memRead_ok_iff.1 hb]
          | succ j =>
            have := hj j (by omega)
            rw [show a + ((j + 1 : Nat) : Int) = a + 1 + (j : Int) by push_cast; omega]
            exact this
        · congr 1; push_cast; omega
      · cases h

end Sys2Proof.Machine
end

