-- ==== Sys2Proof/Laws/Ops.lean ====
section
/-! SUPPORT. One lemma per shared operation: everything it can do. Later proofs cite these and unfold nothing. -/

namespace Sys2Proof.Machine

/-! ### Reading registers -/

/-- A register that holds a value reads as it (00_scope.md R13). -/
@[simp] theorem held_some {α : Type} (r : Reg) (a : α) : held r (some a) = .ok a := rfl

/-- A register that holds no value is refused (00_scope.md R13). -/
@[simp] theorem held_none {α : Type} (r : Reg) : held r (none : Option α) = .error (.noValue r) := rfl

@[simp] theorem need_some {α : Type} (r : Reg) (a : α) (k : α → StepOutcome) : need r (some a) k = k a := rfl

/-- A meaning that reads a register answers a next state only where the register holds a value. -/
theorem need_next {α : Type} {r : Reg} {v : Option α} {k : α → StepOutcome} {t : State}
    (h : need r v k = .next t) : ∃ a, v = some a ∧ k a = .next t := by
  cases v with
  | none => cases h
  | some a => exact ⟨a, rfl, h⟩

theorem inStep_of {k : StepKind} {s : State} (h : InStep k s) (body : StepOutcome) : inStep k s body = body :=
  if_pos h

/-- A decode step's unit answers a next state only where its step is the enabled one. -/
theorem inStep_next {k : StepKind} {s : State} {body : StepOutcome} {t : State}
    (h : inStep k s body = .next t) : InStep k s ∧ body = .next t := by
  unfold inStep at h
  split at h
  · exact ⟨by assumption, h⟩
  · cases h

/-! ### Output -/

theorem writeOut_getElem (o : Vector (Option Byte) 512) (n : Nat) (bs : List Byte) (j : Nat) (hj : j < 512) :
    (writeOut o n bs)[j] = if n ≤ j ∧ j < n + bs.length then bs[j - n]? else o[j] := by
  induction bs generalizing o n with
  | nil => rw [if_neg (by simp)]; rfl
  | cons b bs ih =>
    rw [writeOut, ih, Vector.getElem_setIfInBounds, List.length_cons]
    by_cases h : n + 1 ≤ j ∧ j < n + 1 + bs.length
    · rw [if_pos h, if_pos (by omega), show j - n = (j - (n + 1)) + 1 by omega, List.getElem?_cons_succ]
    · rw [if_neg h]
      by_cases hn : n = j
      · subst hn; simp
      · rw [if_neg hn, if_neg (by omega)]

/-- What each OUT byte holds after `bs` is output at `n`. -/
theorem emit_outAt (n : Nat) (bs : List Byte) (s : State) (j : Nat) (hj : j < 512) :
    (emit n bs s).outAt j = if n ≤ j ∧ j < n + bs.length then bs[j - n]? else s.outAt j := by
  simp only [State.outAt, dif_pos hj, emit_out, writeOut_getElem]

@[simp] theorem emit_dictAt (n : Nat) (bs : List Byte) (s : State) (k : Nat) :
    (emit n bs s).dictAt k = s.dictAt k := rfl

@[simp] theorem complete_outAt (e : Nat) (s : State) (j : Nat) : (complete e s).outAt j = s.outAt j := by
  simp [State.outAt]

@[simp] theorem complete_dictAt (e : Nat) (s : State) (k : Nat) : (complete e s).dictAt k = s.dictAt k := by
  simp [State.dictAt]

theorem loadDict_dictAt (d : Vector Byte 16) (s : State) (k : Nat) (hk : k < 16) :
    (loadDict d s).dictAt k = some d[k] := by
  simp [State.dictAt, hk, loadDict]

theorem outAt_replicate {s : State} {v : Option Byte} (h : s.out = Vector.replicate 512 v) (j : Nat) (hj : j < 512) :
    s.outAt j = v := by
  simp [State.outAt, hj, h]

theorem dictAt_replicate {s : State} {v : Option Byte} (h : s.dict = Vector.replicate 16 v) (k : Nat) (hk : k < 16) :
    s.dictAt k = v := by
  simp [State.dictAt, hk, h]

theorem outAt_ge (s : State) (j : Nat) (hj : 512 ≤ j) : s.outAt j = none := by
  simp [State.outAt]; omega

theorem dictAt_ge (s : State) (k : Nat) (hk : 16 ≤ k) : s.dictAt k = none := by
  simp [State.dictAt]; omega

/-! ### The Bit Stream Reader -/

/-- `bit()` inside the stream: the bit `7 - p mod 8` of the byte `BB + p div 8`. -/
theorem readBit_ok {m : Rom} {bb : Int} {p : Nat} {b : Byte} (hp : (p : Int) < bitLen m bb)
    (hb : romByte m (bb + (p / 8 : Nat)) = some b) :
    readBit m bb p = .ok (b.getLsbD (7 - p % 8), p + 1) := by
  rw [readBit, if_neg (by omega), memRead_ok_iff.2 hb]

theorem readBit_pastEnd {m : Rom} {bb : Int} {p : Nat} (hp : bitLen m bb ≤ p) :
    readBit m bb p = .error ⟨.outOfBounds, .bitPastEnd, bb + (p / 8 : Nat)⟩ := by
  rw [readBit, if_pos hp]

theorem readBit_cursor {m : Rom} {bb : Int} {p q : Nat} {b : Bool} (h : readBit m bb p = .ok (b, q)) :
    q = p + 1 ∧ (p : Int) < bitLen m bb := by
  unfold readBit at h
  split at h
  · cases h
  · split at h
    · cases h
    · cases h; exact ⟨rfl, by omega⟩

theorem readBitList_cursor {m : Rom} {bb : Int} {n p q : Nat} {bs : List Bool}
    (h : readBitList m bb n p = .ok (bs, q)) : q = p + n ∧ bs.length = n := by
  induction n generalizing p bs with
  | zero => cases h; exact ⟨rfl, rfl⟩
  | succ n ih =>
    unfold readBitList at h
    split at h
    · cases h
    · rename_i b p' hb
      obtain ⟨rfl, _⟩ := readBit_cursor hb
      split at h
      · cases h
      · rename_i cs q' hcs
        cases h
        obtain ⟨rfl, rfl⟩ := ih hcs
        exact ⟨by omega, by simp⟩

/-! ### Fetching -/

theorem decodeDict_length {bs : List Byte} (h : bs.length = 16) :
    decodeDict bs = .ok (.dictLoad ⟨⟨bs⟩, h⟩) := dif_pos h

/-- The dictionary unit read is the 16 bytes at SRC, and its own rejection is never reached. -/
theorem fetchDict_ok {m : Rom} {a : Int} {bs : List Byte} (h : readBytes m a 16 = .ok bs) :
    fetchDict m a = .unit (.dictLoad ⟨⟨bs⟩, readBytes_length h⟩) := by
  rw [fetchDict, h]
  simp [decodeDict_length (readBytes_length h)]

/-- What a decode step's unit may change (10_state.md R40; 60_exceptions.md R217): everything but the cursors, the
output, the dictionary, ENDOFF, STATE and the fault registers is as it was. -/
abbrev StepFrame (s t : State) : Prop :=
  KeepsInputs s t ∧ KeepsResolution s t

theorem takeFault_frame (f : FaultInfo) (s : State) : StepFrame s (takeFault f s) :=
  ⟨⟨rfl, rfl, rfl, rfl, rfl⟩, rfl, rfl, rfl⟩

/-- The one engine step of a state in BUSY. -/
theorem fetch_engineTurn {s : State} (h : EngineTurn s) : fetch s = fetchStep s := by
  unfold fetch
  rcases h with h | h
  · rw [h]
  · cases hh : s.host with
    | nil => simp [hh] at h
    | cons c q => simp only [hh, List.head?_cons, Option.some.injEq] at h; subst h; rfl

/-- Everything a step can be. -/
theorem step_cases (s : State) :
    (fetch s = .nothing ∧ step s = .next (takeCommand s)) ∨
    (∃ i, fetch s = .unit i ∧ step s = exec i (takeCommand s)) ∨
    (∃ f, fetch s = .raise f ∧ step s = .next (takeFault f (takeCommand s))) ∨
    (∃ op, fetch s = .access op ∧ step s = hostAccess op (takeCommand s)) ∨
    (∃ r, fetch s = .refused r ∧ step s = .refused r) := by
  unfold step
  cases fetch s with
  | nothing => exact .inl ⟨rfl, rfl⟩
  | unit i => exact .inr (.inl ⟨i, rfl, rfl⟩)
  | raise f => exact .inr (.inr (.inl ⟨f, rfl, rfl⟩))
  | access op => exact .inr (.inr (.inr (.inl ⟨op, rfl, rfl⟩)))
  | refused r => exact .inr (.inr (.inr (.inr ⟨r, rfl, rfl⟩)))

/-! ### START -/

/-- Everything START can answer with a next state: it was legal, and the state is the resolution's. -/
theorem start_next {mode : Byte} {raw : BitVec 24} {s t : State} (h : start mode raw s = .next t) :
    ∃ base, StartReady s base ∧ t = resolve mode raw base s := by
  unfold start at h
  split at h
  · cases h
  · split at h
    · cases h
    · split at h
      · cases h
      · rename_i base hb
        cases h
        exact ⟨base, ⟨by assumption, by assumption, hb⟩, rfl⟩

theorem start_ready {s : State} {base : Nat} (h : StartReady s base) (mode : Byte) (raw : BitVec 24) :
    start mode raw s = .next (resolve mode raw base s) := by
  rw [start, if_neg h.1, if_neg h.2.1, h.2.2]

/-- The four ways entry resolution ends (60_exceptions.md R220). A fault leaves the state as it was before START but for
MODE, OFFSET, SRC, the fault registers and STATE (R217); the others clear it first (40_entry_resolve.md R100). -/
theorem resolve_cases (mode : Byte) (raw : BitVec 24) (base : Nat) (s : State) :
    (2 < mode.toNat ∧ resolve mode raw base s =
      faultStart ⟨.unsupportedBlockMode, .noCause, 0⟩ mode (sext24 raw) none s) ∨
    (mode = 0 ∧ sext24 raw = 0 ∧ resolve mode raw base s = zeroBlock (acceptStart mode (sext24 raw) none s)) ∨
    (mode.toNat ≤ 2 ∧ ¬(mode = 0 ∧ sext24 raw = 0) ∧
      (base + sext24 raw < 0 ∨ (s.rom.len : Int) ≤ base + sext24 raw) ∧
      resolve mode raw base s = faultStart ⟨.outOfBounds, .startOutside, base + sext24 raw⟩ mode (sext24 raw)
        (some (base + sext24 raw)) s) ∨
    (mode.toNat ≤ 2 ∧ ¬(mode = 0 ∧ sext24 raw = 0) ∧ 0 ≤ base + sext24 raw ∧
      base + sext24 raw < s.rom.len ∧
      resolve mode raw base s = beginDecode (base + sext24 raw)
        (acceptStart mode (sext24 raw) (some (base + sext24 raw)) s)) := by
  unfold resolve locate
  by_cases h1 : 2 < mode.toNat
  · exact .inl ⟨h1, if_pos h1⟩
  · by_cases h2 : mode = 0 ∧ sext24 raw = 0
    · exact .inr (.inl ⟨h2.1, h2.2, (if_neg h1).trans (if_pos h2)⟩)
    · by_cases h3 : base + sext24 raw < 0 ∨ (s.rom.len : Int) ≤ base + sext24 raw
      · exact .inr (.inr (.inl ⟨by omega, h2, h3, (if_neg h1).trans ((if_neg h2).trans (if_pos h3))⟩))
      · exact .inr (.inr (.inr ⟨by omega, h2, by omega, by omega,
          (if_neg h1).trans ((if_neg h2).trans (if_neg h3))⟩))

/-! ### The commands and codes -/

/-- Everything a literal or repeat command can do once its step is enabled (42_mode1_rle.md R142, R143, R145). -/
theorem performRun_next {len operands : Nat} {run : Rom → Int → Except FaultInfo (List Byte)} {s t : State}
    (h : performRun len operands run s = .next t) :
    ∃ src p n, s.src = some src ∧ s.iptr = some p ∧ s.ocnt = some n ∧
      ((512 < n + len ∧ t = takeFault ⟨.outOfBounds, .runOverflow, p⟩ s) ∨
       (n + len ≤ 512 ∧ ∃ f, run s.rom (p + 1) = .error f ∧ t = takeFault f s) ∨
       (n + len ≤ 512 ∧ ∃ bs, run s.rom (p + 1) = .ok bs ∧
          t = finishRun src n (p + 1 + operands) bs s)) := by
  obtain ⟨src, hsrc, h⟩ := need_next h
  obtain ⟨p, hp, h⟩ := need_next h
  obtain ⟨n, hn, h⟩ := need_next h
  refine ⟨src, p, n, hsrc, hp, hn, ?_⟩
  split at h
  · cases h; exact .inl ⟨by assumption, rfl⟩
  · rename_i hle
    have hle : n + len ≤ 512 := by simpa using hle
    split at h
    · cases h; exact .inr (.inl ⟨hle, _, by assumption, rfl⟩)
    · cases h; exact .inr (.inr ⟨hle, _, by assumption, rfl⟩)

/-- What a literal or repeat command does where its registers hold values: the three cases of 60_exceptions.md R221. -/
theorem performRun_of {len operands : Nat} {run : Rom → Int → Except FaultInfo (List Byte)} {s : State} {src : Int}
    {p n : Nat} (hsrc : s.src = some src) (hp : s.iptr = some p) (hn : s.ocnt = some n) :
    (512 < n + len → performRun len operands run s = .next (takeFault ⟨.outOfBounds, .runOverflow, p⟩ s)) ∧
    (n + len ≤ 512 → ∀ f, run s.rom (p + 1) = .error f → performRun len operands run s = .next (takeFault f s)) ∧
    (n + len ≤ 512 → ∀ bs, run s.rom (p + 1) = .ok bs →
      performRun len operands run s = .next (finishRun src n (p + 1 + operands) bs s)) := by
  unfold performRun
  simp only [hsrc, hp, hn, need_some]
  refine ⟨fun h => if_pos h, fun h f hf => ?_, fun h bs hbs => ?_⟩
  · rw [if_neg (by simpa using h), hf]
  · rw [if_neg (by simpa using h), hbs]

/-- Everything a mode-2 code can do once its step is enabled (43_mode2_bitpacked.md R172 to R174). -/
theorem finishCode_next {len : Nat} {b : Byte} {s t : State} (h : finishCode len b s = .next t) :
    ∃ p n, s.bptr = some p ∧ s.ocnt = some n ∧ n < 512 ∧
      t = complete (byteOffset (p + len)) { emit n [b] s with bptr := some (p + len) } := by
  obtain ⟨p, hp, h⟩ := need_next h
  obtain ⟨n, hn, h⟩ := need_next h
  refine ⟨p, n, hp, hn, ?_⟩
  split at h
  · cases h; exact ⟨by assumption, rfl⟩
  · cases h

theorem litRun_length {m : Rom} {a : Int} {c : Byte} {bs : List Byte} (h : litRun m a c = .ok bs) :
    bs.length = litLen c := readBytes_length h

theorem repRun_length {m : Rom} {a : Int} {c : Byte} {bs : List Byte} (h : repRun m a c = .ok bs) :
    bs.length = repLen c := by
  unfold repRun at h
  split at h
  · cases h
  · cases h; simp

/-! ### Host accesses -/

/-- Everything a host access can answer with a next state. -/
theorem hostAccess_next {op : PortOp} {s t : State} (h : hostAccess op s = .next t) :
    (∃ w, op = .writeEntry w ∧ s.ctrl ≠ .busy ∧ t = { s with entry := some w }) ∨
    (∃ n, op = .writeDataBase n ∧ s.ctrl ≠ .busy ∧ t = { s with dataBase := some n }) ∨
    (∃ w, op = .writeStatus w ∧ t = s) ∨
    (∃ image, op = .loadRom image ∧ s.ctrl ≠ .busy ∧ s.rom.admits image.length ∧ t = { s with rom := Rom.ofBytes image }) ∨
    (op = .reset ∧ t = resetEngine s) ∨
    (∃ r v, op = .read r ∧ readReg r s = .ok v ∧ t = { s with hostData := some v }) := by
  cases op with
  | writeEntry w =>
    simp only [hostAccess] at h
    split at h
    · cases h
    · cases h; exact .inl ⟨w, rfl, by assumption, rfl⟩
  | writeDataBase n =>
    simp only [hostAccess] at h
    split at h
    · cases h
    · cases h; exact .inr (.inl ⟨n, rfl, by assumption, rfl⟩)
  | writeStatus w => cases h; exact .inr (.inr (.inl ⟨w, rfl, rfl⟩))
  | loadRom image =>
    simp only [hostAccess] at h
    split at h
    · cases h
    · split at h
      · rename_i hb ha
        cases h; exact .inr (.inr (.inr (.inl ⟨image, rfl, hb, ha, rfl⟩)))
      · cases h
  | reset => cases h; exact .inr (.inr (.inr (.inr (.inl ⟨rfl, rfl⟩))))
  | read r =>
    simp only [hostAccess] at h
    split at h
    · cases h
    · rename_i v hv
      cases h; exact .inr (.inr (.inr (.inr (.inr ⟨r, v, rfl, hv, rfl⟩))))

end Sys2Proof.Machine
end

