-- ==== Sys2Proof/Laws/PerInstr.lean ====
section
/-! SUPPORT. Facts about every unit as data, one lemma a constructor. -/

namespace Sys2Proof.Laws.EncodedLength

/-- The unit's encoding has the length 30_encoding.md R70 gives its format. -/
def Statement (i : Instr) : Prop :=
  (encode i).length = i.bitLength

theorem entZero : Statement .entZero := by simp [Statement, encode, Instr.bitLength]

theorem entNeg (rawOffset : BitVec 24) : Statement (.entNeg rawOffset) := by
  simp [Statement, encode, Instr.bitLength]

theorem entRle (rawOffset : BitVec 24) : Statement (.entRle rawOffset) := by
  simp [Statement, encode, Instr.bitLength]

theorem entBitpack (rawOffset : BitVec 24) : Statement (.entBitpack rawOffset) := by
  simp [Statement, encode, Instr.bitLength]

theorem entBadMode (mode : Byte) (rawOffset : BitVec 24) : Statement (.entBadMode mode rawOffset) := by
  simp [Statement, encode, Instr.bitLength]

theorem negByte (b : Byte) : Statement (.negByte b) := by simp [Statement, encode, Instr.bitLength]

theorem rleLit (c : Byte) : Statement (.rleLit c) := by simp [Statement, encode, Instr.bitLength]

theorem rleNop : Statement .rleNop := by simp [Statement, encode, Instr.bitLength]

theorem rleRep (c : Byte) : Statement (.rleRep c) := by simp [Statement, encode, Instr.bitLength]

theorem dictLoad (d : Vector Byte 16) : Statement (.dictLoad d) := by
  simp [Statement, encode, Instr.bitLength]

theorem m2Hit (i : BitVec 4) : Statement (.m2Hit i) := by simp [Statement, encode, Instr.bitLength]

theorem m2Lit (b : Byte) : Statement (.m2Lit b) := by simp [Statement, encode, Instr.bitLength]

end Sys2Proof.Laws.EncodedLength
end

