-- ==== Sys2Proof/Laws/Steps.lean ====
section
/-! SUPPORT. What the operand readers, completion, and one step of the engine can do, in the terms of Safety. -/

namespace Sys2Proof.Machine

/-- Only the field 0 extends to 0 (30_encoding.md R74). -/
theorem sext24_zero_iff (v : BitVec 24) : sext24 v = 0 ↔ v = 0 := by
    have := v.isLt
    unfold sext24
    constructor
    · intro h; apply BitVec.eq_of_toNat_eq; show v.toNat = 0; split at h <;> omega
    · rintro rfl; rfl

/-- The negated byte as a number (41_mode0.md R121). -/
theorem negate_eq (b : Byte) : negate b = BitVec.ofNat 8 ((256 - b.toNat) % 256) := by
  apply BitVec.eq_of_toNat_eq
  have := b.isLt
  simp [negate]

/-- No OUT byte holds a value after the clearing of START. -/
theorem outAt_cleared {s : State} (h : s.out = Vector.replicate 512 none) (j) : s.outAt j = none := by
  by_cases hj : j < 512
  · exact outAt_replicate h j hj
  · exact outAt_ge s j (by omega)

/-- No DICT byte holds a value after the clearing of START. -/
theorem dictAt_cleared {s : State} (h : s.dict = Vector.replicate 16 none) (j) : s.dictAt j = none := by
  by_cases hj : j < 16
  · exact dictAt_replicate h j hj
  · exact dictAt_ge s j (by omega)

/-- A run written where it fits is the output of exactly its bytes (20_memory.md R59). -/
theorem outputs_of {n : Nat} {bs : List Byte} {s t : State} (h : t.out = writeOut s.out n bs) (hn : n + bs.length ≤ 512) : Outputs n bs s t := by
  intro j
  by_cases hj : j < 512
  · simp only [State.outAt, dif_pos hj, h, writeOut_getElem]
  · rw [outAt_ge t j (by omega), outAt_ge s j (by omega), if_neg (by omega)]

/-- Completion writes ENDOFF and STATE only. -/
theorem complete_eq (e : Nat) (u : State) : complete e u = { u with endoff := (complete e u).endoff, ctrl := (complete e u).ctrl } := by
  by_cases h : u.ocnt = some 512
  · rw [complete_of_full h]
  · rw [complete_of_notFull h]

/-- Completion after an output (40_entry_resolve.md R109). -/
theorem completes_complete {e : Nat} {s u : State} (hu : u.ctrl = .busy) (he : u.endoff = s.endoff) : Completes e s (complete e u) := by
  constructor
  · intro h; rw [complete_ocnt] at h; rw [complete_of_full h]; exact ⟨rfl, rfl⟩
  · intro h; rw [complete_ocnt] at h; rw [complete_of_notFull h]; exact ⟨hu, he⟩

/-- The fault of a byte sequence is that of its first address that names no byte (60_exceptions.md R222). -/
theorem readBytes_first {m : Rom} {a : Int} {n k : Nat} (hk : k < n) (hnone : romByte m (a + k) = none) (hj : ∀ j : Nat, j < k → romByte m (a + j) ≠ none) :
   readBytes m a n = .error ⟨.outOfBounds, .bytePastEnd, a + k⟩ := by
  cases h : readBytes m a n with
  | ok bs => 
    obtain ⟨hl, hb⟩ := readBytes_ok_iff.1 h
    have := hb k hk
    rw [hnone] at this
    rw [List.getElem?_eq_getElem (by omega)] at this; cases this
  | error f =>
    obtain ⟨k', h1, h2, h3, rfl⟩ := readBytes_error h
    have : k = k' := by
      by_contra hne
      rcases Nat.lt_or_gt_of_ne hne with h | h
      · exact h3 k h hnone
      · exact hj k' h h2
    subst this; rfl

/-- `bits(n)` is the number of the bits read. -/
theorem readBits_ok_list {m bb n p v q} (h : readBits m bb n p = .ok (v, q)) : ∃ bs, readBitList m bb n p = .ok (bs, q) ∧ v = natOfBits bs := by
  unfold readBits at h; split at h
  · cases h
  · cases h; exact ⟨_, by assumption, rfl⟩

/-- The fault of `bits(n)` is that of its bits. -/
theorem readBits_error_list {m bb n p f} (h : readBits m bb n p = .error f) : readBitList m bb n p = .error f := by
  unfold readBits at h; split at h
  · cases h; assumption
  · cases h

/-- Bits that run past the stream end fault at ROM_LEN (60_exceptions.md R214). -/
theorem readBitList_pastEnd {m : Rom} {a : Nat} {n q : Nat} (ha : a + 16 ≤ m.len) (hq : q ≤ 8 * (m.len - (a + 16))) (h : 8 * (m.len - (a+16)) < q + n) :
   readBitList m (bitBase a) n q = .error ⟨.outOfBounds, .bitPastEnd, m.len⟩ := by
  induction n generalizing q with
  | zero => omega
  | succ n ih =>
    by_cases hq' : q = 8 * (m.len - (a+16))
    · have : readBit m (bitBase a) q = .error ⟨.outOfBounds, .bitPastEnd, m.len⟩ := by
        rw [readBit_pastEnd (by unfold bitLen bitBase; omega)]
        congr 2; unfold bitBase; omega
      rw [readBitList]; simp only [this]
    · have hlt : q < 8 * (m.len - (a+16)) := by omega
      have hb := romByte_inside (m := m) (a := a + 16 + q/8) (by omega)
      have : readBit m (bitBase a) q = .ok (_, q+1) := readBit_ok (by unfold bitLen bitBase; omega) (by unfold bitBase; push_cast at hb; exact hb)
      rw [readBitList]; simp only [this, ih (q := q+1) (by omega) (by omega)]

/-- The last bit read split off. -/
theorem readBitList_snoc {m bb n p} : readBitList m bb (n+1) p = match readBitList m bb n p with
   | .error f => .error f
   | .ok (bs, q) => match readBit m bb q with
     | .error f => .error f
     | .ok (b, r) => .ok (bs ++ [b], r) := by
  induction n generalizing p with
  | zero =>
    simp only [readBitList]
    cases readBit m bb p with
    | error f => rfl
    | ok x => rfl
  | succ n ih =>
    rw [readBitList]
    conv => rhs; rw [readBitList]
    cases h : readBit m bb p with
    | error f => rfl
    | ok x =>
      simp only
      rw [ih]
      cases readBitList m bb n x.2 with
      | error f => rfl
      | ok y =>
        simp only
        cases readBit m bb y.2 with
        | error f => rfl
        | ok z => rfl

/-- The mode of an enabled engine step. -/
theorem stepping_mode {s : State} {k : StepKind} (h : Stepping k s) : ∃ m, s.mode = some m ∧ stepKind m s.dictValid = k ∧ s.ctrl = .busy := by
  obtain ⟨_, hb, hm⟩ := h
  cases hmm : s.mode with
  | none => simp [hmm] at hm
  | some m => simp [hmm] at hm; exact ⟨m, rfl, hm, hb⟩

/-- A register that holds a value is what the fetch goes on with. -/
@[simp] theorem fetchNeed_some {α : Type} (r : Reg) (a : α) (k : α → Fetched) : fetchNeed r (some a) k = k a := rfl

/-- Every unit an engine step reads, with the place it was read from (40_entry_resolve.md R108). -/
theorem fetchStep_unit {s : State} {i : Instr} (h : fetchStep s = .unit i) :
    s.ctrl = .busy ∧ ∃ m, s.mode = some m ∧
    ((stepKind m s.dictValid = .neg ∧ ∃ p b, s.iptr = some p ∧ romByte s.rom p = some b ∧ i = .negByte b) ∨
     (stepKind m s.dictValid = .rle ∧ ∃ p b, s.iptr = some p ∧ romByte s.rom p = some b ∧ i = decodeCmd b) ∨
     (stepKind m s.dictValid = .dictLoad ∧ ∃ a bs, ∃ h : readBytes s.rom a 16 = .ok bs, s.src = some a ∧ i = .dictLoad ⟨⟨bs⟩, readBytes_length h⟩) ∨
     (stepKind m s.dictValid = .code ∧ ∃ a p f q bs r, s.src = some a ∧ s.bptr = some p ∧ readBit s.rom (bitBase a) p = .ok (f, q) ∧
        readBitList s.rom (bitBase a) (if f then 4 else 8) q = .ok (bs, r) ∧ decode .code (f :: bs) = .ok (i, []))) := by
  unfold fetchStep at h
  split at h
  · rename_i hb
    refine ⟨hb, ?_⟩
    cases hm : s.mode with
    | none => rw [hm] at h; cases h
    | some m =>
      refine ⟨m, rfl, ?_⟩
      rw [hm] at h; simp only [fetchNeed_some] at h
      split at h
      · rename_i hk
        cases hp : s.iptr with
        | none => rw [hp] at h; cases h
        | some p =>
          rw [hp] at h; simp only [fetchNeed_some, fetchByte] at h
          split at h
          · cases h
          · rename_i b hb'; cases h; exact .inl ⟨hk, p, b, rfl, memRead_ok_iff.1 hb', rfl⟩
      · rename_i hk
        cases hp : s.iptr with
        | none => rw [hp] at h; cases h
        | some p =>
          rw [hp] at h; simp only [fetchNeed_some, fetchByte] at h
          split at h
          · cases h
          · rename_i b hb'; cases h; exact .inr (.inl ⟨hk, p, b, rfl, memRead_ok_iff.1 hb', rfl⟩)
      · rename_i hk
        cases hp : s.src with
        | none => rw [hp] at h; cases h
        | some a =>
          rw [hp] at h; simp only [fetchNeed_some] at h
          cases hr : readBytes s.rom a 16 with
          | error f => simp [fetchDict, hr] at h
          | ok bs => rw [fetchDict_ok hr] at h; cases h; exact .inr (.inr (.inl ⟨hk, a, bs, hr, rfl, rfl⟩))
      · rename_i hk
        cases ha : s.src with
        | none => rw [ha] at h; cases h
        | some a =>
          cases hp : s.bptr with
          | none => rw [ha, hp] at h; cases h
          | some p =>
            rw [ha, hp] at h; simp only [fetchNeed_some, fetchCode] at h
            split at h
            · cases h
            · rename_i f q hf
              split at h
              · cases h
              · rename_i bs r hbs
                split at h
                · rename_i j rest hd
                  cases h
                  refine .inr (.inr (.inr ⟨hk, a, p, f, q, bs, r, rfl, rfl, hf, hbs, ?_⟩))
                  have hl := (readBitList_cursor hbs).2
                  rw [hd]
                  rcases decode_code_ok hd with ⟨l, h1, h2, h3⟩ | ⟨l, h1, h2, h3⟩
                  · cases h2; simp at hl
                    have : rest = [] := by apply List.eq_nil_of_length_eq_zero; omega
                    rw [this]
                  · cases h2; simp at hl
                    have : rest = [] := by apply List.eq_nil_of_length_eq_zero; omega
                    rw [this]
                · cases h
      · cases h
  · cases h

/-- A register the fetch reads either holds a value or refuses the step. -/
theorem fetchNeed_eq {α : Type} {r : Reg} {v : Option α} {k : α → Fetched} {x : Fetched} (h : fetchNeed r v k = x) :
    x = .refused (.noValue r) ∨ ∃ a, v = some a ∧ k a = x := by
  cases v with
  | none => exact .inl h.symm
  | some a => exact .inr ⟨a, rfl, h⟩

theorem fetchByte_eq {m : Rom} {p : Nat} {d : Byte → Instr} {x : Fetched} (h : fetchByte m p d = x) :
    (romByte m p = none ∧ x = .raise ⟨.outOfBounds, .bytePastEnd, p⟩) ∨
      ∃ b, romByte m p = some b ∧ x = .unit (d b) := by
  unfold fetchByte at h
  split at h
  · rename_i f hf
    obtain ⟨h1, rfl⟩ := memRead_error_iff.1 hf
    exact .inl ⟨h1, h.symm⟩
  · rename_i b hb
    exact .inr ⟨b, memRead_ok_iff.1 hb, h.symm⟩

theorem fetchDict_eq {m : Rom} {a : Int} {x : Fetched} (h : fetchDict m a = x) :
    (∃ f, readBytes m a 16 = .error f ∧ x = .raise f) ∨ ∃ i, x = .unit i := by
  cases hr : readBytes m a 16 with
  | error f => exact .inl ⟨f, rfl, by rw [← h, fetchDict, hr]⟩
  | ok bs => exact .inr ⟨_, by rw [← h, fetchDict_ok hr]⟩

/-- The flag bit and 4 or 8 more are always a code (30_encoding.md R86). -/
theorem decode_flag {f : Bool} {bs : List Bool} (h : bs.length = if f then 4 else 8) :
    ∃ i, decode .code (f :: bs) = .ok (i, []) := by
  cases f with
  | true => exact ⟨_, by simpa using decode_hit (rest := []) (l := bs) (by simpa using h)⟩
  | false => exact ⟨_, by simpa using decode_lit (rest := []) (l := bs) (by simpa using h)⟩

theorem fetchCode_eq {m : Rom} {a : Int} {p : Nat} {x : Fetched} (h : fetchCode m a p = x) :
    (∃ f, readBit m (bitBase a) p = .error f ∧ x = .raise f) ∨
      (∃ c q f, readBit m (bitBase a) p = .ok (c, q) ∧
        readBitList m (bitBase a) (if c then 4 else 8) q = .error f ∧ x = .raise f) ∨
      ∃ i, x = .unit i := by
  unfold fetchCode at h
  split at h
  · exact .inl ⟨_, by assumption, h.symm⟩
  · rename_i c q hc
    split at h
    · exact .inr (.inl ⟨c, q, _, hc, by assumption, h.symm⟩)
    · rename_i bs r hbs
      obtain ⟨i, hi⟩ := decode_flag (readBitList_cursor hbs).2
      rw [hi] at h
      exact .inr (.inr ⟨i, h.symm⟩)

/-- Every way the bytes or bits of an engine step's unit can fault, with Internal for a mode that has no step. -/
theorem fetchStep_raise {s : State} {f : FaultInfo} (h : fetchStep s = .raise f) :
    s.ctrl = .busy ∧ ∃ m, s.mode = some m ∧
    ((∃ p : Nat, (stepKind m s.dictValid = .neg ∨ stepKind m s.dictValid = .rle) ∧ s.iptr = some p ∧
        romByte s.rom p = none ∧ f = ⟨.outOfBounds, .bytePastEnd, p⟩) ∨
     (stepKind m s.dictValid = .dictLoad ∧ ∃ a, s.src = some a ∧ readBytes s.rom a 16 = .error f) ∨
     (stepKind m s.dictValid = .code ∧ ∃ a p, s.src = some a ∧ s.bptr = some p ∧
        (readBit s.rom (bitBase a) p = .error f ∨
         ∃ c q, readBit s.rom (bitBase a) p = .ok (c, q) ∧
          readBitList s.rom (bitBase a) (if c then 4 else 8) q = .error f)) ∨
     (stepKind m s.dictValid = .internal ∧ f = ⟨.internal, .noCause, 0⟩)) := by
  unfold fetchStep at h
  split at h
  · rename_i hb
    rcases fetchNeed_eq h with h | ⟨m, hm, h⟩
    · cases h
    refine ⟨hb, m, hm, ?_⟩
    split at h
    · rename_i hk
      rcases fetchNeed_eq h with h | ⟨p, hp, h⟩
      · cases h
      rcases fetchByte_eq h with ⟨h1, h2⟩ | ⟨b, _, h2⟩
      · cases h2; exact .inl ⟨p, .inl hk, hp, h1, rfl⟩
      · cases h2
    · rename_i hk
      rcases fetchNeed_eq h with h | ⟨p, hp, h⟩
      · cases h
      rcases fetchByte_eq h with ⟨h1, h2⟩ | ⟨b, _, h2⟩
      · cases h2; exact .inl ⟨p, .inr hk, hp, h1, rfl⟩
      · cases h2
    · rename_i hk
      rcases fetchNeed_eq h with h | ⟨a, ha, h⟩
      · cases h
      rcases fetchDict_eq h with ⟨g, h1, h2⟩ | ⟨i, h2⟩
      · cases h2; exact .inr (.inl ⟨hk, a, ha, h1⟩)
      · cases h2
    · rename_i hk
      rcases fetchNeed_eq h with h | ⟨a, ha, h⟩
      · cases h
      rcases fetchNeed_eq h with h | ⟨p, hp, h⟩
      · cases h
      rcases fetchCode_eq h with ⟨g, h1, h2⟩ | ⟨c, q, g, h1, h3, h2⟩ | ⟨i, h2⟩
      · cases h2; exact .inr (.inr (.inl ⟨hk, a, p, ha, hp, .inl h1⟩))
      · cases h2; exact .inr (.inr (.inl ⟨hk, a, p, ha, hp, .inr ⟨c, q, h1, h3⟩⟩))
      · cases h2
    · rename_i hk
      cases h; exact .inr (.inr (.inr ⟨hk, rfl⟩))
  · cases h

/-- The engine makes no host access. -/
theorem fetchStep_ne_access (s : State) (op : PortOp) : fetchStep s ≠ .access op := by
  intro h
  unfold fetchStep at h
  split at h
  · rcases fetchNeed_eq h with h | ⟨m, hm, h⟩
    · cases h
    split at h
    · rcases fetchNeed_eq h with h | ⟨p, hp, h⟩
      · cases h
      rcases fetchByte_eq h with ⟨_, h⟩ | ⟨b, _, h⟩ <;> cases h
    · rcases fetchNeed_eq h with h | ⟨p, hp, h⟩
      · cases h
      rcases fetchByte_eq h with ⟨_, h⟩ | ⟨b, _, h⟩ <;> cases h
    · rcases fetchNeed_eq h with h | ⟨a, ha, h⟩
      · cases h
      rcases fetchDict_eq h with ⟨g, h1, h⟩ | ⟨i, h⟩ <;> cases h
    · rcases fetchNeed_eq h with h | ⟨a, ha, h⟩
      · cases h
      rcases fetchNeed_eq h with h | ⟨p, hp, h⟩
      · cases h
      rcases fetchCode_eq h with ⟨g, h1, h⟩ | ⟨c, q, g, h1, h3, h⟩ | ⟨i, h⟩ <;> cases h
    · cases h
  · cases h

theorem decodeCmd_format (c : Byte) : (decodeCmd c).format = .cmd8 := by
  unfold decodeCmd; split
  · rfl
  · split <;> rfl

theorem decodeEntry_format (w : Word) : (decodeEntry w).format = .entry32 := by
  unfold decodeEntry; repeat' split
  all_goals rfl

theorem fetchStep_unit_format {s : State} {i : Instr} (h : fetchStep s = .unit i) : i.format ≠ .entry32 := by
  obtain ⟨hb, m, hm, h⟩ := fetchStep_unit h
  rcases h with ⟨_, p, b, hp, hr, rfl⟩ | ⟨_, p, b, hp, hr, rfl⟩ | ⟨_, a, bs, hr, ha, rfl⟩ | ⟨_, a, p, f, q, bs, r, ha, hp, hf, hbs, hd⟩
  · simp [Instr.format]
  · simp [decodeCmd_format]
  · simp [Instr.format]
  · rcases decode_code_ok hd with ⟨l, h1, h2, rfl⟩ | ⟨l, h1, h2, rfl⟩ <;> simp [Instr.format]

/-- A list of host commands by its head. -/
theorem host_of_head {s : State} {c} (h : s.host.head? = some c) : ∃ q, s.host = c :: q := by
  cases hq : s.host with
  | nil => simp [hq] at h
  | cons d q => simp [hq] at h; subst h; exact ⟨q, rfl⟩

/-- Every entry word's unit is a START on its mode and offset. -/
theorem exec_entry_eq_start {i : Instr} (h : i.format = .entry32) : ∃ m raw, ∀ s, exec i s = start m raw s := by
  cases i <;> first | (cases h; done) | skip
  · exact ⟨0, 0, fun _ => rfl⟩
  · exact ⟨0, _, fun _ => rfl⟩
  · exact ⟨1, _, fun _ => rfl⟩
  · exact ⟨2, _, fun _ => rfl⟩
  · exact ⟨_, _, fun _ => rfl⟩

/-- START is legal outside BUSY and never ends in IDLE (10_state.md R25). -/
theorem start_next_ctrl {m raw} {s t : State} (h : start m raw s = .next t) : s.ctrl ≠ .busy ∧ t.ctrl ≠ .idle := by
  obtain ⟨base, hr, rfl⟩ := start_next h
  refine ⟨hr.1, ?_⟩
  rcases resolve_cases m raw base s with ⟨_, e⟩ | ⟨_, _, e⟩ | ⟨_, _, _, e⟩ | ⟨_, _, _, _, e⟩ <;> rw [e] <;> simp

/-- A decode step's unit either faults in mode 1 or goes on to BUSY or DONE. -/
theorem exec_unit_next {i : Instr} {s t : State} (hi : i.format ≠ .entry32) (h : exec i s = .next t) :
   (∃ f, t = takeFault f s ∧ s.ctrl = .busy ∧ f.kind = .outOfBounds ∧ (InStep .rle s)) ∨
   (s.ctrl = .busy ∧ (t.ctrl = .busy ∨ t.ctrl = .done)) := by
  cases i with
  | negByte b =>
    obtain ⟨hs, h⟩ := inStep_next h
    obtain ⟨p, hp, h⟩ := need_next h
    obtain ⟨n, hn, h⟩ := need_next h
    split at h
    · cases h; right; refine ⟨hs.1, ?_⟩
      unfold complete; split
      · exact .inr rfl
      · exact .inl hs.1
    · cases h
  | rleNop =>
    obtain ⟨hs, h⟩ := inStep_next h
    obtain ⟨p, hp, h⟩ := need_next h
    cases h; exact .inr ⟨hs.1, .inl hs.1⟩
  | rleLit c =>
    obtain ⟨hs, h⟩ := inStep_next h
    obtain ⟨src, p, n, _, _, _, h⟩ := performRun_next h
    rcases h with ⟨_, rfl⟩ | ⟨_, f, hf, rfl⟩ | ⟨_, bs, _, rfl⟩
    · exact .inl ⟨_, rfl, hs.1, rfl, hs⟩
    · obtain ⟨_, _, _, _, rfl⟩ := readBytes_error hf
      exact .inl ⟨_, rfl, hs.1, rfl, hs⟩
    · right; refine ⟨hs.1, ?_⟩
      unfold finishRun complete; split
      · exact .inr rfl
      · exact .inl hs.1
  | rleRep c =>
    obtain ⟨hs, h⟩ := inStep_next h
    obtain ⟨src, p, n, _, _, _, h⟩ := performRun_next h
    rcases h with ⟨_, rfl⟩ | ⟨_, f, hf, rfl⟩ | ⟨_, bs, _, rfl⟩
    · exact .inl ⟨_, rfl, hs.1, rfl, hs⟩
    · simp only [repRun] at hf
      split at hf
      · rename_i he; cases hf; obtain ⟨_, rfl⟩ := memRead_error_iff.1 he
        exact .inl ⟨_, rfl, hs.1, rfl, hs⟩
      · cases hf
    · right; refine ⟨hs.1, ?_⟩
      unfold finishRun complete; split
      · exact .inr rfl
      · exact .inl hs.1
  | dictLoad d =>
    obtain ⟨hs, h⟩ := inStep_next h
    cases h; exact .inr ⟨hs.1, .inl hs.1⟩
  | m2Hit i =>
    obtain ⟨hs, h⟩ := inStep_next h
    obtain ⟨b, hb, h⟩ := need_next h
    obtain ⟨p, n, _, _, _, rfl⟩ := finishCode_next h
    right; refine ⟨hs.1, ?_⟩
    unfold complete; split
    · exact .inr rfl
    · exact .inl hs.1
  | m2Lit b =>
    obtain ⟨hs, h⟩ := inStep_next h
    obtain ⟨p, n, _, _, _, rfl⟩ := finishCode_next h
    right; refine ⟨hs.1, ?_⟩
    unfold complete; split
    · exact .inr rfl
    · exact .inl hs.1
  | _ => exact absurd rfl hi

/-- Fault entry writes the fault registers and STATE only (60_exceptions.md R217). -/
theorem eq_of_takeFault {s t : State} {f : FaultInfo} (h : t = takeFault f s) : t = { s with ctrl := .fault, fkind := t.fkind, fcause := t.fcause, faddr := t.faddr } := by
  subst h; rfl

/-- Outside BUSY the engine has no step (40_entry_resolve.md R108). -/
theorem fetchStep_notBusy {s : State} (h : s.ctrl ≠ .busy) : fetchStep s = .nothing := if_neg h

/-- The three turns a step can be: the engine's, a START, or another host access. -/
theorem fetch_cases (s : State) :
    (EngineTurn s ∧ fetch s = fetchStep s) ∨
    (∃ q, s.host = .start :: q ∧ fetch s = fetchEntry s) ∨
    (∃ op q, s.host = .port op :: q ∧ fetch s = .access op) := by
  cases hq : s.host with
  | nil => exact .inl ⟨.inl hq, by simp [fetch, hq]⟩
  | cons c q =>
    cases c with
    | idle => exact .inl ⟨.inr (by simp [hq]), by simp [fetch, hq]⟩
    | start => exact .inr (.inl ⟨q, rfl, by simp [fetch, hq]⟩)
    | port op => exact .inr (.inr ⟨op, q, rfl, by simp [fetch, hq]⟩)

/-- The unit of any entry word is a START on that word's own fields (30_encoding.md R92). -/
theorem exec_decodeEntry (w : Word) (s : State) :
    exec (decodeEntry w) s = start (entryMode w) (entryRaw w) s := by
  rcases entryClass w with h | h | ⟨h, hr⟩ | h | h
  · rw [decodeEntry_bad h]; rfl
  · subst h; rfl
  · rw [decodeEntry_neg h hr, h]; rfl
  · rw [decodeEntry_rle h, h]; rfl
  · rw [decodeEntry_bitpack h, h]; rfl

/-- Everything a unit of a decode step can do where it answers a next state: fault, pass a no-op, load the dictionary,
output bytes by the byte cursor, or output by the bit cursor. -/
theorem exec_unit_cases {i : Instr} {s t : State} (hi : i.format ≠ .entry32) (h : exec i s = .next t) :
    (∃ f, t = takeFault f s) ∨
    (∃ p, i = .rleNop ∧ s.iptr = some p ∧ t = { s with iptr := some (p + 1) }) ∨
    (∃ d, i = .dictLoad d ∧ t = loadDict d s) ∨
    (∃ e n bs p q, s.iptr = some p ∧ p ≤ q ∧ s.ocnt = some n ∧ (i.format = .raw8 ∨ i.format = .cmd8) ∧ i ≠ .rleNop ∧
      t = complete e { emit n bs s with iptr := some q }) ∨
    (∃ e n bs p, s.bptr = some p ∧ s.ocnt = some n ∧ i.format = .code ∧
      t = complete e { emit n bs s with bptr := some (p + i.bitLength) }) := by
  cases i with
  | negByte b =>
    obtain ⟨hs, h⟩ := inStep_next h
    obtain ⟨p, hp, h⟩ := need_next h
    obtain ⟨n, hn, h⟩ := need_next h
    split at h
    · cases h
      exact .inr (.inr (.inr (.inl ⟨_, n, _, p, p + 1, hp, by omega, hn, .inl rfl, by simp, rfl⟩)))
    · cases h
  | rleNop =>
    obtain ⟨hs, h⟩ := inStep_next h
    obtain ⟨p, hp, h⟩ := need_next h
    cases h
    exact .inr (.inl ⟨p, rfl, hp, rfl⟩)
  | rleLit c =>
    obtain ⟨hs, h⟩ := inStep_next h
    obtain ⟨src, p, n, _, hp, hn, ⟨_, rfl⟩ | ⟨_, f, hf, rfl⟩ | ⟨_, bs, _, rfl⟩⟩ := performRun_next h
    · exact .inl ⟨_, rfl⟩
    · exact .inl ⟨_, rfl⟩
    · exact .inr (.inr (.inr (.inl ⟨_, n, _, p, _, hp, by omega, hn, .inr rfl, by simp, rfl⟩)))
  | rleRep c =>
    obtain ⟨hs, h⟩ := inStep_next h
    obtain ⟨src, p, n, _, hp, hn, ⟨_, rfl⟩ | ⟨_, f, hf, rfl⟩ | ⟨_, bs, _, rfl⟩⟩ := performRun_next h
    · exact .inl ⟨_, rfl⟩
    · exact .inl ⟨_, rfl⟩
    · exact .inr (.inr (.inr (.inl ⟨_, n, _, p, _, hp, by omega, hn, .inr rfl, by simp, rfl⟩)))
  | dictLoad d =>
    obtain ⟨hs, h⟩ := inStep_next h
    cases h
    exact .inr (.inr (.inl ⟨d, rfl, rfl⟩))
  | m2Hit i =>
    obtain ⟨hs, h⟩ := inStep_next h
    obtain ⟨b, hb, h⟩ := need_next h
    obtain ⟨p, n, hp, hn, _, rfl⟩ := finishCode_next h
    exact .inr (.inr (.inr (.inr ⟨_, n, _, p, hp, hn, rfl, rfl⟩)))
  | m2Lit b =>
    obtain ⟨hs, h⟩ := inStep_next h
    obtain ⟨p, n, hp, hn, _, rfl⟩ := finishCode_next h
    exact .inr (.inr (.inr (.inr ⟨_, n, _, p, hp, hn, rfl, rfl⟩)))
  | _ => exact absurd rfl hi

/-- No unit writes an input of the decode or the host's own fields. -/
theorem exec_keepsInputs {i : Instr} {s t : State} (h : exec i s = .next t) : KeepsInputs s t := by
  by_cases hi : i.format = .entry32
  · obtain ⟨m, raw, he⟩ := exec_entry_eq_start hi
    rw [he] at h
    obtain ⟨base, _, rfl⟩ := start_next h
    rcases resolve_cases m raw base s with ⟨_, e⟩ | ⟨_, _, e⟩ | ⟨_, _, _, e⟩ | ⟨_, _, _, _, e⟩ <;> rw [e] <;>
      exact ⟨rfl, rfl, rfl, rfl, rfl⟩
  · rcases exec_unit_cases hi h with ⟨f, rfl⟩ | ⟨p, _, _, rfl⟩ | ⟨d, _, rfl⟩ | ⟨e, n, bs, p, q, _, _, _, _, _, rfl⟩ |
      ⟨e, n, bs, p, _, _, _, rfl⟩
    · exact ⟨rfl, rfl, rfl, rfl, rfl⟩
    · exact ⟨rfl, rfl, rfl, rfl, rfl⟩
    · exact ⟨rfl, rfl, rfl, rfl, rfl⟩
    · exact ⟨by simp, by simp, by simp, by simp, by simp⟩
    · exact ⟨by simp, by simp, by simp, by simp, by simp⟩

/-- Only a ROM load changes the ROM (20_memory.md R51). -/
theorem step_keepsRom {s t : State} (hl : loadsRom s = false) (h : step s = .next t) : t.rom = s.rom := by
  rcases step_cases s with ⟨_, e⟩ | ⟨i, _, e⟩ | ⟨f, _, e⟩ | ⟨op, hf, e⟩ | ⟨r, _, e⟩ <;> rw [e] at h
  · cases h; rfl
  · exact (exec_keepsInputs h).1
  · cases h; rfl
  · rcases fetch_cases s with ⟨_, e'⟩ | ⟨q, _, e'⟩ | ⟨op', q, hq, e'⟩
    · rw [e'] at hf; exact absurd hf (fetchStep_ne_access s op)
    · rw [e', fetchEntry] at hf; split at hf <;> cases hf
    · rw [e'] at hf; cases hf
      rcases hostAccess_next h with ⟨w, _, _, rfl⟩ | ⟨w, _, _, rfl⟩ | ⟨w, _, rfl⟩ | ⟨image, rfl, _, _, _⟩ | ⟨_, rfl⟩ |
        ⟨r, v, _, _, rfl⟩
      · rfl
      · rfl
      · rfl
      · simp [loadsRom, hq, PortOp.isLoad] at hl
      · rfl
      · rfl
  · cases h

/-! ### The step table (40_entry_resolve.md R108) -/

theorem stepKind_neg {m : Byte} {d : Bool} (h : stepKind m d = .neg) : m = 0 := by
  unfold stepKind at h
  repeat' split at h
  all_goals first | assumption | cases h

theorem stepKind_rle {m : Byte} {d : Bool} (h : stepKind m d = .rle) : m = 1 := by
  unfold stepKind at h
  repeat' split at h
  all_goals first | cases h; done | assumption

theorem stepKind_dictLoad {m : Byte} {d : Bool} (h : stepKind m d = .dictLoad) : m = 2 ∧ d = false := by
  unfold stepKind at h
  repeat' split at h
  all_goals first | cases h; done | simp_all

theorem stepKind_code {m : Byte} {d : Bool} (h : stepKind m d = .code) : m = 2 ∧ d = true := by
  unfold stepKind at h
  repeat' split at h
  all_goals first | cases h; done | simp_all

/-- A byte that an address names lies inside the ROM (20_memory.md R50). -/
theorem romByte_lt {m : Rom} {p : Nat} {b : Byte} (h : romByte m p = some b) : p < m.len := by
  have := (romByte_isSome_iff m p).1 (by simp [h])
  omega

/-! ### Runs -/

/-- A run of `m + n` steps is one of `m` and one of `n` from where it ended. -/
theorem runSteps_add (m n : Nat) (s : State) :
    runSteps (m + n) s = (runSteps m s).bind (runSteps n) := by
  induction m generalizing s with
  | zero => simp [runSteps]
  | succ m ih =>
    rw [Nat.succ_add, runSteps, runSteps]
    cases step s with
    | next t => exact ih t
    | fault f => rfl
    | refused r => rfl

/-- A machine with no command left and no engine step waits for ever (log 6). -/
theorem runSteps_ended {s : State} (hh : s.host = []) (hb : s.ctrl ≠ .busy) (n : Nat) : runSteps n s = some s := by
  have hstep : step s = .next s := by
    have : fetch s = .nothing := by rw [fetch_engineTurn (.inl hh), fetchStep_notBusy hb]
    cases s
    simp_all [step, takeCommand]
  induction n with
  | zero => rfl
  | succ n ih => rw [runSteps, hstep]; exact ih

end Sys2Proof.Machine
end

