-- ==== Sys2Proof/Tests/Slice0.lean ====
section
/-! SUPPORT. Tests: ill-formed units refused, words written out from the spec's encodings, one step per unit with the
results of 95_test_vectors.md, and a witness for every statement that has hypotheses. -/

open Sys2Proof Sys2Proof.Machine

namespace Sys2Proof.Tests

-- One proof after the other: many kernel evaluations at once exhaust the checker's threads.
set_option Elab.async false

/-! ### Helpers -/

/-- What of a step's next state a test looks at; none where it is refused. -/
def after {α : Type} (o : StepOutcome) (f : State → α) : Option α :=
  match o with
  | .next s => some (f s)
  | .fault _ => none
  | .refused _ => none

/-- Why a step is refused, if it is. -/
def refusal (o : StepOutcome) : Option Refusal :=
  match o with
  | .next _ => none
  | .fault _ => none
  | .refused r => some r

/-- The host about to issue START. -/
def ready (rom : List Byte) (base : Nat) (w : Word) : State := booted (Rom.ofBytes rom) base w

/-- A decode in progress from the ROM's address 0 (data base 1, offset -1), `n` bytes output. -/
def mid (mode : Byte) (rom : List Byte) (n p b : Nat) (loaded : Bool) : State :=
  { State.reset with
    rom := Rom.ofBytes rom, entry := some (entryWord mode 0xFFFFFF), dataBase := some 1, ctrl := .busy
    mode := some mode, offset := some (-1), src := some 0, iptr := some p, bptr := some b, ocnt := some n
    out := writeOut (Vector.replicate 512 none) 0 (List.replicate n 7)
    dict := Vector.replicate 16 (if loaded then some 9 else none), dictValid := loaded }

/-- The same, with the host idle for this one step. -/
def midIdle (mode : Byte) (rom : List Byte) (n p b : Nat) (loaded : Bool) : State :=
  { mid mode rom n p b loaded with host := [.idle] }

/-- A machine whose next step is the host's access. -/
def withHost (c : HostCmd) (s : State) : State := { s with host := [c] }

/-- What a test looks at after a step that may fault. -/
def faultOf (s : State) : Ctrl × FKind × FCause × Int := (s.ctrl, s.fkind, s.fcause, s.faddr)

/-! ### Ill-formed units are refused (30_encoding.md R75, R78, R80, R92) -/

theorem test_wf_entNeg : Instr.wf (.entNeg 0) = false ∧ Instr.wf (.entNeg 1) = true := by decide
theorem test_wf_entBadMode : Instr.wf (.entBadMode 2 0) = false ∧ Instr.wf (.entBadMode 3 0) = true := by decide
theorem test_wf_rleLit : Instr.wf (.rleLit 0x80) = false ∧ Instr.wf (.rleLit 0x7F) = true := by decide
theorem test_wf_rleRep : Instr.wf (.rleRep 0x80) = false ∧ Instr.wf (.rleRep 0x81) = true := by decide

/-! ### Words written out bit by bit from 30_encoding.md -/

/-- R71: mode 0 and offset 0, 32 zero bits. -/
theorem test_decode_entZero :
    decode .entry32 (List.replicate 32 false) = .ok (.entZero, []) := by rfl
/-- R71: mode byte 00000000, offset 10000000 00000000 00000001. -/
theorem test_decode_entNeg :
    decode .entry32 (List.replicate 8 false ++ (true :: List.replicate 22 false) ++ [true]) =
      .ok (.entNeg 0x800001, []) := by rfl
/-- R71: mode byte 00000001, offset 23 ones and a zero. -/
theorem test_decode_entRle :
    decode .entry32 (List.replicate 7 false ++ [true] ++ List.replicate 23 true ++ [false]) =
      .ok (.entRle 0xFFFFFE, []) := by rfl
/-- V8: 0x02ABCDEF has mode 00000010 and offset 0xABCDEF. -/
theorem test_decode_entBitpack :
    decode .entry32
      [false, false, false, false, false, false, true, false, true, false, true, false, true, false, true, true,
       true, true, false, false, true, true, false, true, true, true, true, false, true, true, true, true] =
      .ok (.entBitpack 0xABCDEF, []) := by rfl
/-- V9: mode byte 00000011. -/
theorem test_decode_entBadMode :
    decode .entry32 (List.replicate 6 false ++ [true, true] ++ List.replicate 24 false) =
      .ok (.entBadMode 3 0, []) := by rfl
/-- R76: 10101010. -/
theorem test_decode_negByte :
    decode .raw8 [true, false, true, false, true, false, true, false] = .ok (.negByte 0xAA, []) := by rfl
/-- R78: 0 and a 7-bit length field. -/
theorem test_decode_rleLit :
    decode .cmd8 [false, true, true, true, true, true, true, true, true] = .ok (.rleLit 0x7F, [true]) := by rfl
/-- R79: 10000000. -/
theorem test_decode_rleNop :
    decode .cmd8 [true, false, false, false, false, false, false, false] = .ok (.rleNop, []) := by rfl
/-- R80: 10000001, the longest repeat. -/
theorem test_decode_rleRep :
    decode .cmd8 [true, false, false, false, false, false, false, true] = .ok (.rleRep 0x81, []) := by rfl
set_option maxRecDepth 4000 in
/-- R82: the first byte is entry 0, the last is entry 15. -/
theorem test_decode_dictLoad :
    decode .dict16 ([true, false, false, false, false, false, false, true] ++ List.replicate 119 false ++ [true]) =
      .ok (.dictLoad #v[0x81, 0, 0, 0, 0, 0, 0, 0, 0, 0, 0, 0, 0, 0, 0, 1], []) := by rfl
/-- R84: the flag 1, then 1010, index 10; the bit after it is not the code's. -/
theorem test_decode_m2Hit :
    decode .code [true, true, false, true, false, true] = .ok (.m2Hit 10, [true]) := by rfl
/-- R85: the flag 0, then 01011010. -/
theorem test_decode_m2Lit :
    decode .code [false, false, true, false, true, true, false, true, false] = .ok (.m2Lit 0x5A, []) := by rfl
/-- R88: bits that end inside a unit are no unit. -/
theorem test_decode_truncated :
    decode .code [true, true, false, true] = .error .truncated ∧
      decode .cmd8 (List.replicate 7 true) = .error .truncated := ⟨rfl, rfl⟩

/-! ### The table's numbering (log 11) -/

theorem test_table_entry : decodeTableWord 32 0x02ABCDEF = some (.entBitpack 0xABCDEF) := by decide +kernel
theorem test_table_command : decodeTableWord 8 0x80 = some .rleNop := by decide
theorem test_table_codes :
    decodeTableWord 5 0b11010 = some (.m2Hit 10) ∧ decodeTableWord 9 0x05A = some (.m2Lit 0x5A) := by decide

/-- START on a bad mode is the first step after reset (V9). -/
theorem test_fetch_entry :
    after (step (State.reset.withFetchWord 32 0x03000000)) faultOf =
      some (.fault, .unsupportedBlockMode, .noCause, 0) := by decide +kernel
/-- A no-op at IPTR moves it by one. -/
theorem test_fetch_command :
    after (step (State.reset.withFetchWord 8 0x80)) (fun s => (s.ctrl, s.iptr)) =
      some (.busy, some 1) := by decide +kernel
/-- A literal code at the head of the bit stream outputs its byte. -/
theorem test_fetch_code :
    after (step (State.reset.withFetchWord 9 0x0C3)) (fun s => (s.outAt 0, s.bptr)) =
      some (some 0xC3, some 9) := by decide +kernel

/-! ### One step per unit -/

/-- V14: the zero case comes before the address check. -/
theorem test_entZero :
    after (step (ready [0xFF] 0xFF 0)) (fun s => (s.ctrl, s.endoff, s.outAt 511, s.src)) =
      some (.done, some 0, some 0, none) := by decide +kernel
/-- V29's START: data base 0x800000 and offset -8388608 give SRC 0. -/
theorem test_entNeg :
    after (step (ready [5] 0x800000 0x00800000)) (fun s => (s.ctrl, s.mode, s.src, s.iptr, s.ocnt)) =
      some (.busy, some 0, some 0, some 0, some 0) := by decide +kernel
/-- V12: SRC = ROM_LEN is outside. -/
theorem test_entRle :
    after (step (ready [0, 0] 2 0x01000000)) faultOf = some (.fault, .outOfBounds, .startOutside, 2) := by decide +kernel
/-- V13: the sum is exact, without a wrap. -/
theorem test_entRle_exact :
    after (step (ready [0, 0] 0x100 0x017FFFFF)) (fun s => s.faddr) = some 8388863 := by decide +kernel
/-- V65's START. -/
theorem test_entBitpack :
    after (step (ready [0, 0] 0x800000 0x02800000)) (fun s => (s.ctrl, s.src, s.bptr, s.dictValid)) =
      some (.busy, some 0, some 0, false) := by decide +kernel
/-- V16: the mode check comes before the address check. -/
theorem test_entBadMode :
    after (step (ready [] 0 0x03FFFFFF)) (fun s => (faultOf s, s.mode, s.offset)) =
      some ((.fault, .unsupportedBlockMode, .noCause, 0), some 3, some (-1)) := by decide +kernel
/-- V20 to V25. -/
theorem test_negate :
    negate 0x00 = 0x00 ∧ negate 0x01 = 0xFF ∧ negate 0x7F = 0x81 ∧ negate 0x80 = 0x80 ∧ negate 0xFF = 0x01 ∧
      negate 0xAA = 0x56 := by decide
theorem test_negByte :
    after (step (mid 0 [0xAA, 1] 1 1 0 false)) (fun s => (s.outAt 1, s.iptr, s.ocnt, s.ctrl)) =
      some (some 0xFF, some 2, some 2, .busy) := by decide +kernel
/-- The payload comes verbatim and in order; LIT 1 completes at 511 (V52's last command). -/
theorem test_rleLit :
    after (step (mid 1 [1, 0x99, 0x98] 0 0 0 false)) (fun s => (s.outAt 0, s.outAt 1, s.outAt 2, s.iptr)) =
      some (some 0x99, some 0x98, none, some 3) ∧
    after (step (mid 1 [0, 0x99] 511 0 0 false)) (fun s => (s.iptr, s.ocnt, s.ctrl, s.endoff)) =
      some (some 2, some 512, .done, some 2) := by decide +kernel
/-- V48 and V92: the step is discarded whole. -/
theorem test_rleLit_pastEnd :
    after (step (mid 1 [5, 1, 2] 0 0 0 false)) (fun s => (faultOf s, s.ocnt, s.iptr, s.outAt 0)) =
      some ((.fault, .outOfBounds, .bytePastEnd, 3), some 0, some 0, none) := by decide +kernel
/-- V47's first step. -/
theorem test_rleNop :
    after (step (mid 1 [0x80, 0x80, 0x80] 0 0 0 false)) (fun s => (s.iptr, s.ocnt, s.ctrl)) =
      some (some 1, some 0, .busy) := by decide +kernel
/-- V44's first step: the shortest repeat is two bytes. -/
theorem test_rleRep :
    after (step (mid 1 [0xFF, 1] 0 0 0 false)) (fun s => (s.outAt 0, s.outAt 1, s.outAt 2, s.ocnt, s.iptr)) =
      some (some 1, some 1, none, some 2, some 2) := by decide +kernel
/-- V51: REP 128 at OCNT 385 overshoots. -/
theorem test_rleRep_overflow :
    after (step (mid 1 [0x81, 9] 385 0 0 false)) faultOf = some (.fault, .outOfBounds, .runOverflow, 0) := by
  decide +kernel
theorem test_dictLoad :
    after (step (mid 2 [0, 1, 2, 3, 4, 5, 6, 7, 8, 9, 10, 11, 12, 13, 14, 15] 0 0 0 false))
      (fun s => (s.dictAt 0, s.dictAt 15, s.dictValid, s.ocnt)) = some (some 0, some 15, true, some 0) := by
  decide +kernel
/-- 0xD0 begins 1 1010: index 10, and the code is five bits. -/
theorem test_m2Hit :
    after (step (mid 2 (List.replicate 16 9 ++ [0xD0]) 0 0 0 true)) (fun s => (s.outAt 0, s.bptr, s.ocnt)) =
      some (some 9, some 5, some 1) := by decide +kernel
/-- 0x2D 0x00 begins 0 01011010; the 512th code ends the block at ceil(9 / 8). -/
theorem test_m2Lit :
    after (step (mid 2 (List.replicate 16 9 ++ [0x2D, 0]) 1 0 0 true)) (fun s => (s.outAt 0, s.outAt 1, s.bptr)) =
      some (some 7, some 0x5A, some 9) ∧
    after (step (mid 2 (List.replicate 16 9 ++ [0x2D, 0]) 511 0 0 true)) (fun s => (s.ocnt, s.ctrl, s.endoff)) =
      some (some 512, .done, some 2) := by decide +kernel

/-! ### The Bit Stream Reader on 0xA5 0x3C (44_bitstream_reader.md; V80 to V85) -/

/-- The two bytes of V80 as a whole ROM. -/
def bitRom : Rom := Rom.ofBytes [0xA5, 0x3C]

theorem test_bits4 : readBits bitRom 0 4 0 = .ok (0xA, 4) := by rfl
theorem test_bits8_after1 : readBits bitRom 0 8 1 = .ok (0x4A, 9) := by rfl
theorem test_bits16 : readBits bitRom 0 16 0 = .ok (0xA53C, 16) := by rfl
theorem test_bit_pastEnd : readBit bitRom 0 16 = .error ⟨.outOfBounds, .bitPastEnd, 2⟩ := by rfl

/-! ### The host, faults and restart -/

/-- 10_state.md R39, R41: FAULT with OutOfBounds and RUN_OVERFLOW reads 0x423. -/
theorem test_status :
    after (hostAccess (.read .status) { State.reset with ctrl := .fault, fkind := .outOfBounds, fcause := .runOverflow })
      (fun s => s.hostData) = some (some 0x423) := by decide +kernel
theorem test_write_in_busy :
    refusal (step (withHost (.port (.writeEntry 0)) (mid 1 [0x80] 0 0 0 false))) = some (.writeWhileBusy .entry) ∧
    refusal (step (withHost .start (mid 1 [0x80] 0 0 0 false))) = some .startWhileBusy := by decide +kernel
/-- V96: START after a fault clears the fault registers. -/
theorem test_restart :
    after (step { ready [] 0 0 with ctrl := .fault, fkind := .outOfBounds, fcause := .runOverflow, faddr := 8 })
      faultOf = some (.done, .noFault, .noCause, 0) := by decide +kernel
/-- 30_encoding.md R90: `REP 128, 9` is 81 09, and `ENTRY 1, -256` is 0x01FFFF00. -/
theorem test_assembler :
    commandBytes (.rep 128 9) = some [0x81, 9] ∧ commandBytes (.rep 1 9) = none ∧
      asmEntryWord 1 (-256) = 0x01FFFF00 := by decide

/-- 43_mode2_bitpacked.md R176: 1 0101 packs to 1010 1000, and the codes of X3 to 87 CB 53 9C and the first two bits
of E7. -/
theorem test_packBits :
    packBits (encode (.m2Hit 5)) = [0xA8] ∧
      packBits ([.m2Hit 0, .m2Hit 15, .m2Lit 0x5A, .m2Hit 3, .m2Hit 3, .m2Hit 3].flatMap encode) =
        [0x87, 0xCB, 0x53, 0x9C, 0xC0] := by decide +kernel
/-- 60_exceptions.md R217: a START that faults keeps the registers of the block before it, and gives MODE. -/
theorem test_fault_at_start :
    after (step (zeroBlock (ready [] 0 0x03000000))) (fun s => (s.ctrl, s.mode, s.ocnt, s.outAt 0, s.endoff)) =
      some (.fault, some 3, some 512, some 0, some 0) := by decide +kernel
/-- 20_memory.md R51, R63: a ROM load is every engine's, and none where an engine is BUSY. -/
theorem test_cluster_load :
    (Cluster.mk [withHost (.port (.loadRom [5])) State.reset, State.reset]).stepAt 0 =
      some (Cluster.mk [setRom (Rom.ofBytes [5]) State.reset, setRom (Rom.ofBytes [5]) State.reset]) ∧
    (Cluster.mk [withHost (.port (.loadRom [5])) State.reset, mid 1 [] 0 0 0 false]).stepAt 0 = none := ⟨rfl, rfl⟩

/-- 10_state.md R28: in DONE an image of ROM_LEN bytes is taken, and one too short for SRC is refused. -/
theorem test_rom_length_stays :
    after (hostAccess (.loadRom [9]) { mid 1 [5] 512 1 0 false with ctrl := .done }) (fun s => s.rom.len) = some 1 ∧
      hostAccess (.loadRom []) { mid 1 [5] 512 1 0 false with ctrl := .done } = .refused .romLengthFixed := ⟨rfl, rfl⟩

/-! ### Witnesses: encodings -/

theorem test_wit_EncodedUnitsDecode :
    (Instr.entNeg 0x800000).WellFormed ∧ (Instr.entBadMode 3 0).WellFormed ∧ (Instr.rleLit 0x7F).WellFormed ∧
      (Instr.rleRep 0x81).WellFormed ∧ (Instr.m2Hit 15).WellFormed := by decide
theorem test_wit_DecodedUnitsReencode :
    decode .code [true, true, true, true, true, false] = .ok (.m2Hit 15, [false]) ∧
      decode .cmd8 (List.replicate 8 true) = .ok (.rleRep 0xFF, []) := ⟨rfl, rfl⟩
/-- The command bytes on either side of 0x80 (R81). -/
theorem test_wit_CommandBytesClassified :
    (0x7F : Byte).toNat ≤ 0x7F ∧ (0x80 : Byte) = 0x80 ∧ 0x81 ≤ (0x81 : Byte).toNat := by decide
/-- One word per clause, at its boundary (R92). -/
theorem test_wit_EntryWordsClassified :
    3 ≤ (entryMode 0x03000000).toNat ∧ entryMode 0x00000001 = 0 ∧ entryRaw 0x00000001 ≠ 0 ∧
      entryMode 0x01000000 = 1 ∧ entryMode 0x02FFFFFF = 2 := by decide
/-- The fields where the sign changes (R74; V3, V4). -/
theorem test_wit_SignExtensionOf24Bits :
    (0x7FFFFF : BitVec 24).toNat < 0x800000 ∧ 0x800000 ≤ (0x800000 : BitVec 24).toNat ∧
      sext24 0x7FFFFF = 8388607 ∧ sext24 0x800000 = -8388608 ∧ sext24 0xFFFFFF = -1 := by decide

/-! ### Witnesses: START -/

theorem test_wit_EntZeroGivesZeroBlock : StartReady (ready [] 0xFF 0) 0xFF := by decide +kernel
/-- Modes 3 and 255. -/
theorem test_wit_EntBadModeFaults :
    3 ≤ (0x03 : Byte).toNat ∧ 3 ≤ (0xFF : Byte).toNat ∧ StartReady (ready [] 0 0x03000000) 0 := by decide +kernel
/-- The first and the last address of the ROM, in each of the three modes. -/
theorem test_wit_StartBeginsDecode :
    (Instr.entNeg 0xFFFFFF).WellFormed ∧ (Instr.entRle 0).WellFormed ∧ (Instr.entBitpack 1).WellFormed ∧
      StartReady (ready [4, 5] 1 0x00FFFFFF) 1 ∧ StartReady (ready [4, 5] 1 0x01000000) 1 ∧
      StartReady (ready [4, 5] 0 0x02000001) 0 ∧
      0 ≤ ((1 : Nat) : Int) + sext24 0xFFFFFF ∧ ((1 : Nat) : Int) + sext24 0xFFFFFF < 2 ∧
      0 ≤ ((1 : Nat) : Int) + sext24 0 ∧ ((1 : Nat) : Int) + sext24 0 < 2 ∧
      0 ≤ ((0 : Nat) : Int) + sext24 1 ∧ ((0 : Nat) : Int) + sext24 1 < 2 := by decide +kernel
/-- SRC = -1 and SRC = ROM_LEN are outside; SRC = ROM_LEN - 1 is not. -/
theorem test_wit_StorageOutsideRomFaults :
    StartReady (ready [4, 5] 0 0x00FFFFFF) 0 ∧ (Instr.entNeg 0xFFFFFF).WellFormed ∧
      after (exec (.entNeg 0xFFFFFF) (ready [4, 5] 0 0x00FFFFFF)) faultOf =
        some (.fault, .outOfBounds, .startOutside, -1) ∧
      after (exec (.entRle 2) (ready [4, 5] 0 0x01000002)) (fun s => s.ctrl) = some .fault ∧
      after (exec (.entBitpack 1) (ready [4, 5] 0 0x02000001)) (fun s => s.ctrl) = some .busy := by decide +kernel
/-- One state per clause. -/
theorem test_wit_StartRefusedWhereIllegal :
    (Instr.entRle 0).format = .entry32 ∧ (mid 1 [0x80] 0 0 0 false).ctrl = .busy ∧
      State.reset.ctrl ≠ .busy ∧ State.reset.entry = none ∧
      ({ State.reset with entry := some 0 } : State).entry ≠ none ∧
      ({ State.reset with entry := some 0 } : State).dataBase = none ∧
      (withHost .start State.reset).host.head? = some .start := by decide +kernel
/-- A START that ends in BUSY, one in DONE and one in FAULT. -/
theorem test_wit_StartClearsEarlierDecode :
    (∃ t, exec (.entRle 0) (ready [4, 5] 1 0x01000000) = .next t ∧ t.ctrl = .busy) ∧
      (∃ t, exec .entZero (ready [] 1 0) = .next t ∧ t.ctrl = .done) ∧
      (∃ t, exec (.entBadMode 3 0) (ready [] 1 0x03000000) = .next t ∧ t.ctrl = .fault) ∧
      (Instr.entBadMode 3 0).format = .entry32 :=
  ⟨⟨_, rfl, rfl⟩, ⟨_, rfl, rfl⟩, ⟨_, rfl, rfl⟩, rfl⟩
/-- The same inputs, once after reset and once after a fault. -/
theorem test_wit_StartForgetsEarlierDecode :
    Instr.entZero.format = .entry32 ∧ (ready [1] 0 0).ctrl ≠ .busy ∧
      ({ ready [1] 0 0 with ctrl := .fault, src := some 8, iptr := some 3 } : State).ctrl ≠ .busy ∧
      KeepsInputs (ready [1] 0 0) { ready [1] 0 0 with ctrl := .fault, src := some 8, iptr := some 3 } ∧
      after (exec .entZero (ready [1] 0 0)) (fun t => t.ctrl) = some .done ∧
      after (exec (.entBadMode 3 0) (ready [1] 0 0)) (fun t => t.ctrl) = some .fault ∧
      refusal (exec .entZero State.reset) = some (.startWithoutInput .entry) ∧
      KeepsInputs State.reset { State.reset with ctrl := .done } := by
  decide +kernel
/-- One START that ends in BUSY and one that ends in DONE. -/
theorem test_wit_ResolvedModeAndOffset :
    (∃ t, exec (decodeEntry 0x02FFFFFF) (ready [4, 5] 1 0x02FFFFFF) = .next t ∧ t.ctrl = .busy) ∧
    (∃ t, exec (decodeEntry 0) (ready [] 1 0) = .next t ∧ t.ctrl = .done) :=
  ⟨⟨_, rfl, rfl⟩, ⟨_, rfl, rfl⟩⟩

/-! ### Witnesses: the units of a decode -/

/-- The first and the last output byte. -/
theorem test_wit_NegByteResult :
    InStep .neg (mid 0 [5] 0 0 0 false) ∧ (mid 0 [5] 0 0 0 false).iptr = some 0 ∧
      (mid 0 [5] 0 0 0 false).ocnt = some 0 ∧
      InStep .neg (mid 0 [5] 511 0 0 false) ∧ (mid 0 [5] 511 0 0 false).iptr = some 0 ∧
      (mid 0 [5] 511 0 0 false).ocnt = some 511 := by decide +kernel
/-- The last byte of the ROM, and the address behind it. -/
theorem test_wit_ModeZeroStepReads :
    Stepping .neg (mid 0 [5] 0 0 0 false) ∧ (mid 0 [5] 0 0 0 false).iptr = some 0 ∧
      romByte (mid 0 [5] 0 0 0 false).rom 0 = some 5 ∧ Stepping .neg (midIdle 0 [5] 1 1 0 false) ∧
      (midIdle 0 [5] 1 1 0 false).iptr = some 1 ∧ romByte (midIdle 0 [5] 1 1 0 false).rom 1 = none := by
  decide +kernel
theorem test_wit_RleNopResult :
    InStep .rle (mid 1 [0x80] 0 0 0 false) ∧ (mid 1 [0x80] 0 0 0 false).iptr = some 0 := by decide +kernel
/-- The shortest literal, at the last output byte. -/
theorem test_wit_RleLitResult :
    (0x00 : Byte).toNat ≤ 0x7F ∧ InStep .rle (mid 1 [0, 6] 511 0 0 false) ∧
      (mid 1 [0, 6] 511 0 0 false).src = some 0 ∧ (mid 1 [0, 6] 511 0 0 false).iptr = some 0 ∧
      (mid 1 [0, 6] 511 0 0 false).ocnt = some 511 ∧
      511 + ((0x00 : Byte).toNat + 1) ≤ 512 ∧ [(6 : Byte)].length = (0x00 : Byte).toNat + 1 ∧
      RomHolds (mid 1 [0, 6] 511 0 0 false).rom (0 + 1) [6] := by decide +kernel
/-- The shortest repeat, filling the block exactly. -/
theorem test_wit_RleRepResult :
    0x81 ≤ (0xFF : Byte).toNat ∧ InStep .rle (mid 1 [0xFF, 6] 510 0 0 false) ∧
      (mid 1 [0xFF, 6] 510 0 0 false).src = some 0 ∧ (mid 1 [0xFF, 6] 510 0 0 false).iptr = some 0 ∧
      (mid 1 [0xFF, 6] 510 0 0 false).ocnt = some 510 ∧
      510 + (257 - (0xFF : Byte).toNat) ≤ 512 ∧ romByte (mid 1 [0xFF, 6] 510 0 0 false).rom (0 + 1) = some 6 := by
  decide +kernel
/-- V55 and V53: two bytes at OCNT 511. -/
theorem test_wit_RunOverflowFaults :
    (0x01 : Byte).toNat ≤ 0x7F ∧ 512 < 511 + ((0x01 : Byte).toNat + 1) ∧ 0x81 ≤ (0xFF : Byte).toNat ∧
      512 < 511 + (257 - (0xFF : Byte).toNat) ∧ InStep .rle (mid 1 [1] 511 0 0 false) ∧
      (mid 1 [1] 511 0 0 false).src ≠ none ∧ (mid 1 [1] 511 0 0 false).iptr = some 0 ∧
      (mid 1 [1] 511 0 0 false).ocnt = some 511 := by decide +kernel
/-- V48 and V49: the literal's third operand, the repeat's value. -/
theorem test_wit_OperandPastEndFaults :
    (5 : Byte).toNat ≤ 0x7F ∧ InStep .rle (mid 1 [5, 1, 2] 0 0 0 false) ∧ (mid 1 [5, 1, 2] 0 0 0 false).src ≠ none ∧
      (mid 1 [5, 1, 2] 0 0 0 false).iptr = some 0 ∧ (mid 1 [5, 1, 2] 0 0 0 false).ocnt = some 0 ∧
      0 + ((5 : Byte).toNat + 1) ≤ 512 ∧ 2 < (5 : Byte).toNat + 1 ∧
      romByte (mid 1 [5, 1, 2] 0 0 0 false).rom (0 + 1 + 2) = none ∧
      (∀ j : Nat, j < 2 → romByte (mid 1 [5, 1, 2] 0 0 0 false).rom (0 + 1 + j) ≠ none) ∧
      0x81 ≤ (0xFF : Byte).toNat ∧ InStep .rle (mid 1 [0xFF] 0 0 0 false) ∧ (mid 1 [0xFF] 0 0 0 false).src ≠ none ∧
      (mid 1 [0xFF] 0 0 0 false).iptr = some 0 ∧ (mid 1 [0xFF] 0 0 0 false).ocnt = some 0 ∧
      0 + (257 - (0xFF : Byte).toNat) ≤ 512 ∧ 0 < 1 ∧ romByte (mid 1 [0xFF] 0 0 0 false).rom (0 + 1 + 0) = none := by
  decide +kernel
/-- The three classes of command byte, and no byte at all. -/
theorem test_wit_RleStepReads :
    (mid 1 [0x80] 0 0 0 false).iptr = some 0 ∧
      Stepping .rle (mid 1 [0x80] 0 0 0 false) ∧ romByte (mid 1 [0x80] 0 0 0 false).rom 0 = some 0x80 ∧
      Stepping .rle (mid 1 [0x7F] 0 0 0 false) ∧ romByte (mid 1 [0x7F] 0 0 0 false).rom 0 = some 0x7F ∧
      Stepping .rle (mid 1 [0x81] 0 0 0 false) ∧ romByte (mid 1 [0x81] 0 0 0 false).rom 0 = some 0x81 ∧
      Stepping .rle (mid 1 [0x80] 0 1 0 false) ∧ (mid 1 [0x80] 0 1 0 false).iptr = some 1 ∧
      romByte (mid 1 [0x80] 0 1 0 false).rom 1 = none := by decide +kernel
theorem test_wit_DictLoadResult : InStep .dictLoad (mid 2 [] 0 0 0 false) := by decide +kernel
/-- A whole dictionary, and one cut after its 15th byte. -/
theorem test_wit_DictStepReads :
    Stepping .dictLoad (mid 2 (List.replicate 16 3) 0 0 0 false) ∧
      (mid 2 (List.replicate 16 3) 0 0 0 false).src = some 0 ∧
      RomHolds (mid 2 (List.replicate 16 3) 0 0 0 false).rom 0 (Vector.replicate 16 3).toList ∧
      Stepping .dictLoad (mid 2 (List.replicate 15 3) 0 0 0 false) ∧
      (mid 2 (List.replicate 15 3) 0 0 0 false).src = some 0 ∧
      romByte (mid 2 (List.replicate 15 3) 0 0 0 false).rom (0 + (15 : Nat)) = none ∧
      (∀ j : Nat, j < 15 → romByte (mid 2 (List.replicate 15 3) 0 0 0 false).rom (0 + j) ≠ none) := by
  decide +kernel
/-- The last index, at the last output byte. -/
theorem test_wit_HitCodeResult :
    InStep .code (mid 2 [] 511 0 0 true) ∧ (mid 2 [] 511 0 0 true).dictAt (15 : BitVec 4).toNat = some 9 ∧
      (mid 2 [] 511 0 0 true).bptr = some 0 ∧ (mid 2 [] 511 0 0 true).ocnt = some 511 := by decide +kernel
theorem test_wit_LiteralCodeResult :
    InStep .code (mid 2 [] 0 0 3 true) ∧ (mid 2 [] 0 0 3 true).bptr = some 3 ∧
      (mid 2 [] 0 0 3 true).ocnt = some 0 := by decide +kernel
/-- A hit, a literal, and a stream that is empty. -/
theorem test_wit_CodeStepReads :
    Stepping .code (mid 2 (List.replicate 16 9 ++ [0xD0]) 0 0 0 true) ∧
      (mid 2 (List.replicate 16 9 ++ [0xD0]) 0 0 0 true).src = some 0 ∧
      (mid 2 (List.replicate 16 9 ++ [0xD0]) 0 0 0 true).bptr = some 0 ∧
      readBit (mid 2 (List.replicate 16 9 ++ [0xD0]) 0 0 0 true).rom (bitBase 0) 0 = .ok (true, 1) ∧
      readBits (mid 2 (List.replicate 16 9 ++ [0xD0]) 0 0 0 true).rom (bitBase 0) 4 1 = .ok (10, 5) ∧
      readBit (mid 2 (List.replicate 16 9 ++ [0x2D, 0]) 0 0 0 true).rom (bitBase 0) 0 = .ok (false, 1) ∧
      readBits (mid 2 (List.replicate 16 9 ++ [0x2D, 0]) 0 0 0 true).rom (bitBase 0) 8 1 = .ok (0x5A, 9) ∧
      readBit (mid 2 (List.replicate 16 9) 0 0 0 true).rom (bitBase 0) 0 = .error ⟨.outOfBounds, .bitPastEnd, 16⟩ :=
  ⟨by decide +kernel, rfl, rfl, rfl, rfl, rfl, rfl, rfl⟩
/-- The stream ends before the flag, inside a hit's index, and inside a literal's byte. -/
theorem test_wit_CodePastEndFaults :
    Stepping .code (mid 2 (List.replicate 16 9 ++ [0xFF]) 0 0 4 true) ∧
      (mid 2 (List.replicate 16 9 ++ [0xFF]) 0 0 4 true).src = some ((0 : Nat) : Int) ∧
      (mid 2 (List.replicate 16 9 ++ [0xFF]) 0 0 4 true).bptr = some 4 ∧
      Stepping .code (mid 2 (List.replicate 16 9 ++ [0xFF]) 0 0 8 true) ∧
      (mid 2 (List.replicate 16 9 ++ [0xFF]) 0 0 8 true).bptr = some 8 ∧
      16 ≤ (mid 2 (List.replicate 16 9 ++ [0xFF]) 0 0 4 true).rom.len ∧
      8 = 8 * ((mid 2 (List.replicate 16 9 ++ [0xFF]) 0 0 4 true).rom.len - (0 + 16)) ∧
      readBit (mid 2 (List.replicate 16 9 ++ [0xFF]) 0 0 4 true).rom (bitBase 0) 4 = .ok (true, 5) ∧ 8 < 4 + 5 ∧
      readBit (mid 2 (List.replicate 16 9 ++ [0x00]) 0 0 0 true).rom (bitBase 0) 0 = .ok (false, 1) ∧ 8 < 0 + 9 :=
  ⟨by decide +kernel, rfl, rfl, by decide +kernel, rfl, by decide +kernel, by decide +kernel, rfl, by decide, rfl,
    by decide⟩
/-- The last bit of the stream, and the cursor at its end. -/
theorem test_wit_BitReadsMostSignificantFirst :
    ((15 : Nat) : Int) < 8 * ((bitRom.len : Int) - 0) ∧ ((16 : Nat) : Int) = 8 * ((bitRom.len : Int) - 0) ∧
      (0 : Int) ≤ 0 ∧ 8 * ((bitRom.len : Int) - 0) ≤ (17 : Nat) := by decide +kernel
/-- One more bit read, and one more bit past the end. -/
theorem test_wit_BitsAccumulateFirstBitHighest :
    readBits bitRom 0 4 0 = .ok (0xA, 4) ∧ readBit bitRom 0 4 = .ok (false, 5) ∧
      readBits bitRom 0 16 0 = .ok (0xA53C, 16) ∧ readBit bitRom 0 16 = .error ⟨.outOfBounds, .bitPastEnd, 2⟩ ∧
      readBits bitRom 0 17 0 = .error ⟨.outOfBounds, .bitPastEnd, 2⟩ := ⟨rfl, rfl, rfl, rfl, rfl⟩

/-! ### Witnesses: the step -/

theorem test_wit_StepRunsDecodedUnit :
    fetch (mid 1 [0x80] 0 0 0 false) = .unit .rleNop ∧ (ready [] 0 0).host = [.start] ∧
      (ready [] 0 0).entry = some 0 ∧ EngineTurn (midIdle 1 [0x80] 0 0 0 false) ∧
      (withHost (.port .reset) State.reset).host = [.port .reset] := by
  refine ⟨rfl, rfl, rfl, ?_, rfl⟩
  decide +kernel
/-- One unit per format. -/
theorem test_wit_FetchedUnitStandsInRom :
    fetch (mid 0 [5] 0 0 0 false) = .unit (.negByte 5) ∧ fetch (mid 1 [0x81] 0 0 0 false) = .unit (.rleRep 0x81) ∧
      fetch (mid 2 (List.replicate 16 3) 0 0 0 false) = .unit (.dictLoad (Vector.replicate 16 3)) ∧
      fetch (mid 2 (List.replicate 16 9 ++ [0xD0]) 0 0 0 true) = .unit (.m2Hit 10) ∧
      EngineTurn (mid 0 [5] 0 0 0 false) :=
  ⟨rfl, rfl, rfl, rfl, .inl rfl⟩
theorem test_wit_UnitsRefusedOutsideTheirStep :
    ¬InStep .neg State.reset ∧ ¬InStep .rle (mid 2 [] 0 0 0 true) ∧ ¬InStep .dictLoad (mid 2 [] 0 0 0 true) ∧
      ¬InStep .code (mid 2 [] 0 0 0 false) := by decide +kernel
theorem test_wit_NoStepOutsideBusy : EngineTurn State.reset ∧ State.reset.ctrl ≠ .busy := by decide +kernel
/-- An engine step, a waiting step, a START, a reset and another access, each with a next state. -/
theorem test_wit_StateTransitionsLegal :
    (∃ t, step (mid 1 [0x80] 0 0 0 false) = .next t) ∧ EngineTurn (mid 1 [0x80] 0 0 0 false) ∧
      (∃ t, step State.reset = .next t) ∧ (∃ t, step (ready [] 0 0) = .next t) ∧
      (∃ t, step (withHost (.port .reset) State.reset) = .next t) ∧
      (∃ t, step (withHost (.port (.writeStatus 0)) State.reset) = .next t) ∧
      PortOp.writeStatus 0 ≠ .reset :=
  ⟨⟨_, rfl⟩, .inl rfl, ⟨_, rfl⟩, ⟨_, rfl⟩, ⟨_, rfl⟩, ⟨_, rfl⟩, by decide⟩

/-! ### Witnesses: faults and the invariant -/

/-- A decode in progress of any mode meets the invariant where its cursors agree with its output. -/
theorem mid_inv {mode : Byte} {rom : List Byte} {n p b : Nat} {loaded : Bool} (hmode : mode.toNat ≤ 2)
    (hrom : 0 < rom.length) (hn : n < 512) (h0 : mode = 0 → loaded = false ∧ p = n ∧ p ≤ rom.length)
    (h1 : mode = 1 → loaded = false ∧ p ≤ rom.length)
    (h2 : mode = 2 → loaded = true → 16 ≤ rom.length ∧ b ≤ 8 * (rom.length - 16))
    (h3 : mode = 2 → loaded = false → b = 0 ∧ n = 0) : Inv (mid mode rom n p b loaded) := by
  have hw : entryMode (entryWord mode 0xFFFFFF) = mode := entryMode_entryWord _ _
  have hraw : entryRaw (entryWord mode 0xFFFFFF) = 0xFFFFFF := entryRaw_entryWord _ _
  have hsext : sext24 0xFFFFFF = -1 := rfl
  refine
    { romWf := Rom.ofBytes_wf rom
      ocntLe := fun k hk => by cases hk; omega
      outHeld := fun _ => ⟨n, rfl, fun j hj => ?_⟩
      dictHeld := fun k hk => ?_
      offsetRange := fun o ho => by cases ho; omega
      busy := fun _ => ?_
      done := fun h => by cases h
      doneSrc := fun h => by cases h
      faultKind := by simp [mid, State.reset]
      faultCause := by simp [mid, State.reset]
      noInternal := by simp [mid, State.reset]
      faddrClear := fun _ => rfl }
  · have : (mid mode rom n p b loaded).outAt j =
        (writeOut (Vector.replicate 512 none) 0 (List.replicate n 7))[j] := dif_pos hj
    rw [this, writeOut_getElem]
    split
    · simp_all
    · simp only [List.length_replicate] at *; simp; omega
  · have : (mid mode rom n p b loaded).dictAt k = if loaded then some 9 else none := dictAt_replicate rfl k hk
    rw [this]
    cases loaded <;> simp [mid]
  · exact
      { inputs := ⟨_, 1, rfl, rfl, congrArg some hw.symm, by rw [hraw]; rfl, by rw [hraw]; rfl, by rw [hw]; exact hmode,
          fun h => by have := ((word_eq_zero_iff _).1 h).2; rw [hraw] at this; cases this⟩
        src := ⟨0, rfl, hrom⟩
        ocnt := ⟨n, rfl, hn⟩
        cursors := ⟨p, b, rfl, rfl⟩
        endoff := rfl
        mode0 := fun h => by
          obtain ⟨hl, hp, hle⟩ := h0 (by injection h)
          exact ⟨hl, 0, n, p, rfl, rfl, rfl, by omega, hle⟩
        mode1 := fun h => by
          obtain ⟨hl, hle⟩ := h1 (by injection h)
          exact ⟨hl, 0, p, rfl, rfl, by omega, hle⟩
        mode2 := fun h hl => by
          obtain ⟨ha, hb⟩ := h2 (by injection h) hl
          exact ⟨0, b, rfl, rfl, by simpa [mid, Rom.ofBytes] using ha, by simpa [mid, Rom.ofBytes] using hb⟩
        unloaded := fun h hl => by
          obtain ⟨hb, hn⟩ := h3 (by injection h) hl
          subst hb hn
          exact ⟨rfl, rfl⟩ }

/-- BYTE_PAST_END in mode 0, BIT_PAST_END in mode 2 and RUN_OVERFLOW in mode 1. -/
theorem test_wit_DecodeFaultTable :
    (Inv (mid 0 [5] 1 1 0 false) ∧ ∃ t, step (mid 0 [5] 1 1 0 false) = .next t ∧ t.ctrl = .fault) ∧
      (Inv (mid 2 (List.replicate 16 3) 0 0 0 true) ∧
        ∃ t, step (mid 2 (List.replicate 16 3) 0 0 0 true) = .next t ∧ t.ctrl = .fault) ∧
      (Inv (mid 1 [1] 511 0 0 false) ∧ ∃ t, step (mid 1 [1] 511 0 0 false) = .next t ∧ t.ctrl = .fault) :=
  ⟨⟨mid_inv (by decide) (by decide) (by decide) (by decide) (by decide) (by decide) (by decide), _, rfl, rfl⟩,
   ⟨mid_inv (by decide) (by decide) (by decide) (by decide) (by decide) (by decide) (by decide), _, rfl, rfl⟩,
   ⟨mid_inv (by decide) (by decide) (by decide) (by decide) (by decide) (by decide) (by decide), _, rfl, rfl⟩⟩
theorem test_wit_DecodeFaultsArePrecise :
    EngineTurn (midIdle 0 [5] 1 1 0 false) ∧ (midIdle 0 [5] 1 1 0 false).ctrl = .busy ∧
      ∃ t, step (midIdle 0 [5] 1 1 0 false) = .next t ∧ t.ctrl = .fault ∧ EngineTurn t :=
  ⟨.inr rfl, rfl, _, rfl, rfl, .inl rfl⟩
theorem test_wit_InternalIsUnreachable :
    Inv (mid 2 [5] 0 0 0 false) ∧ (mid 2 [5] 0 0 0 false).ctrl = .busy ∧
      (∃ t, step (mid 2 [5] 0 0 0 false) = .next t) ∧ EngineTurn (mid 2 [5] 0 0 0 false) :=
  ⟨mid_inv (by decide) (by decide) (by decide) (by decide) (by decide) (by decide) (by decide), rfl, ⟨_, rfl⟩, .inl rfl⟩
theorem test_wit_StepKeepsInvariant :
    Inv (mid 1 [0x80] 0 0 0 false) ∧ EngineTurn (mid 1 [0x80] 0 0 0 false) ∧
      ∃ t, step (mid 1 [0x80] 0 0 0 false) = .next t ∧ t.iptr = some 1 :=
  ⟨mid_inv (by decide) (by decide) (by decide) (by decide) (by decide) (by decide) (by decide), .inl rfl, _, rfl, rfl⟩
/-- A unit that goes on, one that faults, a dictionary load and a code. -/
theorem test_wit_DecodeUnitFrame :
    (∃ t, exec (.negByte 5) (mid 0 [5] 1 1 0 false) = .next t ∧ t.ctrl ≠ .fault) ∧
      (∃ t, exec (.rleLit 1) (mid 1 [1] 511 0 0 false) = .next t ∧ t.ctrl = .fault) ∧
      (∃ t, exec .rleNop (mid 1 [0x80] 0 0 0 false) = .next t) ∧
      (∃ t, exec (.dictLoad (Vector.replicate 16 3)) (mid 2 [] 0 0 0 false) = .next t) ∧
      (∃ t, exec (.m2Hit 0) (mid 2 [] 0 0 0 true) = .next t) :=
  ⟨⟨_, rfl, by decide +kernel⟩, ⟨_, rfl, rfl⟩, ⟨_, rfl⟩, ⟨_, rfl⟩, ⟨_, rfl⟩⟩
theorem test_wit_CursorsOnlyAdvance :
    (∃ t, exec (.m2Lit 5) (mid 2 [] 1 0 3 true) = .next t ∧ t.bptr = some 12) ∧
      (mid 2 [] 1 0 3 true).bptr = some 3 ∧ (mid 2 [] 1 0 3 true).ocnt = some 1 ∧
      (mid 2 [] 1 0 3 true).iptr = some 0 ∧ (Instr.m2Lit 5).format ≠ .entry32 :=
  ⟨⟨_, rfl, rfl⟩, rfl, rfl, rfl, by decide⟩

/-! ### Witnesses: the host and the ROM -/

theorem test_wit_ResetRegisters :
    (∃ t, hostAccess .reset (mid 1 [0x80] 0 0 0 false) = .next t ∧ t.ctrl = .idle ∧ EngineTurn t) ∧
      EngineTurn State.reset :=
  ⟨⟨_, rfl, rfl, .inl rfl⟩, .inl rfl⟩
/-- An image taken with no ROM there, one of the ROM's own length, and one byte more and less than it. -/
theorem test_wit_HostWritesInputs :
    State.reset.ctrl ≠ .busy ∧ (mid 1 [] 0 0 0 false).ctrl = .busy ∧ State.reset.rom.admits 2 ∧
      (ready [7, 8] 0 0).ctrl ≠ .busy ∧ (ready [7, 8] 0 0).rom.admits 2 ∧ ¬(ready [7, 8] 0 0).rom.admits 1 ∧
      ¬(ready [7, 8] 0 0).rom.admits 3 := by decide +kernel
/-- A register with and without a value, a block that is done, and one that is not. -/
theorem test_wit_HostReadsByRights :
    (mid 1 [] 0 0 0 false).mode = some 1 ∧ (mid 1 [] 0 0 0 false).offset = some (-1) ∧
      (mid 1 [] 0 0 0 false).src = some 0 ∧ State.reset.mode = none ∧ State.reset.ctrl ≠ .done ∧
      (zeroBlock State.reset).ctrl = .done ∧ (zeroBlock State.reset).outAt 511 = some 0 ∧
      (zeroBlock State.reset).endoff = some 0 ∧ (ready [] 3 5).ctrl ≠ .busy ∧ (ready [] 3 5).entry = some 5 ∧
      (ready [] 3 5).dataBase = some 3 ∧ State.reset.ctrl ≠ .busy ∧ State.reset.entry = none ∧
      State.reset.dataBase = none ∧ (mid 1 [] 0 0 0 false).ctrl = .busy := by decide +kernel
theorem test_wit_EntryWordIsBigEndian :
    RomHolds (Rom.ofBytes [9, 1, 2, 3, 4]) 1 [1, 2, 3, 4] ∧
      memReadWord (Rom.ofBytes [9, 1, 2, 3, 4]) 1 = .ok 0x01020304 := ⟨by decide +kernel, rfl⟩
/-- A step without a load beside a BUSY engine, a load beside one, and a load with none. -/
theorem test_wit_EnginesShareRom :
    (Cluster.mk [mid 1 [0x80] 0 0 0 false, mid 1 [0x80] 0 0 0 false]).shares (Rom.ofBytes [0x80]) ∧
      loadsRom (mid 1 [0x80] 0 0 0 false) = false ∧ (∃ t, step (mid 1 [0x80] 0 0 0 false) = .next t) ∧
      (Cluster.mk [withHost (.port (.loadRom [5])) State.reset, { State.reset with ctrl := .busy }]).shares
        State.reset.rom ∧
      loadsRom (withHost (.port (.loadRom [5])) State.reset) = true ∧
      (Cluster.mk [withHost (.port (.loadRom [5])) State.reset, { State.reset with ctrl := .busy }]).anyBusy = true ∧
      (Cluster.mk [withHost (.port (.loadRom [5])) State.reset]).anyBusy = false ∧
      (∃ t, step (withHost (.port (.loadRom [5])) State.reset) = .next t) :=
  ⟨⟨by simp, by intro s hs; simp at hs; subst hs; rfl⟩, rfl, ⟨_, rfl⟩,
    ⟨by simp, by intro s hs; simp at hs; rcases hs with rfl | rfl <;> rfl⟩, rfl, rfl, rfl, ⟨_, rfl⟩⟩

/-! ### Witnesses: blocks -/

/-- A ROM image holds its own bytes from address 0 on. -/
theorem romHolds_image (image : List Byte) : RomHolds (Rom.ofBytes image) 0 image := by
  intro k hk
  have hb := cellByte_cellsOf 0 k image
  have hin := romByte_inside (m := Rom.ofBytes image) (a := k) hk
  rw [Int.zero_add, hin]
  simp only [Rom.ofBytes, Nat.zero_add] at hb ⊢
  rw [hb, List.getElem?_eq_getElem hk, List.getD_eq_getElem _ _ hk]

/-- The storage inside the ROM, cut by its end, and before and behind it. -/
theorem test_wit_ModeZeroBlockResult :
    Started (ready (List.replicate 512 1) 1 0x00FFFFFF) 1 0x00FFFFFF ∧ entryMode 0x00FFFFFF = 0 ∧
      entryRaw 0x00FFFFFF ≠ 0 ∧ ((1 : Nat) : Int) + sext24 (entryRaw 0x00FFFFFF) = 0 ∧
      (0 : Int) + 512 ≤ (ready (List.replicate 512 1) 1 0x00FFFFFF).rom.len ∧
      Started (ready [1] 1 0x00FFFFFF) 1 0x00FFFFFF ∧ ((ready [1] 1 0x00FFFFFF).rom.len : Int) < 0 + 512 ∧
      ((0 : Nat) : Int) + sext24 (entryRaw 0x00FFFFFF) < 0 :=
  ⟨⟨rfl, by decide, rfl, rfl⟩, by decide, by decide, by decide, by decide +kernel,
    ⟨rfl, by decide, rfl, rfl⟩, by decide, by decide⟩
theorem test_wit_ModeOneBlockResult :
    Started (ready [0x80] 1 0x01FFFFFF) 1 0x01FFFFFF ∧ entryMode 0x01FFFFFF = 1 ∧
      ((0 : Nat) : Int) = (1 : Nat) + sext24 (entryRaw 0x01FFFFFF) ∧ 0 < (ready [0x80] 1 0x01FFFFFF).rom.len := by
  decide +kernel
theorem test_wit_ModeTwoBlockResult :
    Started (ready [0x80] 1 0x02FFFFFF) 1 0x02FFFFFF ∧ entryMode 0x02FFFFFF = 2 ∧
      ((0 : Nat) : Int) = (1 : Nat) + sext24 (entryRaw 0x02FFFFFF) ∧ 0 < (ready [0x80] 1 0x02FFFFFF).rom.len := by
  decide +kernel
theorem test_wit_NegatedBlockDecodes :
    Started (ready ((List.replicate 512 1).map negate) 1 0x00FFFFFF) 1 0x00FFFFFF ∧ entryMode 0x00FFFFFF = 0 ∧
      entryRaw 0x00FFFFFF ≠ 0 ∧ (List.replicate 512 (1 : Byte)).length = 512 ∧
      RomHolds (ready ((List.replicate 512 1).map negate) 1 0x00FFFFFF).rom
        ((1 : Nat) + sext24 (entryRaw 0x00FFFFFF)) ((List.replicate 512 (1 : Byte)).map negate) :=
  ⟨⟨rfl, by decide, rfl, rfl⟩, by decide, by decide, List.length_replicate, romHolds_image _⟩
/-- V40's stream. -/
theorem test_wit_RleStreamRoundTrip :
    Started (ready [0x81, 9, 0x81, 9, 0x81, 9, 0x81, 9] 1 0x01FFFFFF) 1 0x01FFFFFF ∧ entryMode 0x01FFFFFF = 1 ∧
      streamBytes (List.replicate 4 (.rep 128 9)) = some [0x81, 9, 0x81, 9, 0x81, 9, 0x81, 9] ∧
      ((List.replicate 4 (AsmLine.rep 128 9)).flatMap commandRun).length = 512 ∧
      RomHolds (ready [0x81, 9, 0x81, 9, 0x81, 9, 0x81, 9] 1 0x01FFFFFF).rom
        ((1 : Nat) + sext24 (entryRaw 0x01FFFFFF)) [0x81, 9, 0x81, 9, 0x81, 9, 0x81, 9] := by decide +kernel
/-- 512 hits of index 0: 2560 bits, 320 bytes of 1000 0100 0010 0001 0000 1000 0100 0010 0001 0000. -/
def hitBytes : List Byte := (List.replicate 64 [0x84, 0x21, 0x08, 0x42, 0x10]).flatten

theorem test_wit_PackedStreamRoundTrip :
    Started (ready ((Vector.replicate 16 3).toList ++ hitBytes) 1 0x02FFFFFF) 1 0x02FFFFFF ∧
      entryMode 0x02FFFFFF = 2 ∧ (List.replicate 512 (Instr.m2Hit 0)).length = 512 ∧
      (∀ i ∈ List.replicate 512 (Instr.m2Hit 0), i.format = .code) ∧
      bitsOfBytes hitBytes = (List.replicate 512 (Instr.m2Hit 0)).flatMap encode ++ [] ∧
      RomHolds (ready ((Vector.replicate 16 3).toList ++ hitBytes) 1 0x02FFFFFF).rom
        ((1 : Nat) + sext24 (entryRaw 0x02FFFFFF)) ((Vector.replicate 16 3).toList ++ hitBytes) :=
  ⟨⟨rfl, by decide, rfl, rfl⟩, by decide, List.length_replicate, fun i hi => by rw [List.eq_of_mem_replicate hi]; rfl,
    by decide +kernel, romHolds_image _⟩
/-- A START of every mode. -/
theorem test_wit_EveryDecodeEnds :
    Started (ready [1] 0 0) 0 0 ∧ Started (ready [1] 0 0x01000000) 0 0x01000000 ∧
      Started (ready [1] 0 0x02000000) 0 0x02000000 ∧ Started (ready [1] 0 0x03000000) 0 0x03000000 := by
  decide +kernel
/-- An engine alone that runs the zero block and then waits. -/
theorem test_wit_EngineDecodesAlone :
    (Cluster.mk [ready [] 0 0]).shares (Rom.ofBytes []) ∧ (Cluster.mk [ready [] 0 0]).engines[0]? = some (ready [] 0 0) ∧
      Started (ready [] 0 0) 0 0 ∧
      (∃ d, (Cluster.mk [ready [] 0 0]).runOrder (0 :: List.replicate 514 0) = some d) ∧
      decodeSteps (Rom.ofBytes []) ≤ (0 :: List.replicate 514 0).count 0 := by
  have hended : ∀ n, (Cluster.mk [zeroBlock (acceptStart 0 0 none { ready [] 0 0 with host := [] })]).runOrder
      (List.replicate n 0) = some (Cluster.mk [zeroBlock (acceptStart 0 0 none { ready [] 0 0 with host := [] })]) := by
    intro n
    induction n with
    | zero => rfl
    | succ n ih => exact ih
  have hfirst : (Cluster.mk [ready [] 0 0]).stepAt 0 =
      some (Cluster.mk [zeroBlock (acceptStart 0 0 none { ready [] 0 0 with host := [] })]) := rfl
  have hrun : ∀ n, ∃ d, (Cluster.mk [ready [] 0 0]).runOrder (0 :: List.replicate n 0) = some d := fun n =>
    ⟨_, by rw [Cluster.runOrder, hfirst, Option.bind_some, hended n]⟩
  have hcount : ∀ n, decodeSteps (Rom.ofBytes []) ≤ n + 1 → decodeSteps (Rom.ofBytes []) ≤
      (0 :: List.replicate n 0).count 0 := fun n h => by
    rw [List.count_cons_self, List.count_replicate_self]; exact h
  exact ⟨⟨by simp, by intro s hs; simp at hs; subst hs; rfl⟩, rfl, ⟨rfl, by decide, rfl, rfl⟩, hrun 514,
    hcount 514 (by decide)⟩
/-- A fill of 1 byte and one of 512. -/
theorem test_wit_PseudoInstructionsExpand :
    1 ≤ 1 ∧ 1 ≤ 512 ∧ expandPseudo (.fill 1 9) = .ok [.lit [9]] ∧
      expandPseudo (.fill 512 9) = .ok [.rep 128 9, .rep 128 9, .rep 128 9, .rep 128 9] :=
  ⟨by decide, by decide, rfl, rfl⟩

end Sys2Proof.Tests
end

section
/-! PROOFS. The obligations of 00_scope.md: START against an earlier decode (R11, R100), precise faults of a decode step
(R11, R217), and the host's writes and reads (R7, R13, R41). -/

namespace Sys2Proof.Machine

/-! ### START and an earlier decode -/

/-- The three forms of a resolved START: one that faults touches the earlier decode nowhere else, the zero block and the
beginning of a decode come after the clearing (40_entry_resolve.md R100; 60_exceptions.md R217). -/
theorem resolve_faults_or_clears (mode : Byte) (raw : BitVec 24) (base : Nat) (s : State) :
    (∃ f src, resolve mode raw base s = faultStart f mode (sext24 raw) src s) ∨
    (∃ src, resolve mode raw base s = zeroBlock (acceptStart mode (sext24 raw) src s)) ∨
    (∃ a src, resolve mode raw base s = beginDecode a (acceptStart mode (sext24 raw) src s)) := by
  rcases resolve_cases mode raw base s with ⟨-, e⟩ | ⟨-, -, e⟩ | ⟨-, -, -, e⟩ | ⟨-, -, -, -, e⟩
  · exact .inl ⟨_, _, e⟩
  · exact .inr (.inl ⟨_, e⟩)
  · exact .inl ⟨_, _, e⟩
  · exact .inr (.inr ⟨_, _, e⟩)

theorem zeroBlock_noFaultRecorded (mode : Byte) (off : Int) (src : Option Int) (s : State) :
    NoFaultRecorded (zeroBlock (acceptStart mode off src s)) :=
  ⟨rfl, rfl, rfl⟩

theorem beginDecode_noFaultRecorded (a : Int) (mode : Byte) (off : Int) (src : Option Int) (s : State) :
    NoFaultRecorded (beginDecode a (acceptStart mode off src s)) :=
  ⟨rfl, rfl, rfl⟩

theorem beginDecode_nothingProduced (a : Int) (mode : Byte) (off : Int) (src : Option Int) (s : State) :
    NothingProduced (beginDecode a (acceptStart mode off src s)) :=
  ⟨outAt_cleared rfl, dictAt_cleared rfl, rfl, rfl⟩

/-- Settles O12, by the three forms of a resolved START. -/
theorem startClearsEarlierDecode : Obligations.StartClearsEarlierDecode := by
  intro i s t hi h
  obtain ⟨mode, raw, hstart⟩ := exec_entry_eq_start hi
  refine ⟨exec_keepsInputs h, ?_⟩
  obtain ⟨base, -, rfl⟩ := start_next ((hstart s).symm.trans h)
  rcases resolve_faults_or_clears mode raw base s with ⟨f, src, e⟩ | ⟨src, e⟩ | ⟨a, src, e⟩ <;> rw [e]
  · exact ⟨nofun, fun hf => absurd rfl hf, fun _ => rfl⟩
  · exact ⟨nofun, fun _ => zeroBlock_noFaultRecorded .., nofun⟩
  · exact ⟨fun _ => beginDecode_nothingProduced .., fun _ => beginDecode_noFaultRecorded .., nofun⟩

/-! ### Faults of a decode step -/

/-- An engine step that ends a decode in FAULT is fault entry in the state before it, whether the fault was raised while
the unit was read or while it was performed (60_exceptions.md R217). -/
theorem step_engineFault {s t : State} (hturn : EngineTurn s) (hbusy : s.ctrl = .busy) (h : step s = .next t)
    (hfault : t.ctrl = .fault) : ∃ f, t = takeFault f (takeCommand s) := by
  rcases step_cases s with ⟨-, e⟩ | ⟨i, hi, e⟩ | ⟨f, -, e⟩ | ⟨op, hop, -⟩ | ⟨r, -, e⟩
  · cases e.symm.trans h
    simp [hbusy] at hfault
  · rw [fetch_engineTurn hturn] at hi
    rcases exec_unit_next (fetchStep_unit_format hi) (e.symm.trans h) with ⟨f, rfl, -⟩ | ⟨-, hb | hd⟩
    · exact ⟨f, rfl⟩
    · simp [hb] at hfault
    · simp [hd] at hfault
  · cases e.symm.trans h
    exact ⟨f, rfl⟩
  · exact absurd (fetch_engineTurn hturn ▸ hop) (fetchStep_ne_access s op)
  · cases e.symm.trans h

/-- Outside BUSY an engine's turn waits: it takes an idle command off the host's list and changes nothing else (log 6). -/
theorem step_engineTurn_notBusy {s : State} (hturn : EngineTurn s) (hbusy : s.ctrl ≠ .busy) :
    step s = .next (takeCommand s) := by
  have hfetch : fetch s = .nothing := by rw [fetch_engineTurn hturn, fetchStep_notBusy hbusy]
  rw [step, hfetch]

/-- Settles O37: the step is a fault entry, after which the engine waits. -/
theorem decodeFaultsArePrecise : Obligations.DecodeFaultsArePrecise := by
  intro s t hturn hbusy h hfault
  obtain ⟨f, rfl⟩ := step_engineFault hturn hbusy h hfault
  exact ⟨rfl, fun hturn' => step_engineTurn_notBusy hturn' (by simp)⟩

/-! ### Host writes -/

/-- Settles O45: each clause is one branch of the access it names. -/
theorem hostWritesInputs : Obligations.HostWritesInputs := by
  intro s w n image
  constructor
  · intro hfree
    exact ⟨if_neg hfree, if_neg hfree, fun hfits => (if_neg hfree).trans (if_pos hfits),
      fun hfits => (if_neg hfree).trans (if_neg hfits)⟩
  · intro hbusy
    exact ⟨if_pos hbusy, if_pos hbusy, if_pos hbusy⟩

/-! ### Host reads -/

/-- A register readable only under a condition reads as any other where the condition holds (10_state.md R41(d)). -/
theorem readableWhen_holds {ok : Bool} (h : ok = true) (r : Reg) (v : Option Int) :
    readableWhen ok r v = held r v :=
  if_pos h

/-- A register readable only under a condition is refused where the condition fails (10_state.md R41(d)). -/
theorem readableWhen_fails {ok : Bool} (h : ok = false) (r : Reg) (v : Option Int) :
    readableWhen ok r v = .error (.notReadableNow r) :=
  if_neg (Bool.eq_false_iff.1 h)

/-- What a readable register returns to the host is all that the access changes (10_state.md R41; log 5). -/
theorem hostAccess_read_ok {r : Reg} {s : State} {v : Int} (h : readReg r s = .ok v) :
    hostAccess (.read r) s = .next { s with hostData := some v } := by
  simp only [hostAccess, h]

theorem hostAccess_read_error {r : Reg} {s : State} {e : Refusal} (h : readReg r s = .error e) :
    hostAccess (.read r) s = .refused e := by
  simp only [hostAccess, h]

theorem readReg_mode (s : State) : readReg .mode s = held .mode (s.mode.map fun m => (m.toNat : Int)) := rfl

theorem readReg_offset (s : State) : readReg .offset s = held .offset s.offset := rfl

theorem readReg_src (s : State) : readReg .src s = held .src s.src := rfl

theorem get_out_eq_outAt (s : State) (j : Fin 512) : s.out.get j = s.outAt j := by
  simp [State.outAt, Vector.get_eq_getElem]

theorem readReg_out_done {s : State} (h : s.ctrl = .done) (j : Fin 512) :
    readReg (.out j) s = held (.out j) ((s.outAt j).map fun b => (b.toNat : Int)) := by
  rw [← get_out_eq_outAt]
  exact readableWhen_holds (beq_iff_eq.2 h) ..

theorem readReg_out_notDone {s : State} (h : s.ctrl ≠ .done) (j : Fin 512) :
    readReg (.out j) s = .error (.notReadableNow (.out j)) :=
  readableWhen_fails (beq_eq_false_iff_ne.2 h) ..

theorem readReg_endoff_done {s : State} (h : s.ctrl = .done) :
    readReg .endoff s = held .endoff (s.endoff.map fun n => (n : Int)) :=
  readableWhen_holds (beq_iff_eq.2 h) ..

theorem readReg_endoff_notDone {s : State} (h : s.ctrl ≠ .done) :
    readReg .endoff s = .error (.notReadableNow .endoff) :=
  readableWhen_fails (beq_eq_false_iff_ne.2 h) ..

theorem readReg_entry_notBusy {s : State} (h : s.ctrl ≠ .busy) :
    readReg .entry s = held .entry (s.entry.map fun w => (w.toNat : Int)) :=
  readableWhen_holds (bne_iff_ne.2 h) ..

theorem readReg_entry_busy {s : State} (h : s.ctrl = .busy) :
    readReg .entry s = .error (.notReadableNow .entry) :=
  readableWhen_fails (bne_eq_false_iff_eq.2 h) ..

theorem readReg_dataBase_notBusy {s : State} (h : s.ctrl ≠ .busy) :
    readReg .dataBase s = held .dataBase (s.dataBase.map fun n => (n : Int)) :=
  readableWhen_holds (bne_iff_ne.2 h) ..

theorem readReg_dataBase_busy {s : State} (h : s.ctrl = .busy) :
    readReg .dataBase s = .error (.notReadableNow .dataBase) :=
  readableWhen_fails (bne_eq_false_iff_eq.2 h) ..

/-- Settles O46, register by register, by the lemma for each register's right. -/
theorem hostReadsByRights : Obligations.HostReadsByRights := by
  intro s
  refine ⟨fun _ _ => hostAccess_read_ok, fun _ _ => hostAccess_read_error, rfl, rfl, rfl, rfl, ?mode, ?offset, ?src,
    ?noMode, ?noOffset, ?noSrc, ?out, ?endoff, ?notDone, ?notBusy, ?busy, rfl, rfl, rfl, rfl, fun _ => rfl⟩
  case mode => intro m h; simp [readReg_mode, h]
  case offset => intro o h; simp [readReg_offset, h]
  case src => intro a h; simp [readReg_src, h]
  case noMode => intro h; simp [readReg_mode, h]
  case noOffset => intro h; simp [readReg_offset, h]
  case noSrc => intro h; simp [readReg_src, h]
  case out => intro j b hdone h; simp [readReg_out_done hdone, h]
  case endoff => intro e hdone h; simp [readReg_endoff_done hdone, h]
  case notDone => exact fun h => ⟨readReg_out_notDone h, readReg_endoff_notDone h⟩
  case notBusy =>
    intro hfree
    rw [readReg_entry_notBusy hfree, readReg_dataBase_notBusy hfree]
    exact ⟨fun w h => by simp [h], fun n h => by simp [h], fun h => by simp [h], fun h => by simp [h]⟩
  case busy => exact fun h => ⟨readReg_entry_busy h, readReg_dataBase_busy h⟩

end Sys2Proof.Machine
end

section
/-! PROOFS. The obligations of 10_state.md: the invariant at reset and over every step (R40), the transitions of STATE
(R25, R108), the frame and the cursors of a decode's units (R21 to R34, R42), and the STATUS view (R39). -/

namespace Sys2Proof.Machine

/-! ### Faults under the invariant -/

/-- A fault whose cause says that an access was out of bounds (10_state.md R36). -/
abbrev BoundsFault (f : FaultInfo) : Prop :=
  f.kind = .outOfBounds ∧ f.cause ≠ .noCause

theorem memRead_boundsFault {m : Rom} {a : Int} {f : FaultInfo} (h : memRead m a = .error f) : BoundsFault f := by
  obtain ⟨-, rfl⟩ := memRead_error_iff.1 h
  exact ⟨rfl, nofun⟩

theorem readBytes_boundsFault {m : Rom} {a : Int} {n : Nat} {f : FaultInfo} (h : readBytes m a n = .error f) :
    BoundsFault f := by
  obtain ⟨k, -, -, -, rfl⟩ := readBytes_error h
  exact ⟨rfl, nofun⟩

theorem repRun_boundsFault {m : Rom} {a : Int} {c : Byte} {f : FaultInfo} (h : repRun m a c = .error f) :
    BoundsFault f := by
  unfold repRun at h
  split at h
  · cases h
    exact memRead_boundsFault (by assumption)
  · cases h

theorem readBit_boundsFault {m : Rom} {bb : Int} {p : Nat} {f : FaultInfo} (h : readBit m bb p = .error f) :
    BoundsFault f := by
  unfold readBit at h
  split at h
  · cases h
    exact ⟨rfl, nofun⟩
  · split at h
    · cases h
      exact memRead_boundsFault (by assumption)
    · cases h

theorem readBitList_boundsFault {m : Rom} {bb : Int} {n p : Nat} {f : FaultInfo}
    (h : readBitList m bb n p = .error f) : BoundsFault f := by
  induction n generalizing p with
  | zero => cases h
  | succ n ih =>
    unfold readBitList at h
    split at h
    · cases h
      exact readBit_boundsFault (by assumption)
    · split at h
      · cases h
        exact ih (by assumption)
      · cases h

/-- In BUSY the mode is one of the three that have a step (10_state.md R40(d)). -/
theorem BusyInv.mode_cases {s : State} (h : BusyInv s) : s.mode = some 0 ∨ s.mode = some 1 ∨ s.mode = some 2 := by
  obtain ⟨w, base, -, -, hm, -, -, hle, -⟩ := h.inputs
  rcases entryClass w with h3 | rfl | ⟨h0, -⟩ | h1 | h2
  · omega
  · exact .inl hm
  · exact .inl (h0 ▸ hm)
  · exact .inr (.inl (h1 ▸ hm))
  · exact .inr (.inr (h2 ▸ hm))

theorem BusyInv.stepKind_ne_internal {s : State} (h : BusyInv s) {m : Byte} (hm : s.mode = some m) :
    stepKind m s.dictValid ≠ .internal := by
  rcases h.mode_cases with hm' | hm' | hm' <;> cases hm.symm.trans hm' <;> cases s.dictValid <;> decide

/-- The bytes or bits of a decode's next unit can only fault past the ROM's end (60_exceptions.md R213, R214, R216). -/
theorem BusyInv.fetchStep_boundsFault {s : State} (h : BusyInv s) {f : FaultInfo} (hf : fetchStep s = .raise f) :
    BoundsFault f := by
  obtain ⟨-, m, hm, ⟨p, -, -, -, rfl⟩ | ⟨-, a, -, hread⟩ | ⟨-, a, p, -, -, hbit | ⟨c, q, -, hbits⟩⟩ | ⟨hk, -⟩⟩ :=
    fetchStep_raise hf
  · exact ⟨rfl, nofun⟩
  · exact readBytes_boundsFault hread
  · exact readBit_boundsFault hbit
  · exact readBitList_boundsFault hbits
  · exact absurd hk (h.stepKind_ne_internal hm)

/-- In BUSY the engine reads a unit or faults: no register that the reading needs is without a value (00_scope.md R13). -/
theorem BusyInv.fetchStep_answers {s : State} (h : BusyInv s) (hbusy : s.ctrl = .busy) :
    (∃ i, fetchStep s = .unit i) ∨ ∃ f, fetchStep s = .raise f := by
  obtain ⟨w, base, -, -, hm, -⟩ := h.inputs
  obtain ⟨a, ha, -⟩ := h.src
  obtain ⟨p, b, hp, hb⟩ := h.cursors
  have hbyte : ∀ d : Byte → Instr, (∃ i, fetchByte s.rom p d = .unit i) ∨ ∃ f, fetchByte s.rom p d = .raise f := by
    intro d
    rcases fetchByte_eq (m := s.rom) (p := p) (d := d) rfl with ⟨-, e⟩ | ⟨c, -, e⟩
    · exact .inr ⟨_, e⟩
    · exact .inl ⟨_, e⟩
  have hcode : (∃ i, fetchCode s.rom a b = .unit i) ∨ ∃ f, fetchCode s.rom a b = .raise f := by
    rcases fetchCode_eq (m := s.rom) (a := a) (p := b) rfl with ⟨f, -, e⟩ | ⟨c, q, f, -, -, e⟩ | ⟨i, e⟩
    · exact .inr ⟨f, e⟩
    · exact .inr ⟨f, e⟩
    · exact .inl ⟨i, e⟩
  have hdict : (∃ i, fetchDict s.rom a = .unit i) ∨ ∃ f, fetchDict s.rom a = .raise f := by
    rcases fetchDict_eq (m := s.rom) (a := a) rfl with ⟨f, -, e⟩ | ⟨i, e⟩
    · exact .inr ⟨f, e⟩
    · exact .inl ⟨i, e⟩
  simp only [fetchStep, hbusy, if_true, hm, ha, hp, hb, fetchNeed_some]
  cases stepKind (entryMode w) s.dictValid with
  | neg => exact hbyte _
  | rle => exact hbyte _
  | dictLoad => exact hdict
  | code => exact hcode
  | internal => exact .inr ⟨_, rfl⟩

/-! ### Steps that leave the decode as it is -/

/-- The invariant says nothing of the host's own fields (log 4, log 5). -/
theorem BusyInv.setHost {s : State} (h : BusyInv s) (q : List HostCmd) (v : Option Int) :
    BusyInv { s with host := q, hostData := v } :=
  ⟨h.inputs, h.src, h.ocnt, h.cursors, h.endoff, h.mode0, h.mode1, h.mode2, h.unloaded⟩

theorem Inv.setHost {s : State} (h : Inv s) (q : List HostCmd) (v : Option Int) :
    Inv { s with host := q, hostData := v } :=
  ⟨h.romWf, h.ocntLe, h.outHeld, h.dictHeld, h.offsetRange, fun hbusy => (h.busy hbusy).setHost q v, h.done, h.doneSrc,
    h.faultKind, h.faultCause, h.noInternal, h.faddrClear⟩

theorem Inv.takeCommand {s : State} (h : Inv s) : Inv (takeCommand s) :=
  h.setHost s.host.tail s.hostData

/-- Outside BUSY the inputs are the host's to write (10_state.md R41(a)). -/
theorem Inv.setInputs {s : State} (h : Inv s) (hfree : s.ctrl ≠ .busy) (w : Option Word) (base : Option Nat) :
    Inv { s with entry := w, dataBase := base } :=
  ⟨h.romWf, h.ocntLe, h.outHeld, h.dictHeld, h.offsetRange, fun hbusy => absurd hbusy hfree, h.done, h.doneSrc,
    h.faultKind, h.faultCause, h.noInternal, h.faddrClear⟩

/-- SRC stays inside the ROM, since an image admitted once a ROM is there is of the same length (10_state.md R28;
log 8). -/
theorem Inv.loadRom {s : State} (h : Inv s) (hfree : s.ctrl ≠ .busy) {image : List Byte}
    (hfits : s.rom.admits image.length) : Inv { s with rom := Rom.ofBytes image } := by
  refine ⟨Rom.ofBytes_wf image, h.ocntLe, h.outHeld, h.dictHeld, h.offsetRange, fun hbusy => absurd hbusy hfree, h.done,
    fun hdone => ?_, h.faultKind, h.faultCause, h.noInternal, h.faddrClear⟩
  refine (h.doneSrc hdone).imp_right fun ⟨a, ha, hlt⟩ => ⟨a, ha, ?_⟩
  have hlen : (Rom.ofBytes image).len = image.length := rfl
  rcases hfits with h0 | hsame <;> (dsimp only; omega)

/-- Every register at its reset value (70_reset_and_hazards.md R250). -/
theorem inv_resetEngine {s : State} (h : s.rom.wf = true) : Inv (resetEngine s) where
  romWf := h
  ocntLe := nofun
  outHeld := by rintro (hbusy | hdone) <;> contradiction
  dictHeld k _ := by simp [dictAt_cleared (s := resetEngine s) rfl k, State.reset]
  offsetRange := nofun
  busy := nofun
  done := nofun
  doneSrc := nofun
  faultKind := by simp [State.reset]
  faultCause := by simp [State.reset]
  noInternal := nofun
  faddrClear _ := rfl

/-- Settles O40: the reset state is the reset of itself. -/
theorem invariantAtReset : Obligations.InvariantAtReset :=
  inv_resetEngine (s := State.reset) reset_rom_wf

theorem hostAccess_keepsInv {op : PortOp} {s t : State} (h : Inv s) (ht : hostAccess op s = .next t) : Inv t := by
  rcases hostAccess_next ht with ⟨w, -, hfree, rfl⟩ | ⟨n, -, hfree, rfl⟩ | ⟨w, -, rfl⟩ | ⟨image, -, hfree, hfits, rfl⟩ |
    ⟨-, rfl⟩ | ⟨r, v, -, -, rfl⟩
  · exact h.setInputs hfree (some w) s.dataBase
  · exact h.setInputs hfree s.entry (some n)
  · exact h
  · exact h.loadRom hfree hfits
  · exact inv_resetEngine h.romWf
  · exact h.setHost s.host (some v)

/-! ### Fault entry and START -/

/-- What fault entry asks of the fault it records (10_state.md R35, R36; 60_exceptions.md R216). -/
structure Recordable (f : FaultInfo) : Prop where
  isFault : f.kind ≠ .noFault
  notInternal : f.kind ≠ .internal
  cause : f.cause = .noCause ↔ f.kind ≠ .outOfBounds

theorem BoundsFault.recordable {f : FaultInfo} (h : BoundsFault f) : Recordable f := by
  obtain ⟨hkind, hcause⟩ := h
  exact ⟨by simp [hkind], by simp [hkind], by simp [hkind, hcause]⟩

/-- Fault entry keeps the invariant, whatever resolution the step leaves behind (60_exceptions.md R217). -/
theorem Inv.takeFault_resolved {s : State} (h : Inv s) {f : FaultInfo} (hf : Recordable f) {off : Option Int}
    (hoff : ∀ o, off = some o → -8388608 ≤ o ∧ o ≤ 8388607) (mode : Option Byte) (src : Option Int) :
    Inv (takeFault f { s with mode := mode, offset := off, src := src }) where
  romWf := h.romWf
  ocntLe := h.ocntLe
  outHeld := by rintro (hbusy | hdone) <;> contradiction
  dictHeld := h.dictHeld
  offsetRange := hoff
  busy := nofun
  done := nofun
  doneSrc := nofun
  faultKind := by simp [hf.isFault]
  faultCause := hf.cause
  noInternal := hf.notInternal
  faddrClear hnone := absurd hnone hf.isFault

theorem Inv.takeFault {s : State} (h : Inv s) {f : FaultInfo} (hf : Recordable f) : Inv (takeFault f s) :=
  h.takeFault_resolved hf h.offsetRange s.mode s.src

/-- The source's signed offset has 24 bits (30_encoding.md R74). -/
theorem sext24_range (v : BitVec 24) : -8388608 ≤ sext24 v ∧ sext24 v ≤ 8388607 := by
  have := v.isLt
  unfold sext24
  split <;> omega

theorem Inv.faultStart {s : State} (h : Inv s) {f : FaultInfo} (hf : Recordable f) (mode : Byte) (raw : BitVec 24)
    (src : Option Int) : Inv (faultStart f mode (sext24 raw) src s) :=
  h.takeFault_resolved hf (by rintro o ⟨⟩; exact sext24_range raw) (some mode) src

/-- The dictionary that START leaves empty (10_state.md R40(c)). -/
theorem dictHeld_cleared {s : State} (hdict : s.dict = Vector.replicate 16 none) (hvalid : s.dictValid = false) :
    ∀ k, k < 16 → (s.dictAt k ≠ none ↔ s.dictValid = true) := by
  intro k _
  simp [dictAt_cleared hdict k, hvalid]

/-- The zero block is complete at once (41_mode0.md R120). -/
theorem Inv.zeroBlock {s : State} (h : Inv s) : Inv (zeroBlock (acceptStart 0 0 none s)) where
  romWf := h.romWf
  ocntLe := by rintro n ⟨⟩; exact le_rfl
  outHeld _ := ⟨512, rfl, fun j hj => by
    have hout : (Machine.zeroBlock (acceptStart 0 0 none s)).outAt j = some 0 := outAt_replicate rfl j hj
    rw [hout]
    simp [hj]⟩
  dictHeld := dictHeld_cleared rfl rfl
  offsetRange := by rintro o ⟨⟩; decide
  busy := nofun
  done _ := ⟨rfl, nofun, 0, rfl, by decide⟩
  doneSrc _ := .inl ⟨rfl, rfl, rfl⟩
  faultKind := by simp
  faultCause := by simp
  noInternal := nofun
  faddrClear _ := rfl

/-- A decode begun on the entry word `w` is at its storage start, nothing output (40_entry_resolve.md R107). -/
theorem busyInv_beginDecode {s : State} {w : Word} {base : Nat} {a : Nat} (hentry : s.entry = some w)
    (hbase : s.dataBase = some base) (ha : (a : Int) = base + sext24 (entryRaw w)) (hmode : (entryMode w).toNat ≤ 2)
    (hw : w ≠ 0) (hlt : a < s.rom.len) :
    BusyInv (beginDecode a (acceptStart (entryMode w) (sext24 (entryRaw w)) (some (a : Int)) s)) where
  inputs := ⟨w, base, hentry, hbase, rfl, rfl, congrArg some ha, hmode, hw⟩
  src := ⟨a, rfl, hlt⟩
  ocnt := ⟨0, rfl, by decide⟩
  cursors := ⟨a, 0, rfl, rfl⟩
  endoff := rfl
  mode0 _ := ⟨rfl, a, 0, a, rfl, rfl, rfl, rfl, hlt.le⟩
  mode1 _ := ⟨rfl, a, a, rfl, rfl, le_rfl, hlt.le⟩
  mode2 := nofun
  unloaded _ _ := ⟨rfl, rfl⟩

theorem Inv.beginDecode {s : State} (h : Inv s) {a : Int} {mode : Byte} {raw : BitVec 24} {src : Option Int}
    (hbusy : BusyInv (beginDecode a (acceptStart mode (sext24 raw) src s))) :
    Inv (beginDecode a (acceptStart mode (sext24 raw) src s)) where
  romWf := h.romWf
  ocntLe := by rintro n ⟨⟩; decide
  outHeld _ := ⟨0, rfl, fun j _ => by
    simp [outAt_cleared (s := Machine.beginDecode a (acceptStart mode (sext24 raw) src s)) rfl j]⟩
  dictHeld := dictHeld_cleared rfl rfl
  offsetRange := by rintro o ⟨⟩; exact sext24_range raw
  busy _ := hbusy
  done := nofun
  doneSrc := nofun
  faultKind := by simp
  faultCause := by simp
  noInternal := nofun
  faddrClear _ := rfl

/-- START keeps the invariant in each of the four ways it ends (60_exceptions.md R220). -/
theorem start_keepsInv {s t : State} {w : Word} (h : Inv s) (hentry : s.entry = some w)
    (ht : start (entryMode w) (entryRaw w) s = .next t) : Inv t := by
  obtain ⟨base, ⟨-, -, hbase⟩, rfl⟩ := start_next ht
  rcases resolve_cases (entryMode w) (entryRaw w) base s with ⟨-, e⟩ | ⟨hmode, hoff, e⟩ | ⟨-, -, -, e⟩ |
    ⟨hmode, hnotZero, hge, hlt, e⟩ <;> rw [e]
  · exact h.faultStart ⟨by simp, by simp, by simp⟩ _ _ _
  · rw [hmode, hoff]
    exact h.zeroBlock
  · exact h.faultStart (BoundsFault.recordable ⟨rfl, by simp⟩) _ _ _
  · have hw : w ≠ 0 := by
      rintro rfl
      exact hnotZero ⟨rfl, rfl⟩
    obtain ⟨a, ha⟩ := Int.eq_ofNat_of_zero_le hge
    rw [ha] at hlt ⊢
    exact h.beginDecode (busyInv_beginDecode hentry hbase ha.symm hmode hw (Int.ofNat_lt.1 hlt))

/-! ### Output under the invariant -/

/-- The state `s` after an output of `bs` at `n`, the cursors moved to `p` and `b`: what every decode step that does not
fault leaves before completion, but for the load of the dictionary. -/
abbrev advance (n : Nat) (bs : List Byte) (p b : Nat) (s : State) : State :=
  { emit n bs s with iptr := some p, bptr := some b }

/-- A decode goes on after an output that does not fill the block, where the cursors moved as its mode has it
(10_state.md R40(d) to (g)). -/
theorem BusyInv.advance {s : State} (h : BusyInv s) {n p b : Nat} {bs : List Byte} (hlt : n + bs.length < 512)
    (mode0 : s.mode = some 0 → ∃ a : Nat, s.src = some (a : Int) ∧ p = a + (n + bs.length) ∧ p ≤ s.rom.len)
    (mode1 : s.mode = some 1 → ∃ a : Nat, s.src = some (a : Int) ∧ a ≤ p ∧ p ≤ s.rom.len)
    (mode2 : s.mode = some 2 → s.dictValid = true ∧ ∃ a : Nat, s.src = some (a : Int) ∧ a + 16 ≤ s.rom.len ∧
      b ≤ 8 * (s.rom.len - (a + 16))) :
    BusyInv (advance n bs p b s) where
  inputs := h.inputs
  src := h.src
  ocnt := ⟨_, rfl, hlt⟩
  cursors := ⟨p, b, rfl, rfl⟩
  endoff := h.endoff
  mode0 hm :=
    have ⟨a, ha, hp, hle⟩ := mode0 hm
    ⟨(h.mode0 hm).1, a, _, p, ha, rfl, rfl, hp, hle⟩
  mode1 hm :=
    have ⟨a, ha, hp⟩ := mode1 hm
    ⟨(h.mode1 hm).1, a, p, ha, rfl, hp⟩
  mode2 hm _ :=
    have ⟨_, a, ha, hb⟩ := mode2 hm
    ⟨a, b, ha, rfl, hb⟩
  unloaded hm hload := absurd ((mode2 hm).1.symm.trans hload) nofun

/-- The bytes output so far are those below OCNT (10_state.md R32, R40(b)). -/
theorem outHeld_advance {s : State} {n p b : Nat} {bs : List Byte}
    (h : ∀ j, j < 512 → (s.outAt j ≠ none ↔ j < n)) :
    ∀ j, j < 512 → ((advance n bs p b s).outAt j ≠ none ↔ j < n + bs.length) := by
  intro j hj
  have hout : (advance n bs p b s).outAt j = if n ≤ j ∧ j < n + bs.length then bs[j - n]? else s.outAt j :=
    emit_outAt n bs s j hj
  rw [hout]
  by_cases hin : n ≤ j ∧ j < n + bs.length
  · rw [if_pos hin, List.getElem?_eq_getElem (by omega)]
    simp [hin.2]
  · rw [if_neg hin, h j hj]
    omega

/-- An output that fits keeps the invariant: the block is complete, or the decode goes on (40_entry_resolve.md R109). -/
theorem Inv.complete_advance {s : State} (h : Inv s) (hbusy : s.ctrl = .busy) {e n p b : Nat} {bs : List Byte}
    (hn : s.ocnt = some n) (hfit : n + bs.length ≤ 512)
    (hmore : n + bs.length < 512 → BusyInv (advance n bs p b s)) : Inv (complete e (advance n bs p b s)) := by
  have hout : ∃ k, (advance n bs p b s).ocnt = some k ∧ ∀ j, j < 512 → ((advance n bs p b s).outAt j ≠ none ↔ j < k) := by
    obtain ⟨n', hn', hheld⟩ := h.outHeld (.inl hbusy)
    cases hn.symm.trans hn'
    exact ⟨_, rfl, outHeld_advance hheld⟩
  have hle : ∀ k, (advance n bs p b s).ocnt = some k → k ≤ 512 := by rintro k ⟨⟩; exact hfit
  have hnone : s.fkind = .noFault := h.faultKind.2 (by simp [hbusy])
  by_cases hfull : n + bs.length = 512
  · rw [complete_of_full (congrArg some hfull)]
    obtain ⟨w, base, -, -, hm, -, -, hmode, -⟩ := (h.busy hbusy).inputs
    exact ⟨h.romWf, hle, fun _ => hout, h.dictHeld, h.offsetRange, nofun,
      fun _ => ⟨congrArg some hfull, nofun, _, hm, hmode⟩, fun _ => .inr (h.busy hbusy).src, by simp [hnone],
      h.faultCause, h.noInternal, h.faddrClear⟩
  · rw [complete_of_notFull fun hocnt => hfull (Option.some.inj hocnt)]
    exact ⟨h.romWf, hle, fun _ => hout, h.dictHeld, h.offsetRange, fun _ => hmore (by omega),
      fun hdone => absurd (hbusy.symm.trans hdone) nofun, fun hdone => absurd (hbusy.symm.trans hdone) nofun,
      h.faultKind, h.faultCause, h.noInternal, h.faddrClear⟩

/-! ### The units of a decode -/

/-- The engine's step of a decode in progress, its kind selected by MODE and DICT_VALID (40_entry_resolve.md R108). -/
theorem inStep_of_mode {s : State} {k : StepKind} {m : Byte} (hbusy : s.ctrl = .busy) (hm : s.mode = some m)
    (hk : stepKind m s.dictValid = k) : InStep k s :=
  ⟨hbusy, by rw [hm, Option.map_some, hk]⟩

/-- NEG_BYTE answers, and moves IPTR and OCNT on together (41_mode0.md R121). -/
theorem execNegByte_keepsInv {s : State} (h : Inv s) (hbusy : s.ctrl = .busy) (hm : s.mode = some 0) {p : Nat}
    (hp : s.iptr = some p) (hlt : p < s.rom.len) (c : Byte) : ∃ t, execNegByte c s = .next t ∧ Inv t := by
  have hdec := h.busy hbusy
  obtain ⟨-, a, n, p', ha, hn, hp', hat, -⟩ := hdec.mode0 hm
  cases hp.symm.trans hp'
  obtain ⟨n', hn', hn512⟩ := hdec.ocnt
  cases hn.symm.trans hn'
  obtain ⟨-, b, -, hb⟩ := hdec.cursors
  refine ⟨complete 512 (advance n [negate c] (p + 1) b s), ?_, ?_⟩
  · have hstep : InStep .neg s := inStep_of_mode hbusy hm rfl
    rw [execNegByte, inStep_of hstep, hp, need_some, hn, need_some, if_pos hn512]
    simp only [advance, ← hb, emit_bptr]
  · refine h.complete_advance hbusy hn hn512 fun hmore => hdec.advance hmore (fun _ => ⟨a, ha, ?_, hlt⟩) ?_ ?_
    · rw [hat]; rfl
    · intro hm'; cases hm.symm.trans hm'
    · intro hm'; cases hm.symm.trans hm'

/-- A mode-1 command's output keeps the invariant where its last byte lies inside the ROM. -/
theorem Inv.advance_mode1 {s : State} (h : Inv s) (hbusy : s.ctrl = .busy) (hm : s.mode = some 1) {e n p q : Nat}
    {bs : List Byte} (hn : s.ocnt = some n) (hp : s.iptr = some p) (hpq : p ≤ q) (hq : q ≤ s.rom.len)
    (hfit : n + bs.length ≤ 512) : Inv (complete e { emit n bs s with iptr := some q }) := by
  have hdec := h.busy hbusy
  obtain ⟨-, a, p', ha, hp', hap, -⟩ := hdec.mode1 hm
  cases hp.symm.trans hp'
  obtain ⟨-, b, -, hb⟩ := hdec.cursors
  have hst : { emit n bs s with iptr := some q } = advance n bs q b s := by simp only [advance, ← hb, emit_bptr]
  rw [hst]
  refine h.complete_advance hbusy hn hfit fun hmore => hdec.advance hmore ?_ (fun _ => ⟨a, ha, by omega, hq⟩) ?_
  · intro hm'; cases hm.symm.trans hm'
  · intro hm'; cases hm.symm.trans hm'

/-- RLE_NOP is a run of no bytes (42_mode1_rle.md R141). -/
theorem execRleNop_keepsInv {s : State} (h : Inv s) (hbusy : s.ctrl = .busy) (hm : s.mode = some 1) {p : Nat}
    (hp : s.iptr = some p) (hlt : p < s.rom.len) : ∃ t, execRleNop s = .next t ∧ Inv t := by
  obtain ⟨n, hn, hn512⟩ := (h.busy hbusy).ocnt
  refine ⟨{ s with iptr := some (p + 1) }, ?_, ?_⟩
  · have hstep : InStep .rle s := inStep_of_mode hbusy hm rfl
    rw [execRleNop, inStep_of hstep, hp, need_some]
  · have hinv := h.advance_mode1 (e := 0) (bs := []) hbusy hm hn hp p.le_succ hlt hn512.le
    rw [complete_of_notFull (by simpa using hn512.ne)] at hinv
    simpa [emit, writeOut, ← hn] using hinv

/-- A literal or repeat command answers, whose operands end inside the ROM where they are read (42_mode1_rle.md R142,
R143). -/
theorem performRun_keepsInv {s : State} (h : Inv s) (hbusy : s.ctrl = .busy) (hm : s.mode = some 1) {p : Nat}
    (hp : s.iptr = some p) {len operands : Nat} {run : Rom → Int → Except FaultInfo (List Byte)}
    (herr : ∀ f, run s.rom (p + 1) = .error f → BoundsFault f)
    (hok : ∀ bs, run s.rom (p + 1) = .ok bs → bs.length = len ∧ p + 1 + operands ≤ s.rom.len) :
    ∃ t, performRun len operands run s = .next t ∧ Inv t := by
  obtain ⟨a, ha, -⟩ := (h.busy hbusy).src
  obtain ⟨n, hn, -⟩ := (h.busy hbusy).ocnt
  obtain ⟨hover, hfault, hrun⟩ := performRun_of (len := len) (operands := operands) (run := run) ha hp hn
  by_cases hfit : n + len ≤ 512
  · cases hr : run s.rom (p + 1) with
    | error f => exact ⟨_, hfault hfit f hr, h.takeFault (herr f hr).recordable⟩
    | ok bs =>
      obtain ⟨hlen, hend⟩ := hok bs hr
      exact ⟨_, hrun hfit bs hr, h.advance_mode1 hbusy hm hn hp (by omega) hend (by omega)⟩
  · exact ⟨_, hover (by omega), h.takeFault (BoundsFault.recordable ⟨rfl, nofun⟩)⟩

/-- Bytes read lie inside the ROM (20_memory.md R53). -/
theorem readBytes_end {m : Rom} {a : Int} {n : Nat} {bs : List Byte} (hn : 0 < n) (h : readBytes m a n = .ok bs) :
    a + n ≤ m.len := by
  obtain ⟨hlen, hbytes⟩ := readBytes_ok_iff.1 h
  have hlast := hbytes (n - 1) (by omega)
  rw [List.getElem?_eq_getElem (by omega)] at hlast
  have := (romByte_isSome_iff m _).1 (Option.isSome_of_eq_some hlast)
  omega

theorem repRun_end {m : Rom} {a : Int} {c : Byte} {bs : List Byte} (h : repRun m a c = .ok bs) : a + 1 ≤ m.len := by
  unfold repRun at h
  split at h
  · cases h
  · rename_i v hv
    have := (romByte_isSome_iff m a).1 (Option.isSome_of_eq_some (memRead_ok_iff.1 hv))
    omega

theorem execRleLit_keepsInv {s : State} (h : Inv s) (hbusy : s.ctrl = .busy) (hm : s.mode = some 1) {p : Nat}
    (hp : s.iptr = some p) (c : Byte) : ∃ t, execRleLit c s = .next t ∧ Inv t := by
  have hstep : InStep .rle s := inStep_of_mode hbusy hm rfl
  rw [execRleLit, inStep_of hstep]
  refine performRun_keepsInv h hbusy hm hp (fun f => readBytes_boundsFault) fun bs hbs => ⟨litRun_length hbs, ?_⟩
  have := readBytes_end c.toNat.succ_pos hbs
  unfold litLen
  omega

theorem execRleRep_keepsInv {s : State} (h : Inv s) (hbusy : s.ctrl = .busy) (hm : s.mode = some 1) {p : Nat}
    (hp : s.iptr = some p) (c : Byte) : ∃ t, execRleRep c s = .next t ∧ Inv t := by
  have hstep : InStep .rle s := inStep_of_mode hbusy hm rfl
  rw [execRleRep, inStep_of hstep]
  refine performRun_keepsInv h hbusy hm hp (fun f => repRun_boundsFault) fun bs hbs => ⟨repRun_length hbs, ?_⟩
  have := repRun_end hbs
  omega

/-- Any command byte's unit answers (30_encoding.md R81). -/
theorem exec_decodeCmd_keepsInv {s : State} (h : Inv s) (hbusy : s.ctrl = .busy) (hm : s.mode = some 1) {p : Nat}
    (hp : s.iptr = some p) (hlt : p < s.rom.len) (c : Byte) : ∃ t, exec (decodeCmd c) s = .next t ∧ Inv t := by
  rcases cmdClass c with hlit | rfl | hrep
  · rw [decodeCmd_lit hlit]
    exact execRleLit_keepsInv h hbusy hm hp c
  · exact execRleNop_keepsInv h hbusy hm hp hlt
  · rw [decodeCmd_rep hrep]
    exact execRleRep_keepsInv h hbusy hm hp c

/-- DICT_LOAD answers, and leaves the bit stream at its start (43_mode2_bitpacked.md R170). -/
theorem execDictLoad_keepsInv {s : State} (h : Inv s) (hbusy : s.ctrl = .busy) (hm : s.mode = some 2)
    (hload : s.dictValid = false) {a : Int} (ha : s.src = some a) (hend : a + 16 ≤ s.rom.len) (d : Vector Byte 16) :
    ∃ t, execDictLoad d s = .next t ∧ Inv t := by
  have hdec := h.busy hbusy
  obtain ⟨a', ha', -⟩ := hdec.src
  cases ha.symm.trans ha'
  obtain ⟨hb, -⟩ := hdec.unloaded hm hload
  have hnext : BusyInv (loadDict d s) :=
    ⟨hdec.inputs, hdec.src, hdec.ocnt, hdec.cursors, hdec.endoff, fun hm' => absurd (hm.symm.trans hm') (by decide),
      fun hm' => absurd (hm.symm.trans hm') (by decide), fun _ _ => ⟨a', 0, ha, hb, Int.ofNat_le.1 hend, Nat.zero_le _⟩, nofun⟩
  refine ⟨loadDict d s, ?_, ?_⟩
  · rw [execDictLoad, inStep_of (inStep_of_mode hbusy hm (by rw [hload]; rfl))]
  · exact ⟨h.romWf, h.ocntLe, h.outHeld, fun k hk => by simp [loadDict_dictAt d s k hk], h.offsetRange, fun _ => hnext,
      h.done, h.doneSrc, h.faultKind, h.faultCause, h.noInternal, h.faddrClear⟩

/-- A code answers whose bits lie inside the stream, and leaves BPTR inside it (44_bitstream_reader.md R194). -/
theorem finishCode_keepsInv {s : State} (h : Inv s) (hbusy : s.ctrl = .busy) (hm : s.mode = some 2)
    (hload : s.dictValid = true) {a : Int} {b len : Nat} (ha : s.src = some a) (hb : s.bptr = some b)
    (hend : ((b + len : Nat) : Int) ≤ bitLen s.rom (bitBase a)) (c : Byte) :
    ∃ t, finishCode len c s = .next t ∧ Inv t := by
  have hdec := h.busy hbusy
  obtain ⟨a', b', ha', -, hbase, -⟩ := hdec.mode2 hm hload
  cases ha.symm.trans ha'
  obtain ⟨n, hn, hn512⟩ := hdec.ocnt
  obtain ⟨p, -, hp, -⟩ := hdec.cursors
  refine ⟨complete (byteOffset (b + len)) (advance n [c] p (b + len) s), ?_, ?_⟩
  · rw [finishCode, hb, need_some, hn, need_some, if_pos hn512]
    simp only [advance, ← hp, emit_iptr]
  · unfold bitLen bitBase at hend
    refine h.complete_advance hbusy hn hn512 fun hmore => hdec.advance hmore ?_ ?_ fun _ =>
      ⟨hload, a', ha, hbase, by omega⟩
    · intro hm'; cases hm.symm.trans hm'
    · intro hm'; cases hm.symm.trans hm'

/-- A dictionary that is loaded holds a value at each of its indices (10_state.md R40(c)). -/
theorem Inv.dict_get {s : State} (h : Inv s) (hload : s.dictValid = true) (i : BitVec 4) :
    ∃ c, s.dict.get i.toFin = some c := by
  have hheld := (h.dictHeld i.toNat i.isLt).2 hload
  rw [State.dictAt, dif_pos i.isLt] at hheld
  exact Option.ne_none_iff_exists'.1 hheld

/-- Bits read lie inside the stream (44_bitstream_reader.md R191). -/
theorem readBitList_end {m : Rom} {bb : Int} {n p q : Nat} {bs : List Bool} (hp : (p : Int) ≤ bitLen m bb)
    (h : readBitList m bb n p = .ok (bs, q)) : (q : Int) ≤ bitLen m bb := by
  induction n generalizing p bs with
  | zero => cases h; exact hp
  | succ n ih =>
    unfold readBitList at h
    split at h
    · cases h
    · rename_i c p' hc
      obtain ⟨rfl, hlt⟩ := readBit_cursor hc
      split at h
      · cases h
      · rename_i cs q' hcs
        cases h
        exact ih (by omega) hcs

/-- Both codes answer (43_mode2_bitpacked.md R171 to R173). -/
theorem exec_code_keepsInv {s : State} (h : Inv s) (hbusy : s.ctrl = .busy) (hm : s.mode = some 2)
    (hload : s.dictValid = true) {a : Int} {b q r : Nat} {flag : Bool} {bs : List Bool} {i : Instr}
    (ha : s.src = some a) (hb : s.bptr = some b) (hflag : readBit s.rom (bitBase a) b = .ok (flag, q))
    (hbits : readBitList s.rom (bitBase a) (if flag then 4 else 8) q = .ok (bs, r))
    (hi : decode .code (flag :: bs) = .ok (i, [])) : ∃ t, exec i s = .next t ∧ Inv t := by
  obtain ⟨rfl, hlt⟩ := readBit_cursor hflag
  have hend := readBitList_end (by omega) hbits
  obtain ⟨rfl, -⟩ := readBitList_cursor hbits
  have hstep : InStep .code s := inStep_of_mode hbusy hm (by rw [hload]; rfl)
  rcases decode_code_ok hi with ⟨l, -, hl, rfl⟩ | ⟨l, -, hl, rfl⟩ <;> cases hl
  · obtain ⟨c, hc⟩ := h.dict_get hload (BitVec.ofNat 4 (natOfBits l))
    have hans := finishCode_keepsInv h hbusy hm hload ha hb (len := 5) (by simpa [Nat.add_assoc] using hend) c
    simpa only [exec, execM2Hit, inStep_of hstep, hc, need_some] using hans
  · have hans := finishCode_keepsInv h hbusy hm hload ha hb (len := 9) (by simpa [Nat.add_assoc] using hend)
      (byteOfBits l)
    simpa only [exec, execM2Lit, inStep_of hstep] using hans

/-- Every unit that a decode reads answers a next state and keeps the invariant: MODE and DICT_VALID select it, and it
stands inside the ROM. -/
theorem exec_fetched_keepsInv {s : State} (h : Inv s) {i : Instr} (hi : fetchStep s = .unit i) :
    ∃ t, exec i s = .next t ∧ Inv t := by
  obtain ⟨hbusy, m, hm, ⟨hk, p, c, hp, hc, rfl⟩ | ⟨hk, p, c, hp, hc, rfl⟩ | ⟨hk, a, bs, hread, ha, rfl⟩ |
    ⟨hk, a, b, flag, q, bs, r, ha, hb, hflag, hbits, hdec⟩⟩ := fetchStep_unit hi
  · cases stepKind_neg hk
    exact execNegByte_keepsInv h hbusy hm hp (romByte_lt hc) c
  · cases stepKind_rle hk
    exact exec_decodeCmd_keepsInv h hbusy hm hp (romByte_lt hc) c
  · obtain ⟨rfl, hload⟩ := stepKind_dictLoad hk
    exact execDictLoad_keepsInv h hbusy hm hload ha (readBytes_end (by decide) hread) _
  · obtain ⟨rfl, hload⟩ := stepKind_code hk
    exact exec_code_keepsInv h hbusy hm hload ha hb hflag hbits hdec

/-! ### Every step -/

/-- On its turn the engine always answers, and keeps the invariant. -/
theorem engineStep_keepsInv {s : State} (h : Inv s) (hturn : EngineTurn s) : ∃ t, step s = .next t ∧ Inv t := by
  have hfetch : fetch s = fetchStep (takeCommand s) := fetch_engineTurn hturn
  by_cases hbusy : s.ctrl = .busy
  · have hinv : Inv (takeCommand s) := h.takeCommand
    rcases (hinv.busy hbusy).fetchStep_answers hbusy with ⟨i, hi⟩ | ⟨f, hf⟩
    · obtain ⟨t, ht, hinvt⟩ := exec_fetched_keepsInv hinv hi
      exact ⟨t, by simp only [step, hfetch, hi, ht], hinvt⟩
    · exact ⟨_, by simp only [step, hfetch, hf],
        hinv.takeFault ((hinv.busy hbusy).fetchStep_boundsFault hf).recordable⟩
  · exact ⟨_, step_engineTurn_notBusy hturn hbusy, h.takeCommand⟩

/-- A step on START that answers is START on ENTRY's own fields (40_entry_resolve.md R100). -/
theorem step_start_next {s t : State} {q : List HostCmd} (hhost : s.host = .start :: q) (h : step s = .next t) :
    ∃ w, s.entry = some w ∧ start (entryMode w) (entryRaw w) (takeCommand s) = .next t := by
  have hfetch : fetch s = fetchEntry s := by rw [fetch, hhost]
  cases hentry : s.entry with
  | none => simp [step, hfetch, fetchEntry, hentry] at h
  | some w => exact ⟨w, rfl, by simpa [step, hfetch, fetchEntry, hentry, exec_decodeEntry] using h⟩

/-- A step on any other command of the host is its access (10_state.md R41). -/
theorem step_port {s : State} {op : PortOp} {q : List HostCmd} (hhost : s.host = .port op :: q) :
    step s = hostAccess op (takeCommand s) := by
  have hfetch : fetch s = .access op := by rw [fetch, hhost]
  rw [step, hfetch]

/-- Settles O41, by whose turn the step is. -/
theorem stepKeepsInvariant : Obligations.StepKeepsInvariant := by
  constructor
  · intro s t h ht
    rcases fetch_cases s with ⟨hturn, -⟩ | ⟨q, hq, -⟩ | ⟨op, q, hq, -⟩
    · obtain ⟨t', ht', hinv⟩ := engineStep_keepsInv h hturn
      cases ht.symm.trans ht'
      exact hinv
    · obtain ⟨w, hentry, hstart⟩ := step_start_next hq ht
      exact start_keepsInv h.takeCommand hentry hstart
    · exact hostAccess_keepsInv h.takeCommand ((step_port hq).symm.trans ht)
  · intro s h hturn
    obtain ⟨t, ht, -⟩ := engineStep_keepsInv h hturn
    exact ⟨t, ht⟩

/-! ### The transitions of STATE -/

/-- Settles O35: the engine's turn waits. -/
theorem noStepOutsideBusy : Obligations.NoStepOutsideBusy := by
  intro s hturn hbusy
  exact step_engineTurn_notBusy hturn hbusy

/-- The engine's step in BUSY goes on, completes or faults (10_state.md R25). -/
theorem engineStep_ctrl_ne_idle {s t : State} (hturn : EngineTurn s) (hbusy : s.ctrl = .busy) (h : step s = .next t) :
    t.ctrl ≠ .idle := by
  rcases step_cases s with ⟨-, e⟩ | ⟨i, hi, e⟩ | ⟨f, -, e⟩ | ⟨op, hop, -⟩ | ⟨r, -, e⟩
  · cases e.symm.trans h
    simp [hbusy]
  · rw [fetch_engineTurn hturn] at hi
    rcases exec_unit_next (fetchStep_unit_format hi) (e.symm.trans h) with ⟨f, rfl, -⟩ | ⟨-, hb | hd⟩
    · simp
    · simp [hb]
    · simp [hd]
  · cases e.symm.trans h
    simp
  · exact absurd (fetch_engineTurn hturn ▸ hop) (fetchStep_ne_access s op)
  · cases e.symm.trans h

/-- Of the host's accesses only reset writes STATE (10_state.md R25). -/
theorem hostAccess_keepsCtrl {op : PortOp} {s t : State} (hop : op ≠ .reset) (h : hostAccess op s = .next t) :
    t.ctrl = s.ctrl := by
  rcases hostAccess_next h with ⟨w, -, -, rfl⟩ | ⟨n, -, -, rfl⟩ | ⟨w, -, rfl⟩ | ⟨image, -, -, -, rfl⟩ | ⟨rfl, -⟩ |
    ⟨r, v, -, -, rfl⟩
  · rfl
  · rfl
  · rfl
  · rfl
  · exact absurd rfl hop
  · rfl

/-- Settles O36, clause by clause: whose turn the step is decides which transition it makes. -/
theorem stateTransitionsLegal : Obligations.StateTransitionsLegal := by
  refine ⟨⟨rfl, rfl, rfl, rfl⟩, fun s t h => ⟨fun hturn hbusy => engineStep_ctrl_ne_idle hturn hbusy h, ?waits, ?start,
    ?reset, ?access⟩⟩
  case waits =>
    intro hturn hbusy
    cases (step_engineTurn_notBusy hturn hbusy).symm.trans h
    rfl
  case start =>
    intro hhead
    obtain ⟨q, hq⟩ := host_of_head hhead
    obtain ⟨w, -, hstart⟩ := step_start_next hq h
    exact start_next_ctrl (s := takeCommand s) hstart
  case reset =>
    intro hhead
    obtain ⟨q, hq⟩ := host_of_head hhead
    cases (step_port hq).symm.trans h
    rfl
  case access =>
    intro op hop hhead
    obtain ⟨q, hq⟩ := host_of_head hhead
    exact hostAccess_keepsCtrl (s := takeCommand s) hop ((step_port hq).symm.trans h)

/-! ### The units of a decode step -/

/-- MODE and DICT_VALID select one step (40_entry_resolve.md R108). -/
theorem inStep_unique {j k : StepKind} {s : State} (hj : InStep j s) (hk : InStep k s) : j = k :=
  Option.some.inj (hj.2.symm.trans hk.2)

/-- Of the units of a decode step only the literal and the repeat can fault once they are read (60_exceptions.md R213,
R215). -/
theorem exec_unit_fault {i : Instr} {s t : State} (hi : i.format ≠ .entry32) (h : exec i s = .next t)
    (hfault : t.ctrl = .fault) : ∃ c, i = .rleLit c ∨ i = .rleRep c := by
  have hrle : InStep .rle s := by
    rcases exec_unit_next hi h with ⟨f, -, -, -, hrle⟩ | ⟨-, hb | hd⟩
    · exact hrle
    · cases hb.symm.trans hfault
    · cases hd.symm.trans hfault
  cases i with
  | rleLit c => exact ⟨c, .inl rfl⟩
  | rleRep c => exact ⟨c, .inr rfl⟩
  | rleNop =>
    obtain ⟨-, h⟩ := inStep_next h
    obtain ⟨p, -, h⟩ := need_next h
    cases h
    exact absurd (hrle.1.symm.trans hfault) nofun
  | negByte b => cases inStep_unique hrle (inStep_next h).1
  | dictLoad d => cases inStep_unique hrle (inStep_next h).1
  | m2Hit k => cases inStep_unique hrle (inStep_next h).1
  | m2Lit b => cases inStep_unique hrle (inStep_next h).1
  | _ => exact absurd rfl hi

/-- An output at OCNT leaves the bytes below it (10_state.md R32). -/
theorem emit_outAt_below {n j : Nat} (hj : j < n) (bs : List Byte) (s : State) : (emit n bs s).outAt j = s.outAt j := by
  by_cases h : j < 512
  · rw [emit_outAt n bs s j h, if_neg (by omega)]
  · rw [outAt_ge _ j (by omega), outAt_ge _ j (by omega)]

/-- What an output leaves alone, wherever it takes the cursors (10_state.md R26 to R37). -/
theorem complete_output_frame (e n : Nat) (bs : List Byte) (s : State) (p b : Option Nat) :
    KeepsResolution s (complete e { emit n bs s with iptr := p, bptr := b }) ∧
      KeepsFaultRegs s (complete e { emit n bs s with iptr := p, bptr := b }) ∧
      KeepsDict s (complete e { emit n bs s with iptr := p, bptr := b }) ∧
      ∀ j, j < n → (complete e { emit n bs s with iptr := p, bptr := b }).outAt j = s.outAt j :=
  ⟨⟨complete_mode .., complete_offset .., complete_src ..⟩, ⟨complete_fkind .., complete_fcause .., complete_faddr ..⟩,
    ⟨complete_dict .., complete_dictValid ..⟩, fun _ hj => (complete_outAt ..).trans (emit_outAt_below hj bs s)⟩

/-- Settles O42, over what a decode step's unit can do. -/
theorem decodeUnitFrame : Obligations.DecodeUnitFrame := by
  intro i s t hi h
  have hinputs := exec_keepsInputs h
  have hrom : t.rom = s.rom := hinputs.1
  refine ⟨hinputs, and_left_comm.1 ⟨fun a => by rw [hrom], ?_⟩⟩
  rcases exec_unit_cases hi h with ⟨f, rfl⟩ | ⟨p, rfl, -, rfl⟩ | ⟨d, rfl, rfl⟩ |
    ⟨e, n, bs, p, q, -, -, hn, hfmt, hnop, rfl⟩ | ⟨e, n, bs, p, -, hn, hfmt, rfl⟩
  · obtain ⟨c, rfl | rfl⟩ := exec_unit_fault hi h rfl <;>
      exact ⟨⟨rfl, rfl, rfl⟩, fun hf => absurd rfl hf, fun _ => ⟨rfl, rfl⟩, fun _ => rfl, fun _ => rfl, by simp [Instr.format],
        fun _ _ _ _ => rfl⟩
  · exact ⟨⟨rfl, rfl, rfl⟩, fun _ => ⟨rfl, rfl, rfl⟩, fun _ => ⟨rfl, rfl⟩, by simp [Instr.format], fun _ => rfl,
      fun _ => ⟨rfl, rfl, rfl, rfl⟩, fun _ _ _ _ => rfl⟩
  · exact ⟨⟨rfl, rfl, rfl⟩, fun _ => ⟨rfl, rfl, rfl⟩, fun hf => absurd rfl hf, fun _ => rfl, fun _ => rfl,
      fun _ => ⟨rfl, rfl, rfl, rfl⟩, fun _ _ _ _ => rfl⟩
  · obtain ⟨hres, hfault, hdict, hout⟩ := complete_output_frame e n bs s (some q) s.bptr
    refine ⟨hres, fun _ => hfault, fun _ => hdict, ?_, fun _ => complete_bptr .., ?_, fun n' j hn' hj => ?_⟩
    · rcases hfmt with hfmt | hfmt <;> simp [hfmt]
    · rcases hfmt with hfmt | hfmt <;> simp [hfmt, hnop]
    · cases hn.symm.trans hn'
      exact hout j hj
  · obtain ⟨hres, hfault, hdict, hout⟩ := complete_output_frame e n bs s s.iptr (some (p + i.bitLength))
    refine ⟨hres, fun _ => hfault, fun _ => hdict, fun _ => complete_iptr .., fun hf => absurd hfmt hf, ?_,
      fun n' j hn' hj => ?_⟩
    · rintro (rfl | hdict16)
      · cases hfmt
      · cases hfmt.symm.trans hdict16
    · cases hn.symm.trans hn'
      exact hout j hj

/-- Settles O43, over what a decode step's unit can do. -/
theorem cursorsOnlyAdvance : Obligations.CursorsOnlyAdvance := by
  intro i s t hi h
  have keeps : ∀ {v : Option Nat} (p : Nat), v = some p → ∃ q, v = some q ∧ p ≤ q := fun p hp => ⟨p, hp, le_rfl⟩
  rcases exec_unit_cases hi h with ⟨f, rfl⟩ | ⟨p, rfl, hp, rfl⟩ | ⟨d, rfl, rfl⟩ |
    ⟨e, n, bs, p, q, hp, hpq, hn, hfmt, -, rfl⟩ | ⟨e, n, bs, b, hb, hn, hfmt, rfl⟩
  · obtain ⟨c, rfl | rfl⟩ := exec_unit_fault hi h rfl <;> exact ⟨keeps, keeps, fun b hb => hb⟩
  · refine ⟨fun p' hp' => ?_, keeps, fun b hb => hb⟩
    cases hp.symm.trans hp'
    exact ⟨p + 1, rfl, p.le_succ⟩
  · exact ⟨keeps, keeps, fun b hb => hb⟩
  · refine ⟨fun p' hp' => ?_, fun n' hn' => ?_, fun b hb => ?_⟩
    · cases hp.symm.trans hp'
      exact ⟨q, by simp, hpq⟩
    · cases hn.symm.trans hn'
      exact ⟨n + bs.length, by simp, Nat.le_add_right ..⟩
    · rcases hfmt with hfmt | hfmt <;> simp [hfmt, hb]
  · refine ⟨fun p hp => ⟨p, by simp [hp], le_rfl⟩, fun n' hn' => ?_, fun b' hb' => ?_⟩
    · cases hn.symm.trans hn'
      exact ⟨n + bs.length, by simp, Nat.le_add_right ..⟩
    · cases hb.symm.trans hb'
      simp [hfmt]

/-! ### The STATUS view -/

theorem Ctrl.code_lt (c : Ctrl) : c.code < 4 := by cases c <;> decide

theorem FKind.code_lt (k : FKind) : k.code < 4 := by cases k <;> decide

theorem FCause.code_lt (c : FCause) : c.code < 8 := by cases c <;> decide

/-- The three fields of STATUS do not overlap, so the word is their sum (10_state.md R39). -/
theorem statusWord_toNat (s : State) :
    (statusWord s).toNat = s.ctrl.code + 16 * s.fkind.code + 256 * s.fcause.code := by
  have hctrl := s.ctrl.code_lt
  have hkind := s.fkind.code_lt
  have hcause := s.fcause.code_lt
  have hlow : s.ctrl.code ||| s.fkind.code <<< 4 = 16 * s.fkind.code + s.ctrl.code := by
    rw [Nat.or_comm, ← Nat.shiftLeft_add_eq_or_of_lt (by omega), Nat.shiftLeft_eq]
    omega
  have hall : (16 * s.fkind.code + s.ctrl.code) ||| s.fcause.code <<< 8 =
      s.ctrl.code + 16 * s.fkind.code + 256 * s.fcause.code := by
    rw [Nat.or_comm, ← Nat.shiftLeft_add_eq_or_of_lt (by omega), Nat.shiftLeft_eq]
    omega
  have hfit : ∀ c i, c < 8 → i ≤ 8 → (BitVec.ofNat 32 c <<< i).toNat = c <<< i := by
    intro c i hc hi
    have hpow : 2 ^ i ≤ 2 ^ 8 := Nat.pow_le_pow_right (by decide) hi
    have hmul : c * 2 ^ i ≤ 7 * 2 ^ 8 := Nat.mul_le_mul (by omega) hpow
    rw [BitVec.toNat_shiftLeft, BitVec.toNat_ofNat, Nat.mod_eq_of_lt (a := c) (by omega), Nat.shiftLeft_eq,
      Nat.mod_eq_of_lt (by omega)]
  rw [statusWord, BitVec.toNat_or, BitVec.toNat_or, hfit _ 4 (by omega) (by decide), hfit _ 8 hcause le_rfl,
    BitVec.toNat_ofNat, Nat.mod_eq_of_lt (by omega), hlow, hall]

/-- A field of STATUS as a number. -/
theorem statusWord_field (s : State) (lo len : Nat) : ((statusWord s).extractLsb' lo len).toNat =
    (s.ctrl.code + 16 * s.fkind.code + 256 * s.fcause.code) / 2 ^ lo % 2 ^ len := by
  rw [BitVec.extractLsb'_toNat, Nat.shiftRight_eq_div_pow, statusWord_toNat]

/-- Settles O47: each field is a quotient and a remainder of the word's number. -/
theorem statusWordLayout : Obligations.StatusWordLayout := by
  intro s w
  have hctrl := s.ctrl.code_lt
  have hkind := s.fkind.code_lt
  have hcause := s.fcause.code_lt
  simp only [statusWord_field]
  refine ⟨?_, ?_, ?_, ?_, ?_, ?_, statusWord_toNat s, hostAccess_read_ok rfl, rfl, rfl⟩ <;> omega

end Sys2Proof.Machine
end

section
/-! PROOFS. The obligations of 20_memory.md: the ROM as the host loads it (R50, R54), the unit an engine step reads
from it (R55, R108), and engines that share it (R63), with the block result of a decode that one of them runs (R123,
R146, R175). -/

namespace Sys2Proof.Machine

/-! ### The ROM as the host loads it -/

theorem romByte_ofBytes (image : List Byte) (k : Nat) : romByte (Rom.ofBytes image) k = image[k]? := by
  by_cases hk : k < image.length
  · have hcell := cellByte_cellsOf 0 k image
    rw [Nat.zero_add] at hcell
    rw [romByte_inside (m := Rom.ofBytes image) hk, List.getElem?_eq_getElem hk, ← List.getD_eq_getElem _ 0 hk,
      ← hcell]
    rfl
  · rw [List.getElem?_eq_none (by omega), romByte_none_iff]
    exact .inr (Int.ofNat_le.2 (Nat.le_of_not_lt hk))

/-- Settles O48, by the laws of the cells of a byte sequence. -/
theorem loadedRomReadsBack : Obligations.LoadedRomReadsBack := fun image =>
  ⟨Rom.ofBytes_wf image, rfl, romByte_ofBytes image, fun _ ha => (romByte_none_iff _ _).2 (.inl ha)⟩

theorem natOfBits_bitsOfByte (b : Byte) : natOfBits (bitsOfByte b) = b.toNat := by
  rw [bitsOfByte, natOfBits_bitsOf, Nat.mod_eq_of_lt b.isLt]

/-- The bits of four bytes stand for their big-endian number (20_memory.md R54). -/
theorem natOfBits_fourBytes (b₀ b₁ b₂ b₃ : Byte) : natOfBits (bitsOfBytes [b₀, b₁, b₂, b₃]) =
    b₀.toNat * 2 ^ 24 + b₁.toNat * 2 ^ 16 + b₂.toNat * 2 ^ 8 + b₃.toNat := by
  simp only [bitsOfBytes_cons, bitsOfBytes_nil, List.append_nil, natOfBits_append, natOfBits_bitsOfByte,
    bitsOfByte_length, List.length_append]
  ring

/-- Settles O49: the word is the number of the four bytes' bits, and its top byte is the first of them. -/
theorem entryWordIsBigEndian : Obligations.EntryWordIsBigEndian := by
  intro m a b₀ b₁ b₂ b₃ hholds
  have hread : readBytes m a 4 = .ok [b₀, b₁, b₂, b₃] := readBytes_ok_iff.2 ⟨rfl, hholds⟩
  have hword := natOfBits_fourBytes b₀ b₁ b₂ b₃
  have hw : (BitVec.ofNat 32 (natOfBits (bitsOfBytes [b₀, b₁, b₂, b₃]))).toNat =
      b₀.toNat * 2 ^ 24 + b₁.toNat * 2 ^ 16 + b₂.toNat * 2 ^ 8 + b₃.toNat := by
    rw [BitVec.toNat_ofNat, hword, Nat.mod_eq_of_lt (by omega)]
  refine ⟨_, by rw [memReadWord, hread], hw, BitVec.eq_of_toNat_eq ?_, ?_⟩
  · rw [entryMode_toNat, hw]
    omega
  · have hdec := decode_entry32 (rest := []) (bitsOfBytes_length [b₀, b₁, b₂, b₃])
    rwa [List.append_nil] at hdec

/-! ### The unit an engine step reads -/

theorem decodeCmd_wellFormed (c : Byte) : (decodeCmd c).WellFormed := by
  rcases cmdClass c with hlit | rfl | hrep
  · rw [decodeCmd_lit hlit]
    exact decide_eq_true hlit
  · rfl
  · rw [decodeCmd_rep hrep]
    exact decide_eq_true hrep

theorem encode_decodeCmd (c : Byte) : encode (decodeCmd c) = bitsOfByte c := by
  rcases cmdClass c with hlit | rfl | hrep
  · rw [decodeCmd_lit hlit]; rfl
  · rfl
  · rw [decodeCmd_rep hrep]; rfl

/-- A code read whole is a unit of the table, and its encoding is the bits it was read from (30_encoding.md R86). -/
theorem decode_code_encode {bits : List Bool} {i : Instr} (h : decode .code bits = .ok (i, [])) :
    i.WellFormed ∧ i.format = .code ∧ encode i = bits := by
  rcases decode_code_ok h with ⟨l, hl, rfl, rfl⟩ | ⟨l, hl, rfl, rfl⟩
  · have hlt := natOfBits_lt l
    rw [hl] at hlt
    refine ⟨rfl, rfl, ?_⟩
    rw [encode, BitVec.toNat_ofNat, Nat.mod_eq_of_lt hlt, bitsOf_natOfBits_of_length hl, List.append_nil]
  · exact ⟨rfl, rfl, by rw [encode, bitsOfByte_byteOfBits hl, List.append_nil]⟩

/-- A code is a flag bit and the bits it announces, whatever follows (30_encoding.md R86). -/
theorem decode_code_flag {bits rest : List Bool} {i : Instr} (h : decode .code bits = .ok (i, rest)) :
    ∃ flag l, bits = flag :: (l ++ rest) ∧ l.length = (if flag then 4 else 8) ∧ i.bitLength = l.length + 1 ∧
      decode .code (flag :: l) = .ok (i, []) := by
  rcases decode_code_ok h with ⟨l, hl, hbits, rfl⟩ | ⟨l, hl, hbits, rfl⟩
  · exact ⟨true, l, hbits, hl, by rw [hl]; rfl, by simpa using decode_hit (rest := []) hl⟩
  · exact ⟨false, l, hbits, hl, by rw [hl]; rfl, by simpa using decode_lit (rest := []) hl⟩

/-- The flag bit and the bits behind it are one read of the bit stream (44_bitstream_reader.md R192). -/
theorem readBitList_cons {m : Rom} {bb : Int} {n p q r : Nat} {b : Bool} {bs : List Bool}
    (hbit : readBit m bb p = .ok (b, q)) (hbits : readBitList m bb n q = .ok (bs, r)) :
    readBitList m bb (n + 1) p = .ok (b :: bs, r) := by
  rw [readBitList, hbit]
  simp only [hbits]

/-- Settles O33, by the four places an engine step reads its unit from. -/
theorem fetchedUnitStandsInRom : Obligations.FetchedUnitStandsInRom := by
  intro s i hturn hfetch
  rw [fetch_engineTurn hturn] at hfetch
  obtain ⟨hbusy, m, -, ⟨-, p, b, hp, hb, rfl⟩ | ⟨-, p, b, hp, hb, rfl⟩ | ⟨-, a, bs, hread, ha, rfl⟩ |
    ⟨-, a, p, flag, q, bs, r, ha, hp, hflag, hbits, hdec⟩⟩ := fetchStep_unit hfetch
  · exact ⟨hbusy, rfl, nofun, fun _ => ⟨p, hp, hb.trans (congrArg some (byteOfBits_bitsOfByte b).symm)⟩, nofun, nofun⟩
  · rw [encode_decodeCmd, byteOfBits_bitsOfByte, decodeCmd_format]
    exact ⟨hbusy, decodeCmd_wellFormed b, nofun, fun _ => ⟨p, hp, hb⟩, nofun, nofun⟩
  · refine ⟨hbusy, rfl, nofun, ?_, fun _ => ⟨a, ha, ?_⟩, nofun⟩
    · rintro (h | h) <;> cases h
    · obtain ⟨hlen, hbytes⟩ := readBytes_ok_iff.1 hread
      have hback : bytesOfBits 16 (bitsOfBytes bs) = bs := by simpa [hlen] using bytesOfBits_bitsOfBytes bs []
      change RomHolds s.rom a (bytesOfBits 16 (bitsOfBytes bs))
      rw [hback]
      exact fun k hk => hbytes k (hlen ▸ hk)
  · obtain ⟨hwf, hfmt, henc⟩ := decode_code_encode hdec
    obtain ⟨hq, -⟩ := readBit_cursor hflag
    obtain ⟨hr, -⟩ := readBitList_cursor hbits
    have hall := readBitList_cons hflag hbits
    obtain ⟨flag', l, hcons, hl, hlen, -⟩ := decode_code_flag hdec
    obtain rfl := (List.cons.inj hcons).1
    refine ⟨hbusy, hwf, by simp [hfmt], by simp [hfmt], by simp [hfmt], fun _ => ⟨a, p, ha, hp, ?_⟩⟩
    rw [henc, hlen, hl, hall, hr, hq, Nat.add_assoc, Nat.add_comm 1]

/-! ### A decode in progress, the host leaving the engine alone -/

/-- From `s`, at most `bound` steps end the decode with the result `r` (40_entry_resolve.md R110). -/
abbrev EndsWithin (s : State) (bound : Nat) (r : DecodeResult) : Prop :=
  ∃ k t, k ≤ bound ∧ runSteps k s = some t ∧ observe t = some r

theorem endsWithin_observed {s : State} {bound : Nat} {r : DecodeResult} (h : observe s = some r) :
    EndsWithin s bound r :=
  ⟨0, s, bound.zero_le, rfl, h⟩

theorem EndsWithin.mono {s : State} {bound bound' : Nat} {r : DecodeResult} (h : EndsWithin s bound r)
    (hle : bound ≤ bound') : EndsWithin s bound' r := by
  obtain ⟨k, t, hk, hrun⟩ := h
  exact ⟨k, t, hk.trans hle, hrun⟩

theorem endsWithin_step {s u : State} {bound : Nat} {r : DecodeResult} (hstep : step s = .next u)
    (h : EndsWithin u bound r) : EndsWithin s (bound + 1) r := by
  obtain ⟨k, t, hk, hrun, hobs⟩ := h
  exact ⟨k + 1, t, Nat.succ_le_succ hk, by rw [runSteps, hstep]; exact hrun, hobs⟩

theorem endsWithin_takeFault {s u : State} {bound : Nat} {f : FaultInfo} (hstep : step s = .next (takeFault f u)) :
    EndsWithin s (bound + 1) (.fault f.kind f.cause f.addr) :=
  endsWithin_step hstep (endsWithin_observed rfl)

theorem takeCommand_of_noCommand {s : State} (h : s.host = []) : takeCommand s = s := by
  cases s
  simp_all [takeCommand]

theorem step_noCommand_unit {s : State} {i : Instr} (hhost : s.host = []) (h : fetchStep s = .unit i) :
    step s = exec i s := by
  rw [step, fetch_engineTurn (.inl hhost), h, takeCommand_of_noCommand hhost]

theorem step_noCommand_raise {s : State} {f : FaultInfo} (hhost : s.host = []) (h : fetchStep s = .raise f) :
    step s = .next (takeFault f s) := by
  rw [step, fetch_engineTurn (.inl hhost), h, takeCommand_of_noCommand hhost]

/-- In the middle of a decode of mode `m` whose storage starts at `src`: the cursors at `p` and `b`, the bytes `out`
output so far, and no command of the host to come (10_state.md R28 to R32). -/
structure MidDecode (m : Byte) (src p b : Nat) (out : List Byte) (s : State) : Prop where
  host : s.host = []
  busy : s.ctrl = .busy
  mode : s.mode = some m
  src : s.src = some (src : Int)
  iptr : s.iptr = some p
  bptr : s.bptr = some b
  ocnt : s.ocnt = some out.length
  produced : ∀ j, j < out.length → s.outAt j = out[j]?

theorem valuesOf_map_some {α : Type} (l : List α) : valuesOf (l.map some) = some l := by
  induction l with
  | nil => rfl
  | cons a l ih => rw [List.map_cons, valuesOf, ih]; rfl

/-- A full output in DONE is what the decode shows (40_entry_resolve.md R110). -/
theorem observe_done {s : State} {out : List Byte} {e : Nat} (hdone : s.ctrl = .done) (hlen : out.length = 512)
    (hout : ∀ j, j < 512 → s.outAt j = out[j]?) (he : s.endoff = some e) : observe s = some (.done out e) := by
  have hlist : s.out.toList = out.map some := by
    refine List.ext_getElem (by simp [hlen]) fun j hj _ => ?_
    rw [Vector.length_toList] at hj
    have hat := hout j hj
    rw [State.outAt, dif_pos hj, List.getElem?_eq_getElem (hlen ▸ hj)] at hat
    rw [Vector.getElem_toList, hat, List.getElem_map]
  unfold observe
  simp only [hdone, he, hlist, valuesOf_map_some]

section
variable {m : Byte} {src p b : Nat} {out : List Byte} {s : State}

/-- What has been output after `bs` is output behind `out`. -/
theorem MidDecode.outAt_advance (h : MidDecode m src p b out s) {bs : List Byte} (hfit : out.length + bs.length ≤ 512)
    (q c : Nat) : ∀ j, j < out.length + bs.length → (advance out.length bs q c s).outAt j = (out ++ bs)[j]? := by
  intro j hj
  have hout : (advance out.length bs q c s).outAt j = (emit out.length bs s).outAt j := rfl
  rw [hout, emit_outAt _ _ _ _ (by omega)]
  by_cases hin : out.length ≤ j
  · rw [if_pos ⟨hin, hj⟩, List.getElem?_append_right hin]
  · rw [if_neg (by omega), h.produced j (by omega), List.getElem?_append_left (by omega)]

/-- A decode goes on behind an output, its cursors at `q` and `c`. -/
theorem MidDecode.advance (h : MidDecode m src p b out s) {bs : List Byte} (hfit : out.length + bs.length ≤ 512)
    (q c : Nat) : MidDecode m src q c (out ++ bs) (advance out.length bs q c s) where
  host := h.host
  busy := h.busy
  mode := h.mode
  src := h.src
  iptr := rfl
  bptr := rfl
  ocnt := by rw [List.length_append]; rfl
  produced j hj := h.outAt_advance hfit q c j (by rwa [List.length_append] at hj)

/-- A step that outputs `bs` ends the decode where the block is full, and else leaves it to the steps behind it
(40_entry_resolve.md R109). -/
theorem MidDecode.endsWithin_output (h : MidDecode m src p b out s) {bs : List Byte} {e q c bound : Nat}
    {r : DecodeResult} (hfit : out.length + bs.length ≤ 512)
    (hstep : step s = .next (complete e (Machine.advance out.length bs q c s)))
    (hfull : out.length + bs.length = 512 → r = .done (out ++ bs) e)
    (hmore : out.length + bs.length < 512 → EndsWithin (Machine.advance out.length bs q c s) bound r) :
    EndsWithin s (bound + 1) r := by
  refine endsWithin_step hstep ?_
  by_cases hlen : out.length + bs.length = 512
  · rw [hfull hlen]
    refine endsWithin_observed (observe_done ?_ (by simpa using hlen) (fun j hj => ?_) ?_)
    · rw [complete_of_full (congrArg some hlen)]
    · rw [complete_outAt, h.outAt_advance hfit q c j (by omega)]
    · rw [complete_of_full (congrArg some hlen)]
  · rw [complete_of_notFull fun hocnt => hlen (Option.some.inj hocnt)]
    exact hmore (by omega)

end

/-- Bytes read from an address up to the ROM's end can only fault at that end (60_exceptions.md R213, R222). -/
theorem readBytes_error_atEnd {m : Rom} {a : Int} {n : Nat} {f : FaultInfo} (h0 : 0 ≤ a) (ha : a ≤ m.len)
    (h : readBytes m a n = .error f) : f = ⟨.outOfBounds, .bytePastEnd, m.len⟩ := by
  obtain ⟨k, -, hnone, hinside, rfl⟩ := readBytes_error h
  have hend := (romByte_none_iff m _).1 hnone
  have hk : a + k = m.len := by
    cases k with
    | zero => omega
    | succ k =>
      have hlast := mt (romByte_none_iff m _).2 (hinside k (by omega))
      omega
  rw [hk]

theorem readBytes_succ {m : Rom} {a : Int} {n : Nat} {b : Byte} (h : romByte m a = some b) :
    readBytes m a (n + 1) = (readBytes m (a + 1) n).map (b :: ·) := by
  rw [readBytes, memRead_ok_iff.2 h]
  cases readBytes m (a + 1) n <;> rfl

/-- A decode whose next byte lies past the ROM's end ends there (60_exceptions.md R213). -/
theorem endsWithin_pastEnd {s : State} {p bound : Nat} {d : Byte → Instr} (hhost : s.host = []) (hp : p ≤ s.rom.len)
    (hfetch : fetchStep s = fetchByte s.rom p d) (hnone : romByte s.rom p = none) :
    EndsWithin s (bound + 1) (pastEnd s.rom) := by
  have hend : (p : Int) = s.rom.len := by
    have := (romByte_none_iff _ _).1 hnone
    omega
  have hraise : fetchStep s = .raise ⟨.outOfBounds, .bytePastEnd, p⟩ := by
    rw [hfetch, fetchByte, memRead_error_iff.2 ⟨hnone, rfl⟩]
  rw [pastEnd, ← hend]
  exact endsWithin_takeFault (step_noCommand_raise hhost hraise)

/-! ### The mode-0 block (41_mode0.md R123) -/

section
variable {src p b : Nat} {out : List Byte} {s : State}

theorem MidDecode.fetchStep_neg (h : MidDecode 0 src p b out s) : fetchStep s = fetchByte s.rom p .negByte := by
  simp only [fetchStep, h.busy, h.mode, h.iptr, if_true, fetchNeed_some]
  rfl

theorem MidDecode.execNegByte (h : MidDecode 0 src p b out s) (hout : out.length < 512) (c : Byte) :
    execNegByte c s = .next (complete 512 (Machine.advance out.length [negate c] (p + 1) b s)) := by
  have henabled : InStep .neg s := inStep_of_mode h.busy h.mode rfl
  rw [Machine.execNegByte, inStep_of henabled, h.iptr, need_some, h.ocnt, need_some, if_pos hout]
  simp only [Machine.advance, ← h.bptr, emit_bptr]

end

/-- The `k` bytes left of a mode-0 block are read one a step, and the first that the ROM does not have ends it. -/
theorem MidDecode.neg_endsWithin {src b k : Nat} {r : DecodeResult} : ∀ {p : Nat} {out : List Byte} {s : State},
    MidDecode 0 src p b out s → p ≤ s.rom.len → 0 < k → out.length + k = 512 →
    (∀ f, readBytes s.rom p k = .error f → r = pastEnd s.rom) →
    (∀ bs, readBytes s.rom p k = .ok bs → r = .done (out ++ bs.map negate) 512) → EndsWithin s k r := by
  induction k with
  | zero => intro p out s _ _ hk; omega
  | succ k ih =>
    intro p out s h hp _ hlen hcut hwhole
    rcases fetchByte_eq h.fetchStep_neg.symm with ⟨hnone, -⟩ | ⟨c, hc, hunit⟩
    · have hread : readBytes s.rom p (k + 1) = .error ⟨.outOfBounds, .bytePastEnd, p⟩ := by
        rw [readBytes, memRead_error_iff.2 ⟨hnone, rfl⟩]
      rw [hcut _ hread]
      exact endsWithin_pastEnd h.host hp h.fetchStep_neg hnone
    · have hstep := (step_noCommand_unit h.host hunit).trans (h.execNegByte (by omega) c)
      have hread : readBytes s.rom p (k + 1) = (readBytes s.rom (p + 1 : Nat) k).map (c :: ·) := readBytes_succ hc
      have hroom : out.length + [negate c].length ≤ 512 := by rw [List.length_singleton]; omega
      refine h.endsWithin_output hroom hstep (fun hfull => ?_) fun hmore => ?_
      · obtain rfl : k = 0 := by rw [List.length_singleton] at hfull; omega
        exact hwhole [c] hread
      · have hp' := romByte_lt hc
        rw [List.length_singleton] at hmore
        refine ih (h.advance hroom (p + 1) b) hp' (by omega)
          (by rw [List.length_append, List.length_singleton]; omega) (fun f hf => ?_) fun bs hbs => ?_
        · exact hcut f (hread.trans (congrArg (Except.map _) hf))
        · rw [hwhole (c :: bs) (hread.trans (congrArg (Except.map _) hbs)), List.append_assoc]
          rfl

/-- A mode-0 decode just begun ends with its block (41_mode0.md R123). -/
theorem negBlock_endsWithin {src : Nat} {s : State} (h : MidDecode 0 src src 0 [] s) (hsrc : src < s.rom.len) :
    EndsWithin s 512 (negBlock s.rom src) := by
  refine h.neg_endsWithin hsrc.le (by decide) rfl (fun f hf => ?_) fun bs hbs => ?_
  · rw [negBlock, hf]
  · rw [negBlock, hbs]
    rfl

/-! ### The mode-1 block (42_mode1_rle.md R146) -/

/-- The bytes that a literal or repeat command outputs (42_mode1_rle.md R142, R143). -/
def cmdLen (c : Byte) : Nat :=
  if c.toNat ≤ 0x7F then litLen c else repLen c

/-- The operand bytes behind a literal or repeat command. -/
def cmdOperands (c : Byte) : Nat :=
  if c.toNat ≤ 0x7F then litLen c else 1

/-- The run of a literal or repeat command whose operands begin at `a`. -/
def cmdRun (m : Rom) (a : Int) (c : Byte) : Except FaultInfo (List Byte) :=
  if c.toNat ≤ 0x7F then litRun m a c else repRun m a c

/-- Every command but the no-op is a run of its own length, operands and bytes. -/
theorem exec_decodeCmd {c : Byte} (hnop : c ≠ 0x80) (s : State) :
    exec (decodeCmd c) s = inStep .rle s (performRun (cmdLen c) (cmdOperands c) (fun m a => cmdRun m a c) s) := by
  rcases cmdClass c with hlit | hc | hrep
  · rw [decodeCmd_lit hlit]
    simp only [cmdLen, cmdOperands, cmdRun, if_pos hlit]
    rfl
  · exact absurd hc hnop
  · have hnot : ¬c.toNat ≤ 0x7F := by omega
    rw [decodeCmd_rep hrep]
    simp only [cmdLen, cmdOperands, cmdRun, if_neg hnot]
    rfl

theorem cmdRun_ok {m : Rom} {a : Int} {c : Byte} {bs : List Byte} (h : cmdRun m a c = .ok bs) :
    bs.length = cmdLen c ∧ a + cmdOperands c ≤ m.len := by
  unfold cmdRun at h
  unfold cmdLen cmdOperands
  split at h
  · rename_i hlit
    rw [if_pos hlit, if_pos hlit]
    exact ⟨litRun_length h, readBytes_end c.toNat.succ_pos h⟩
  · rename_i hlit
    rw [if_neg hlit, if_neg hlit]
    exact ⟨repRun_length h, repRun_end h⟩

theorem cmdRun_error_atEnd {m : Rom} {a : Int} {c : Byte} {f : FaultInfo} (h0 : 0 ≤ a) (ha : a ≤ m.len)
    (h : cmdRun m a c = .error f) : f = ⟨.outOfBounds, .bytePastEnd, m.len⟩ := by
  unfold cmdRun at h
  split at h
  · exact readBytes_error_atEnd h0 ha h
  · refine readBytes_error_atEnd (n := 1) h0 ha ?_
    unfold repRun at h
    split at h
    · rename_i g hg
      cases h
      rw [readBytes, hg]
    · cases h

section
variable {rom : Rom} {src fuel a : Nat} {out : List Byte} {c : Byte}

theorem rleBlock_pastEnd (h : romByte rom a = none) : rleBlock rom src (fuel + 1) a out = pastEnd rom := by
  simp only [rleBlock, h]

theorem rleBlock_nop (h : romByte rom a = some 0x80) :
    rleBlock rom src (fuel + 1) a out = rleBlock rom src fuel (a + 1) out := by
  simp only [rleBlock, h, if_true]

theorem rleBlock_overflow (h : romByte rom a = some c) (hnop : c ≠ 0x80) (hover : 512 < out.length + cmdLen c) :
    rleBlock rom src (fuel + 1) a out = .fault .outOfBounds .runOverflow a := by
  rw [cmdLen] at hover
  simp only [rleBlock, h, if_neg hnop, if_pos hover]

theorem rleBlock_cut {f : FaultInfo} (h : romByte rom a = some c) (hnop : c ≠ 0x80)
    (hfit : out.length + cmdLen c ≤ 512) (hrun : cmdRun rom (a + 1) c = .error f) :
    rleBlock rom src (fuel + 1) a out = pastEnd rom := by
  rw [cmdLen] at hfit
  rw [cmdRun] at hrun
  simp only [rleBlock, h, if_neg hnop, if_neg hfit.not_gt, hrun]

theorem rleBlock_full {bs : List Byte} (h : romByte rom a = some c) (hnop : c ≠ 0x80)
    (hfull : out.length + cmdLen c = 512) (hrun : cmdRun rom (a + 1) c = .ok bs) :
    rleBlock rom src (fuel + 1) a out = .done (out ++ bs) (a + 1 + cmdOperands c - src) := by
  rw [cmdLen] at hfull
  rw [cmdRun] at hrun
  simp only [rleBlock, h, if_neg hnop, if_neg hfull.not_gt, hrun, if_pos hfull, cmdOperands]

theorem rleBlock_more {bs : List Byte} (h : romByte rom a = some c) (hnop : c ≠ 0x80)
    (hmore : out.length + cmdLen c < 512) (hrun : cmdRun rom (a + 1) c = .ok bs) :
    rleBlock rom src (fuel + 1) a out = rleBlock rom src fuel (a + 1 + cmdOperands c) (out ++ bs) := by
  rw [cmdLen] at hmore
  rw [cmdRun] at hrun
  simp only [rleBlock, h, if_neg hnop, if_neg hmore.le.not_gt, hrun, if_neg hmore.ne, cmdOperands]

end

section
variable {src p b : Nat} {out : List Byte} {s : State}

theorem MidDecode.fetchStep_rle (h : MidDecode 1 src p b out s) : fetchStep s = fetchByte s.rom p decodeCmd := by
  simp only [fetchStep, h.busy, h.mode, h.iptr, if_true, fetchNeed_some]
  rfl

theorem MidDecode.fetchStep_command (h : MidDecode 1 src p b out s) {c : Byte} (hc : romByte s.rom p = some c) :
    fetchStep s = .unit (decodeCmd c) := by
  rw [h.fetchStep_rle, fetchByte, memRead_ok_iff.2 hc]

/-- The no-op moves IPTR on and nothing else (42_mode1_rle.md R141). -/
theorem MidDecode.skip (h : MidDecode 1 src p b out s) :
    MidDecode 1 src (p + 1) b out { s with iptr := some (p + 1) } :=
  ⟨h.host, h.busy, h.mode, h.src, rfl, h.bptr, h.ocnt, h.produced⟩

theorem MidDecode.finishRun (h : MidDecode 1 src p b out s) (next : Nat) (bs : List Byte) :
    finishRun src out.length next bs s = complete (next - src) (Machine.advance out.length bs next b s) := by
  have hend : ((next : Int) - (src : Int)).toNat = next - src := by omega
  rw [Machine.finishRun, hend]
  simp only [Machine.advance, ← h.bptr, emit_bptr]

/-- Every command byte but the no-op ends the decode or outputs its run, as the block result has it (42_mode1_rle.md
R142 to R146). -/
theorem MidDecode.command_endsWithin (h : MidDecode 1 src p b out s) {c : Byte} {fuel : Nat}
    (hc : romByte s.rom p = some c) (hnop : c ≠ 0x80)
    (hmore : ∀ bs, cmdRun s.rom (p + 1) c = .ok bs → out.length + bs.length < 512 →
      EndsWithin (Machine.advance out.length bs (p + 1 + cmdOperands c) b s) fuel
        (rleBlock s.rom src fuel (p + 1 + cmdOperands c) (out ++ bs))) :
    EndsWithin s (fuel + 1) (rleBlock s.rom src (fuel + 1) p out) := by
  have henabled : InStep .rle s := inStep_of_mode h.busy h.mode rfl
  have hstep := (step_noCommand_unit h.host (h.fetchStep_command hc)).trans
    ((exec_decodeCmd hnop s).trans (inStep_of henabled _))
  obtain ⟨hover, hfault, hrun⟩ := performRun_of (len := cmdLen c) (operands := cmdOperands c)
    (run := fun m a => cmdRun m a c) h.src h.iptr h.ocnt
  have hp := romByte_lt hc
  by_cases hfit : out.length + cmdLen c ≤ 512
  · cases hr : cmdRun s.rom (p + 1) c with
    | error f =>
      obtain rfl := cmdRun_error_atEnd (by omega) (by omega) hr
      rw [rleBlock_cut hc hnop hfit hr]
      exact endsWithin_takeFault (hstep.trans (hfault hfit _ hr))
    | ok bs =>
      obtain ⟨hlen, -⟩ := cmdRun_ok hr
      refine h.endsWithin_output (hlen ▸ hfit) (hstep.trans ((hrun hfit bs hr).trans (congrArg _ (h.finishRun _ bs))))
        (fun hfull => rleBlock_full hc hnop (hlen ▸ hfull) hr) fun hlt => ?_
      rw [rleBlock_more hc hnop (hlen ▸ hlt) hr]
      exact hmore bs hr hlt
  · rw [rleBlock_overflow hc hnop (by omega)]
    exact endsWithin_takeFault (hstep.trans (hover (by omega)))

end

/-- A mode-1 decode follows its block result command by command, each of them a byte further in the ROM. -/
theorem MidDecode.rle_endsWithin {src b fuel : Nat} : ∀ {p : Nat} {out : List Byte} {s : State},
    MidDecode 1 src p b out s → p ≤ s.rom.len → s.rom.len < p + fuel →
    EndsWithin s fuel (rleBlock s.rom src fuel p out) := by
  induction fuel with
  | zero => intro p out s _ _ hfuel; omega
  | succ fuel ih =>
    intro p out s h hp hfuel
    cases hc : romByte s.rom p with
    | none =>
      rw [rleBlock_pastEnd hc]
      exact endsWithin_pastEnd h.host hp h.fetchStep_rle hc
    | some c =>
      have hlt := romByte_lt hc
      by_cases hnop : c = 0x80
      · subst hnop
        have henabled : InStep .rle s := inStep_of_mode h.busy h.mode rfl
        have hstep : step s = .next { s with iptr := some (p + 1) } := by
          rw [step_noCommand_unit h.host (h.fetchStep_command hc), decodeCmd_nop, exec, execRleNop, inStep_of henabled,
            h.iptr, need_some]
        rw [rleBlock_nop hc]
        exact endsWithin_step hstep (ih h.skip hlt (by dsimp only; omega))
      · refine h.command_endsWithin hc hnop fun bs hbs hmore => ?_
        obtain ⟨-, hend⟩ := cmdRun_ok hbs
        exact ih (h.advance hmore.le _ b) (by dsimp only [emit_rom]; omega) (by dsimp only [emit_rom]; omega)

/-- A mode-1 decode just begun ends with its block (42_mode1_rle.md R146). -/
theorem rleBlock_endsWithin {src : Nat} {s : State} (h : MidDecode 1 src src 0 [] s) (hsrc : src < s.rom.len) :
    EndsWithin s (s.rom.len - src + 1) (rleBlock s.rom src (s.rom.len - src + 1) src []) :=
  h.rle_endsWithin hsrc.le (by omega)

/-! ### The mode-2 block (43_mode2_bitpacked.md R175) -/

/-- The bit stream of a decode whose storage starts at `src` (44_bitstream_reader.md R190). -/
def streamBits (m : Rom) (src : Nat) : List Bool :=
  bitsOfBytes (bytesFrom m (src + 16))

theorem streamBits_length (m : Rom) (src : Nat) : (streamBits m src).length = 8 * (m.len - (src + 16)) := by
  simp [streamBits, bytesFrom]

/-- Bit `p` of a byte sequence is bit `7 - p mod 8` of its byte `p div 8` (44_bitstream_reader.md R191). -/
theorem bitsOfBytes_getElem? (bs : List Byte) (p : Nat) :
    (bitsOfBytes bs)[p]? = bs[p / 8]?.map fun b => b.getLsbD (7 - p % 8) := by
  induction bs generalizing p with
  | nil => rfl
  | cons b bs ih =>
    rw [bitsOfBytes_cons]
    by_cases hp : p < 8
    · have hdiv : p / 8 = 0 := by omega
      have hmod : 8 - 1 - p = 7 - p % 8 := by omega
      rw [List.getElem?_append_left (by simpa using hp), bitsOfByte, bitsOf_getElem? 8 _ _ hp, hdiv, hmod]
      rfl
    · have hdiv : p / 8 = (p - 8) / 8 + 1 := by omega
      have hmod : (p - 8) % 8 = p % 8 := by omega
      rw [List.getElem?_append_right (by simpa using hp), bitsOfByte_length, ih, hdiv, hmod, List.getElem?_cons_succ]

theorem getElem?_of_drop_eq_cons {α : Type} {l r : List α} {p : Nat} {a : α} (h : l.drop p = a :: r) :
    l[p]? = some a ∧ l.drop (p + 1) = r := by
  constructor
  · rw [← Nat.add_zero p, ← List.getElem?_drop, h]
    rfl
  · rw [← List.drop_drop, h]
    rfl

section
variable {m : Rom} {src p : Nat}

theorem readBit_stream {c : Bool} (h : (streamBits m src)[p]? = some c) :
    readBit m (bitBase src) p = .ok (c, p + 1) := by
  have hp : p < 8 * (m.len - (src + 16)) := streamBits_length m src ▸ (List.getElem?_eq_some_iff.1 h).1
  have hin : src + 16 + p / 8 < m.len := by omega
  have hbyte : (bytesFrom m (src + 16))[p / 8]? = some (cellByte m.cells (src + 16 + p / 8)) := by
    have hidx : p / 8 < m.len - (src + 16) := by omega
    simp [bytesFrom, hidx]
  rw [streamBits, bitsOfBytes_getElem?, hbyte] at h
  cases h
  exact readBit_ok (by unfold bitLen bitBase; omega) (romByte_inside hin)

theorem readBit_streamEnd (hsrc : src + 16 ≤ m.len) (hp : p = (streamBits m src).length) :
    readBit m (bitBase src) p = .error ⟨.outOfBounds, .bitPastEnd, m.len⟩ := by
  have hlen := streamBits_length m src
  have hend : bitBase src + (p / 8 : Nat) = m.len := by unfold bitBase; omega
  rw [readBit_pastEnd (by unfold bitLen bitBase; omega), hend]

/-- Bits read one after another are the stream's own (44_bitstream_reader.md R192). -/
theorem readBitList_stream {bs rest : List Bool} (h : (streamBits m src).drop p = bs ++ rest) :
    readBitList m (bitBase src) bs.length p = .ok (bs, p + bs.length) := by
  induction bs generalizing p with
  | nil => rfl
  | cons c bs ih =>
    obtain ⟨hbit, htail⟩ := getElem?_of_drop_eq_cons h
    rw [List.length_cons, readBitList_cons (readBit_stream hbit) (ih htail), Nat.add_assoc, Nat.add_comm 1]

end

/-- Bits that are no code end inside it (30_encoding.md R86). -/
theorem decode_code_error {bits : List Bool} {e : DecodeError} (h : decode .code bits = .error e) :
    bits = [] ∨ ∃ flag l, bits = flag :: l ∧ l.length < if flag then 4 else 8 := by
  cases bits with
  | nil => exact .inl rfl
  | cons flag l =>
    refine .inr ⟨flag, l, rfl, Nat.lt_of_not_le fun hlen => ?_⟩
    cases flag with
    | true =>
      have hfour : 4 ≤ l.length := hlen
      simp [decode, hfour] at h
    | false =>
      have height : 8 ≤ l.length := hlen
      simp [decode, height] at h

section
variable {m : Rom} {src p : Nat}

/-- A code that the stream holds whole is the unit fetched, and the stream goes on behind it. -/
theorem fetchCode_stream {i : Instr} {rest : List Bool}
    (h : decode .code ((streamBits m src).drop p) = .ok (i, rest)) :
    fetchCode m src p = .unit i ∧ rest = (streamBits m src).drop (p + i.bitLength) ∧
      p + i.bitLength ≤ (streamBits m src).length := by
  obtain ⟨flag, l, hbits, hl, hlen, hdec⟩ := decode_code_flag h
  obtain ⟨hflag, htail⟩ := getElem?_of_drop_eq_cons hbits
  refine ⟨?_, ?_, ?_⟩
  · rw [fetchCode, readBit_stream hflag]
    simp only [← hl, readBitList_stream htail, hdec]
  · rw [hlen, Nat.add_comm l.length, ← Nat.add_assoc, ← List.drop_drop, htail, List.drop_left]
  · have hcut := congrArg List.length hbits
    rw [List.length_drop, List.length_cons, List.length_append] at hcut
    omega

/-- A code that the stream cuts faults at the ROM's end (60_exceptions.md R214). -/
theorem fetchCode_pastEnd {e : DecodeError} (hsrc : src + 16 ≤ m.len) (hp : p ≤ (streamBits m src).length)
    (h : decode .code ((streamBits m src).drop p) = .error e) :
    fetchCode m src p = .raise ⟨.outOfBounds, .bitPastEnd, m.len⟩ := by
  have hlen := streamBits_length m src
  rcases decode_code_error h with hnil | ⟨flag, l, hbits, hl⟩
  · have hend : (streamBits m src).length ≤ p := List.drop_eq_nil_iff.1 hnil
    rw [fetchCode, readBit_streamEnd hsrc (hp.antisymm hend)]
  · obtain ⟨hflag, -⟩ := getElem?_of_drop_eq_cons hbits
    have hcut := congrArg List.length hbits
    rw [List.length_drop, List.length_cons] at hcut
    rw [fetchCode, readBit_stream hflag]
    simp only [readBitList_pastEnd (n := if flag then 4 else 8) (q := p + 1) hsrc (by omega) (by omega)]

end

/-- The dictionary is loaded with the bytes `d` (43_mode2_bitpacked.md R170). -/
abbrev DictLoaded (d : List Byte) (s : State) : Prop :=
  s.dictValid = true ∧ ∀ i : BitVec 4, s.dict.get i.toFin = some (d.getD i.toNat 0)

theorem dictLoaded_loadDict (d : Vector Byte 16) (s : State) : DictLoaded d.toList (loadDict d s) := by
  refine ⟨rfl, fun i => ?_⟩
  have hi := i.isLt
  have hat := loadDict_dictAt d s i.toNat hi
  rw [State.dictAt, dif_pos hi] at hat
  rw [List.getD_eq_getElem _ _ (by simpa using hi), Vector.getElem_toList]
  exact hat

section
variable {src p b : Nat} {out : List Byte} {s : State}

theorem MidDecode.fetchStep_code (h : MidDecode 2 src p b out s) (hload : s.dictValid = true) :
    fetchStep s = fetchCode s.rom src b := by
  simp only [fetchStep, h.busy, h.mode, h.src, h.bptr, hload, if_true, fetchNeed_some]
  rfl

theorem MidDecode.fetchStep_dict (h : MidDecode 2 src p b out s) (hload : s.dictValid = false) :
    fetchStep s = fetchDict s.rom src := by
  simp only [fetchStep, h.busy, h.mode, h.src, hload, if_true, fetchNeed_some]
  rfl

theorem MidDecode.loadDict (h : MidDecode 2 src p b out s) (d : Vector Byte 16) :
    MidDecode 2 src p b out (loadDict d s) :=
  ⟨h.host, h.busy, h.mode, h.src, h.iptr, h.bptr, h.ocnt, h.produced⟩

theorem MidDecode.finishCode (h : MidDecode 2 src p b out s) (hout : out.length < 512) (len : Nat) (c : Byte) :
    finishCode len c s = .next (complete (byteOffset (b + len)) (Machine.advance out.length [c] p (b + len) s)) := by
  rw [Machine.finishCode, h.bptr, need_some, h.ocnt, need_some, if_pos hout]
  simp only [Machine.advance, ← h.iptr, emit_iptr]

/-- A code outputs the byte it stands for (43_mode2_bitpacked.md R172, R173). -/
theorem MidDecode.exec_code (h : MidDecode 2 src p b out s) (hout : out.length < 512) {d : List Byte}
    (hload : DictLoaded d s) {bits rest : List Bool} {i : Instr} (hi : decode .code bits = .ok (i, rest)) :
    exec i s = .next (complete (byteOffset (b + i.bitLength))
      (Machine.advance out.length [codeByte d i] p (b + i.bitLength) s)) := by
  have henabled : InStep .code s := inStep_of_mode h.busy h.mode (by rw [hload.1]; rfl)
  rcases decode_code_ok hi with ⟨l, -, -, rfl⟩ | ⟨l, -, -, rfl⟩
  · rw [exec, execM2Hit, inStep_of henabled, hload.2, need_some]
    exact h.finishCode hout 5 _
  · rw [exec, execM2Lit, inStep_of henabled]
    exact h.finishCode hout 9 _

end

/-- The `n` codes left of a mode-2 block are read one a step, and the first that the stream cuts ends it. -/
theorem MidDecode.codes_endsWithin {src p n : Nat} {d : List Byte} {r : DecodeResult} :
    ∀ {b : Nat} {out : List Byte} {s : State}, MidDecode 2 src p b out s → DictLoaded d s → src + 16 ≤ s.rom.len →
    b ≤ (streamBits s.rom src).length → 0 < n → out.length + n = 512 →
    (codesOf d n ((streamBits s.rom src).drop b) = none → r = .fault .outOfBounds .bitPastEnd s.rom.len) →
    (∀ bs used, codesOf d n ((streamBits s.rom src).drop b) = some (bs, used) →
      r = .done (out ++ bs) (byteOffset (b + used))) → EndsWithin s n r := by
  induction n with
  | zero => intro b out s _ _ _ _ hn; omega
  | succ n ih =>
    intro b out s h hload hsrc hb _ hlen hcut hwhole
    cases hdec : decode .code ((streamBits s.rom src).drop b) with
    | error e =>
      have hraise := (h.fetchStep_code hload.1).trans (fetchCode_pastEnd hsrc hb hdec)
      rw [hcut (by rw [codesOf, hdec])]
      exact endsWithin_takeFault (step_noCommand_raise h.host hraise)
    | ok x =>
      obtain ⟨i, rest⟩ := x
      obtain ⟨hfetch, rfl, hin⟩ := fetchCode_stream hdec
      have hstep := (step_noCommand_unit h.host ((h.fetchStep_code hload.1).trans hfetch)).trans
        (h.exec_code (by omega) hload hdec)
      have hcodes : codesOf d (n + 1) ((streamBits s.rom src).drop b) =
          (codesOf d n ((streamBits s.rom src).drop (b + i.bitLength))).map
            fun r => (codeByte d i :: r.1, i.bitLength + r.2) := by rw [codesOf, hdec]
      have hroom : out.length + [codeByte d i].length ≤ 512 := by rw [List.length_singleton]; omega
      refine h.endsWithin_output hroom hstep (fun hfull => ?_) fun hmore => ?_
      · obtain rfl : n = 0 := by rw [List.length_singleton] at hfull; omega
        exact hwhole _ _ hcodes
      · rw [List.length_singleton] at hmore
        refine ih (h.advance hroom _ _) hload hsrc hin (by omega)
          (by rw [List.length_append, List.length_singleton]; omega) (fun hnone => ?_) fun bs used hsome => ?_
        · exact hcut (hcodes.trans (congrArg _ hnone))
        · rw [hwhole _ _ (hcodes.trans (congrArg _ hsome)), List.append_assoc, Nat.add_assoc]
          rfl

section
variable {rom : Rom} {src : Nat} {dict : List Byte}

theorem packedBlock_cut (hread : readBytes rom src 16 = .ok dict) (h : codesOf dict 512 (streamBits rom src) = none) :
    packedBlock rom src = .fault .outOfBounds .bitPastEnd rom.len := by
  rw [streamBits] at h
  simp only [packedBlock, hread, h]

theorem packedBlock_whole {bs : List Byte} {used : Nat} (hread : readBytes rom src 16 = .ok dict)
    (h : codesOf dict 512 (streamBits rom src) = some (bs, used)) :
    packedBlock rom src = .done bs (byteOffset used) := by
  rw [streamBits] at h
  simp only [packedBlock, hread, h]

end

/-- A mode-2 decode just begun ends with its block (43_mode2_bitpacked.md R175). -/
theorem packedBlock_endsWithin {src : Nat} {s : State} (h : MidDecode 2 src src 0 [] s) (hload : s.dictValid = false)
    (hsrc : src < s.rom.len) : EndsWithin s 513 (packedBlock s.rom src) := by
  have hfetch := h.fetchStep_dict hload
  cases hread : readBytes s.rom src 16 with
  | error f =>
    obtain rfl := readBytes_error_atEnd (by omega) (by omega) hread
    have hraise : fetchStep s = .raise ⟨.outOfBounds, .bytePastEnd, s.rom.len⟩ := by rw [hfetch, fetchDict, hread]
    have hblock : packedBlock s.rom src = pastEnd s.rom := by rw [packedBlock, hread]
    rw [hblock]
    exact endsWithin_takeFault (step_noCommand_raise h.host hraise)
  | ok bs =>
    have hunit := hfetch.trans (fetchDict_ok hread)
    have hend := readBytes_end (by decide) hread
    have henabled : InStep .dictLoad s := inStep_of_mode h.busy h.mode (by rw [hload]; rfl)
    have hstep := (step_noCommand_unit h.host hunit).trans (inStep_of henabled _)
    refine endsWithin_step hstep ((h.loadDict _).codes_endsWithin (dictLoaded_loadDict _ s) ?_ (Nat.zero_le _)
      (by decide) rfl (packedBlock_cut hread) fun out used hsome => ?_)
    · exact Int.ofNat_le.1 hend
    · rw [packedBlock_whole hread hsome, Nat.zero_add]
      rfl

/-! ### A decode from START on -/

/-- Where START begins a decode, with no command of the host to come (40_entry_resolve.md R107). -/
theorem midDecode_beginDecode {s : State} (hhost : s.host = []) (a : Nat) (mode : Byte) (off : Int) :
    MidDecode mode a a 0 [] (beginDecode a (acceptStart mode off (some (a : Int)) s)) :=
  ⟨hhost, rfl, rfl, rfl, rfl, rfl, rfl, nofun⟩

section
variable {rom : Rom} {base : Nat} {w : Word}

theorem blockResult_badMode (h : 2 < (entryMode w).toNat) :
    blockResult rom base w = .fault .unsupportedBlockMode .noCause 0 := if_pos h

theorem blockResult_zero : blockResult rom base 0 = .done (List.replicate 512 0) 0 := rfl

theorem blockResult_outside (hmode : (entryMode w).toNat ≤ 2) (hw : w ≠ 0)
    (hout : base + sext24 (entryRaw w) < 0 ∨ (rom.len : Int) ≤ base + sext24 (entryRaw w)) :
    blockResult rom base w = .fault .outOfBounds .startOutside (base + sext24 (entryRaw w)) := by
  rw [blockResult, if_neg hmode.not_gt, if_neg hw, if_pos hout]

/-- Inside the ROM the mode selects the block (40_entry_resolve.md R108). -/
theorem blockResult_inside {a : Nat} (hmode : (entryMode w).toNat ≤ 2) (hw : w ≠ 0)
    (ha : base + sext24 (entryRaw w) = (a : Int)) (hlt : a < rom.len) :
    blockResult rom base w = if entryMode w = 0 then negBlock rom a
      else if entryMode w = 1 then rleBlock rom a (rom.len - a + 1) a []
      else packedBlock rom a := by
  rw [blockResult, if_neg hmode.not_gt, if_neg hw, if_neg (by omega), ha]
  rfl

end

/-- A decode begun inside the ROM ends with the block of its mode. -/
theorem beginDecode_endsWithin {s : State} {base a : Nat} {w : Word} (hhost : s.host = [])
    (hmode : (entryMode w).toNat ≤ 2) (hw : w ≠ 0) (ha : base + sext24 (entryRaw w) = (a : Int)) (hlt : a < s.rom.len)
    (off : Int) : EndsWithin (beginDecode a (acceptStart (entryMode w) off (some (a : Int)) s)) (s.rom.len + 514)
      (blockResult s.rom base w) := by
  have hbegun := midDecode_beginDecode hhost a (entryMode w) off
  rw [blockResult_inside hmode hw ha hlt]
  rcases entryClass w with h3 | h0 | ⟨h0, -⟩ | h1 | h2
  · omega
  · exact absurd h0 hw
  · rw [h0] at hbegun ⊢
    exact (negBlock_endsWithin hbegun hlt).mono (by omega)
  · rw [h1] at hbegun ⊢
    exact (rleBlock_endsWithin hbegun hlt).mono (by simp only [beginDecode_rom, acceptStart_rom]; omega)
  · rw [h2] at hbegun ⊢
    exact (packedBlock_endsWithin hbegun rfl hlt).mono (by omega)

/-- START ends at once, or begins a decode that ends, with the block result of the ROM (40_entry_resolve.md R110). -/
theorem resolve_endsWithin {s : State} (hhost : s.host = []) (base : Nat) (w : Word) :
    EndsWithin (resolve (entryMode w) (entryRaw w) base s) (s.rom.len + 514) (blockResult s.rom base w) := by
  have hzero : w = 0 ↔ entryMode w = 0 ∧ sext24 (entryRaw w) = 0 := by rw [word_eq_zero_iff, sext24_zero_iff]
  rcases resolve_cases (entryMode w) (entryRaw w) base s with ⟨hbad, e⟩ | ⟨hm, hoff, e⟩ | ⟨hmode, hw, hout, e⟩ |
    ⟨hmode, hw, hge, hlt, e⟩ <;> rw [e]
  · rw [blockResult_badMode hbad]
    exact endsWithin_observed rfl
  · obtain rfl := hzero.2 ⟨hm, hoff⟩
    rw [blockResult_zero]
    refine endsWithin_observed (observe_done rfl List.length_replicate (fun j hj => ?_) rfl)
    rw [outAt_replicate (zeroBlock_out _) j hj, List.getElem?_replicate_of_lt hj]
  · rw [blockResult_outside hmode (mt hzero.1 hw) hout]
    exact endsWithin_observed rfl
  · obtain ⟨a, ha⟩ := Int.eq_ofNat_of_zero_le hge
    rw [ha] at hlt ⊢
    exact beginDecode_endsWithin hhost hmode (mt hzero.1 hw) ha (Int.ofNat_lt.1 hlt) _

/-- A decode that a host starts and then leaves alone: what its first step is, and how the steps behind it end. -/
theorem started_endsWithin {s : State} {base : Nat} {w : Word} (h : Started s base w) :
    ∃ u, step s = .next u ∧ u.host = [] ∧ u.rom = s.rom ∧
      EndsWithin u (s.rom.len + 514) (blockResult s.rom base w) := by
  obtain ⟨hhost, hfree, hentry, hbase⟩ := h
  have hready : StartReady (takeCommand s) base := ⟨hfree, by rw [takeCommand, hentry]; nofun, hbase⟩
  have hempty : (takeCommand s).host = [] := by rw [takeCommand, hhost]; rfl
  have hexec := (exec_decodeEntry w (takeCommand s)).trans (start_ready hready (entryMode w) (entryRaw w))
  have hstep : step s = exec (decodeEntry w) (takeCommand s) := by
    rw [step, fetch, hhost]
    simp only [fetchEntry, hentry]
  obtain ⟨hrom, -, -, hkeep, -⟩ := exec_keepsInputs hexec
  exact ⟨_, hstep.trans hexec, hkeep.trans hempty, hrom, resolve_endsWithin hempty base w⟩

/-! ### Several engines -/

/-- The system after engine `k` has stepped to `t`: the others read the ROM that `t` reads. -/
def Cluster.moved (k : Nat) (t : State) (c : Cluster) : Cluster :=
  { engines := (c.engines.set k t).map (setRom t.rom) }

theorem setRom_own (s : State) : setRom s.rom s = s := rfl

section
variable {k : Nat} {s t : State} {c d : Cluster}

theorem Cluster.moved_self (hs : c.engines[k]? = some s) : (c.moved k t).engines[k]? = some t := by
  obtain ⟨hk, -⟩ := List.getElem?_eq_some_iff.1 hs
  rw [moved, List.getElem?_map, List.getElem?_set_self hk]
  rfl

theorem Cluster.moved_other {j : Nat} (hj : j ≠ k) :
    (c.moved k t).engines[j]? = (c.engines[j]?).map (setRom t.rom) := by
  rw [moved, List.getElem?_map, List.getElem?_set_ne hj.symm]

theorem Cluster.moved_shares (hs : c.engines[k]? = some s) : (c.moved k t).shares t.rom := by
  refine ⟨List.ne_nil_of_mem (List.mem_of_getElem? (moved_self hs)), fun u hu => ?_⟩
  obtain ⟨v, -, rfl⟩ := List.mem_map.1 hu
  rfl

theorem Cluster.stepAt_next (hs : c.engines[k]? = some s) (hload : loadsRom s = false ∨ c.anyBusy = false)
    (hstep : step s = .next t) : c.stepAt k = some (c.moved k t) := by
  have hfree : (loadsRom s && c.anyBusy) = false := Bool.and_eq_false_iff.2 hload
  simp only [stepAt, hs, hfree, hstep]
  rfl

/-- A load beside a BUSY engine is refused (20_memory.md R51; log 15). -/
theorem Cluster.stepAt_load (hs : c.engines[k]? = some s) (hload : loadsRom s = true) (hbusy : c.anyBusy = true) :
    c.stepAt k = none := by
  simp only [stepAt, hs, hload, hbusy]
  rfl

/-- Everything that a step of the system is: one engine's own step, no load of a ROM beside a BUSY engine. -/
theorem Cluster.stepAt_some (h : c.stepAt k = some d) :
    ∃ s t, c.engines[k]? = some s ∧ (loadsRom s = false ∨ c.anyBusy = false) ∧ step s = .next t ∧
      d = c.moved k t := by
  unfold stepAt at h
  split at h
  · cases h
  · rename_i s hs
    split at h
    · cases h
    · rename_i hload
      split at h
      · rename_i t hstep
        cases h
        exact ⟨s, t, hs, Bool.and_eq_false_iff.1 (Bool.eq_false_of_not_eq_true hload), hstep, rfl⟩
      · cases h
      · cases h

end

/-- Settles O50: the step is the engine's own, and the others are moved to the ROM behind it. -/
theorem enginesShareRom : Obligations.EnginesShareRom := by
  intro rom c k s t hshare hs hstep
  refine ⟨Cluster.stepAt_load hs, fun hload => ⟨t.rom, c.moved k t, Cluster.stepAt_next hs hload hstep,
    Cluster.moved_shares hs, Cluster.moved_self hs, fun j hj => Cluster.moved_other hj, fun hnone => ?_⟩⟩
  rw [step_keepsRom hnone hstep]
  exact hshare.2 s (List.mem_of_getElem? hs)

theorem Cluster.anyBusy_of_engine {k : Nat} {s : State} {c : Cluster} (hs : c.engines[k]? = some s)
    (hbusy : s.ctrl = .busy) : c.anyBusy = true :=
  List.any_eq_true.2 ⟨s, List.mem_of_getElem? hs, beq_iff_eq.2 hbusy⟩

theorem observe_setRom (m : Rom) (s : State) : observe (setRom m s) = observe s := rfl

theorem observe_busy {s : State} (h : s.ctrl = .busy) : observe s = none := by
  simp only [observe, h]

theorem step_noCommand_notBusy {s : State} (hhost : s.host = []) (hbusy : s.ctrl ≠ .busy) : step s = .next s := by
  rw [step_engineTurn_notBusy (.inl hhost) hbusy, takeCommand_of_noCommand hhost]

/-- The engine's own steps give its host no commands (10_state.md R20). -/
theorem step_keepsNoCommand {s u : State} (hhost : s.host = []) (h : step s = .next u) : u.host = [] := by
  rcases step_cases s with ⟨-, e⟩ | ⟨i, -, e⟩ | ⟨f, -, e⟩ | ⟨op, hop, -⟩ | ⟨r, -, e⟩
  · cases e.symm.trans h
    rw [takeCommand, hhost]
    rfl
  · obtain ⟨-, -, -, hkeep, -⟩ := exec_keepsInputs (e.symm.trans h)
    rw [hkeep, takeCommand, hhost]
    rfl
  · cases e.symm.trans h
    rw [takeFault_host, takeCommand, hhost]
    rfl
  · exact absurd (fetch_engineTurn (.inl hhost) ▸ hop) (fetchStep_ne_access s op)
  · cases e.symm.trans h

/-- An engine left alone that is not BUSY has ended, if it ends at all. -/
theorem EndsWithin.observe_notBusy {s : State} {n : Nat} {r : DecodeResult} (h : EndsWithin s n r) (hhost : s.host = [])
    (hbusy : s.ctrl ≠ .busy) : observe s = some r := by
  obtain ⟨k, t, -, hrun, hobs⟩ := h
  cases (runSteps_ended hhost hbusy k).symm.trans hrun
  exact hobs

/-- A step of an engine left alone brings it one step nearer to its end, or leaves it there. -/
theorem EndsWithin.next {s u : State} {n : Nat} {r : DecodeResult} (h : EndsWithin s n r) (hhost : s.host = [])
    (hstep : step s = .next u) : EndsWithin u (n - 1) r := by
  by_cases hbusy : s.ctrl = .busy
  · obtain ⟨k, t, hk, hrun, hobs⟩ := h
    cases k with
    | zero =>
      cases hrun
      cases (observe_busy hbusy).symm.trans hobs
    | succ k =>
      rw [runSteps, hstep] at hrun
      exact ⟨k, t, by omega, hrun, hobs⟩
  · have hended := h.observe_notBusy hhost hbusy
    cases (step_noCommand_notBusy hhost hbusy).symm.trans hstep
    exact endsWithin_observed hended

/-- While an engine is BUSY no step of another changes its ROM; once it has stopped, its result no longer depends on it
(20_memory.md R51, R63). -/
theorem EndsWithin.moved {j k : Nat} {s v t : State} {c : Cluster} {n : Nat} {r : DecodeResult} (h : EndsWithin s n r)
    (hhost : s.host = []) (hshare : c.shares s.rom) (hs : c.engines[k]? = some s) (hv : c.engines[j]? = some v)
    (hload : loadsRom v = false ∨ c.anyBusy = false) (hstep : step v = .next t) : EndsWithin (setRom t.rom s) n r := by
  by_cases hbusy : s.ctrl = .busy
  · have hnone : loadsRom v = false := by
      rcases hload with hnone | hidle
      · exact hnone
      · cases hidle.symm.trans (Cluster.anyBusy_of_engine hs hbusy)
    rw [step_keepsRom hnone hstep, hshare.2 v (List.mem_of_getElem? hv), setRom_own]
    exact h
  · exact endsWithin_observed ((observe_setRom t.rom s).trans (h.observe_notBusy hhost hbusy))

/-- An engine whose host issues no more commands ends as it does alone, in any order of the system's steps that gives it
enough of them. -/
theorem Cluster.runOrder_endsWithin {k : Nat} {r : DecodeResult} {order : List Nat} :
    ∀ {c d : Cluster} {s : State} {n : Nat}, c.shares s.rom → c.engines[k]? = some s → s.host = [] →
      EndsWithin s n r → n ≤ order.count k → c.runOrder order = some d →
      ∃ u, d.engines[k]? = some u ∧ observe u = some r := by
  induction order with
  | nil =>
    intro c d s n _ hs _ hends hn hd
    obtain ⟨m, t, hm, hrun, hobs⟩ := hends
    obtain rfl : m = 0 := Nat.le_zero.1 (hm.trans hn)
    cases hrun
    cases hd
    exact ⟨s, hs, hobs⟩
  | cons j order ih =>
    intro c d s n hshare hs hhost hends hn hd
    obtain ⟨c', hc', hd⟩ := Option.bind_eq_some_iff.1 hd
    obtain ⟨v, t, hv, hload, hstep, rfl⟩ := Cluster.stepAt_some hc'
    by_cases hj : j = k
    · subst hj
      cases hs.symm.trans hv
      rw [List.count_cons_self] at hn
      exact ih (Cluster.moved_shares hv) (Cluster.moved_self hv) (step_keepsNoCommand hhost hstep)
        (hends.next hhost hstep) (by omega) hd
    · rw [List.count_cons_of_ne hj] at hn
      have hother : (c.moved j t).engines[k]? = some (setRom t.rom s) := by
        rw [Cluster.moved_other (Ne.symm hj), hs]
        rfl
      have hnew : (c.moved j t).shares (setRom t.rom s).rom := Cluster.moved_shares hv
      exact ih hnew hother hhost (hends.moved hhost hshare hs hv hload hstep) hn hd

/-- Settles O60: START leaves engine `k` alone with a decode that ends with the block result, and from there the order
of the other engines' steps does not matter. -/
theorem engineDecodesAlone : Obligations.EngineDecodesAlone := by
  intro rom c d k order s base w hshare hs hstarted hd hcount
  obtain rfl : s.rom = rom := hshare.2 s (List.mem_of_getElem? hs)
  obtain ⟨u, hstep, hhost, -, hends⟩ := started_endsWithin hstarted
  obtain ⟨c', hc', hd⟩ := Option.bind_eq_some_iff.1 hd
  obtain ⟨v, t, hv, -, ht, rfl⟩ := Cluster.stepAt_some hc'
  cases hs.symm.trans hv
  cases hstep.symm.trans ht
  have hn : s.rom.len + 514 ≤ order.count k := by
    have hbound : decodeSteps s.rom = 1 + (s.rom.len + 514) := rfl
    rw [List.count_cons_self, hbound, Nat.add_comm 1] at hcount
    exact Nat.le_of_add_le_add_right hcount
  exact Cluster.runOrder_endsWithin (Cluster.moved_shares hs) (Cluster.moved_self hs) hhost hends hn hd

end Sys2Proof.Machine
end

section
/-! PROOFS. The obligations of 30_encoding.md: decoding and encoding of every format agree (R71 to R86), the classes of
entry words and command bytes (R81, R92), the sign extension of 24 bits (R74), the pseudo-instructions FILL and COPY
(R91), and the step that performs the unit read (R92, R108). -/

namespace Sys2Proof.Machine

/-! ### A unit read back from its encoding -/

/-- The two fields' bits in a row are the word's (30_encoding.md R71). -/
theorem bitsOf_entryWord (m : Byte) (raw : BitVec 24) :
    bitsOf 32 (entryWord m raw).toNat = bitsOf 8 m.toNat ++ bitsOf 24 raw.toNat := by
  have hlen : (bitsOf 8 m.toNat ++ bitsOf 24 raw.toNat).length = 32 := by simp
  have hlt := natOfBits_lt (bitsOf 8 m.toNat ++ bitsOf 24 raw.toNat)
  rw [hlen] at hlt
  rw [← ofNat_entryBits, BitVec.toNat_ofNat, Nat.mod_eq_of_lt hlt, bitsOf_natOfBits_of_length hlen]

/-- Whatever its class, an entry word's unit is encoded as that word (30_encoding.md R92). -/
theorem encode_decodeEntry (w : Word) : encode (decodeEntry w) = bitsOf 32 w.toNat := by
  have hfields := bitsOf_entryWord (entryMode w) (entryRaw w)
  rw [entryWord_fields] at hfields
  rcases entryClass w with hbad | rfl | ⟨hm, hr⟩ | hm | hm
  · rw [decodeEntry_bad hbad, hfields]; rfl
  · rfl
  · rw [decodeEntry_neg hm hr, hfields, hm]; rfl
  · rw [decodeEntry_rle hm, hfields, hm]; rfl
  · rw [decodeEntry_bitpack hm, hfields, hm]; rfl

theorem decodeEntry_entryWord_neg {raw : BitVec 24} (h : raw ≠ 0) : decodeEntry (entryWord 0 raw) = .entNeg raw := by
  simpa using decodeEntry_neg (w := entryWord 0 raw) (entryMode_entryWord 0 raw) (by rwa [entryRaw_entryWord])

theorem decodeEntry_entryWord_rle (raw : BitVec 24) : decodeEntry (entryWord 1 raw) = .entRle raw := by
  simpa using decodeEntry_rle (w := entryWord 1 raw)

theorem decodeEntry_entryWord_bitpack (raw : BitVec 24) : decodeEntry (entryWord 2 raw) = .entBitpack raw := by
  simpa using decodeEntry_bitpack (w := entryWord 2 raw)

theorem decodeEntry_entryWord_bad {m : Byte} (raw : BitVec 24) (h : 3 ≤ m.toNat) :
    decodeEntry (entryWord m raw) = .entBadMode m raw := by
  simpa [h] using decodeEntry_bad (w := entryWord m raw)

/-- A unit that some entry word stands for is read back from its encoding. -/
theorem decode_encode_of_decodeEntry {w : Word} {i : Instr} (h : decodeEntry w = i) (rest : List Bool) :
    decode .entry32 (encode i ++ rest) = .ok (i, rest) := by
  rw [← h, encode_decodeEntry, decode_entry32 (bitsOf_length 32 _), ofNat_natOfBits_bitsOf]

/-- A unit that some command byte stands for is read back from its encoding. -/
theorem decode_encode_of_decodeCmd {c : Byte} {i : Instr} (h : decodeCmd c = i) (rest : List Bool) :
    decode .cmd8 (encode i ++ rest) = .ok (i, rest) := by
  rw [← h, encode_decodeCmd, decode_cmd8 (bitsOfByte_length c), byteOfBits_bitsOfByte]

/-- Settles O1: an entry word's or a command byte's unit is some word's or byte's own; the others are read field by
field. -/
theorem encodedUnitsDecode : Obligations.EncodedUnitsDecode := by
  intro i rest hwf
  cases i with
  | entZero => exact decode_encode_of_decodeEntry decodeEntry_zero rest
  | entNeg raw => exact decode_encode_of_decodeEntry (decodeEntry_entryWord_neg (bne_iff_ne.1 hwf)) rest
  | entRle raw => exact decode_encode_of_decodeEntry (decodeEntry_entryWord_rle raw) rest
  | entBitpack raw => exact decode_encode_of_decodeEntry (decodeEntry_entryWord_bitpack raw) rest
  | entBadMode m raw =>
    exact decode_encode_of_decodeEntry (decodeEntry_entryWord_bad raw (of_decide_eq_true hwf)) rest
  | negByte b => exact (decode_raw8 (bitsOfByte_length b)).trans (by rw [byteOfBits_bitsOfByte])
  | rleLit c => exact decode_encode_of_decodeCmd (decodeCmd_lit (of_decide_eq_true hwf)) rest
  | rleNop => exact decode_encode_of_decodeCmd decodeCmd_nop rest
  | rleRep c => exact decode_encode_of_decodeCmd (decodeCmd_rep (of_decide_eq_true hwf)) rest
  | dictLoad d => exact decode_dict16 d rest
  | m2Hit k => exact (decode_hit (bitsOf_length 4 k.toNat)).trans (by rw [ofNat_natOfBits_bitsOf])
  | m2Lit b => exact (decode_lit (bitsOfByte_length b)).trans (by rw [byteOfBits_bitsOfByte])

/-! ### What decodes -/

theorem decodeEntry_wellFormed (w : Word) : (decodeEntry w).WellFormed := by
  rcases entryClass w with hbad | rfl | ⟨hm, hr⟩ | hm | hm
  · rw [decodeEntry_bad hbad]
    exact decide_eq_true hbad
  · rfl
  · rw [decodeEntry_neg hm hr]
    exact bne_iff_ne.2 hr
  · rw [decodeEntry_rle hm]; rfl
  · rw [decodeEntry_bitpack hm]; rfl

/-- A decoder that reads exactly `n` bits succeeds on a list that begins with them. -/
theorem fixedLength_ok {n : Nat} {bits rest : List Bool} {u i : Instr}
    (h : (if n ≤ bits.length then .ok (u, bits.drop n) else .error .truncated : Except DecodeError _) = .ok (i, rest)) :
    i = u ∧ n ≤ bits.length ∧ bits.take n ++ rest = bits := by
  split at h
  · cases h
    exact ⟨rfl, by assumption, List.take_append_drop n bits⟩
  · cases h

/-- Settles O2, format by format: the bits read are the encoding of the unit they gave. -/
theorem decodedUnitsReencode : Obligations.DecodedUnitsReencode := by
  intro f bits rest i h
  cases f with
  | entry32 =>
    obtain ⟨rfl, hlen, hbits⟩ := fixedLength_ok h
    have htake : (bits.take 32).length = 32 := by simpa using hlen
    have hlt := natOfBits_lt (bits.take 32)
    rw [htake] at hlt
    refine ⟨decodeEntry_wellFormed _, decodeEntry_format _, ?_⟩
    rw [encode_decodeEntry, BitVec.toNat_ofNat, Nat.mod_eq_of_lt hlt, bitsOf_natOfBits_of_length htake, hbits]
  | raw8 =>
    obtain ⟨rfl, hlen, hbits⟩ := fixedLength_ok h
    exact ⟨rfl, rfl, by rw [encode, bitsOfByte_byteOfBits (by simpa using hlen), hbits]⟩
  | cmd8 =>
    obtain ⟨rfl, hlen, hbits⟩ := fixedLength_ok h
    refine ⟨decodeCmd_wellFormed _, decodeCmd_format _, ?_⟩
    rw [encode_decodeCmd, bitsOfByte_byteOfBits (by simpa using hlen), hbits]
  | dict16 =>
    obtain ⟨rfl, hlen, hbits⟩ := fixedLength_ok h
    exact ⟨rfl, rfl, (congrArg (· ++ rest) (bitsOfBytes_bytesOfBits hlen)).trans hbits⟩
  | code =>
    obtain ⟨flag, l, rfl, -, -, hdec⟩ := decode_code_flag h
    obtain ⟨hwf, hfmt, henc⟩ := decode_code_encode hdec
    exact ⟨hwf, hfmt, by rw [henc, List.cons_append]⟩

/-! ### The classes of entry words and command bytes -/

/-- Settles O5, by the laws of the fields and of each class. -/
theorem entryWordsClassified : Obligations.EntryWordsClassified := fun w =>
  ⟨entryMode_toNat w, entryRaw_toNat w, decodeEntry_bad, fun h => h ▸ decodeEntry_zero, decodeEntry_neg, decodeEntry_rle,
    decodeEntry_bitpack⟩

theorem decodeCmd_eq_lit_iff (c : Byte) : decodeCmd c = .rleLit c ↔ c.toNat ≤ 0x7F := by
  refine ⟨fun h => ?_, decodeCmd_lit⟩
  rcases cmdClass c with hlit | rfl | hrep
  · exact hlit
  · cases h
  · cases (decodeCmd_rep hrep).symm.trans h

theorem decodeCmd_eq_nop_iff (c : Byte) : decodeCmd c = .rleNop ↔ c.toNat = 0x80 := by
  rcases cmdClass c with hlit | rfl | hrep
  · exact iff_of_false (by rw [decodeCmd_lit hlit]; nofun) (by omega)
  · exact iff_of_true decodeCmd_nop rfl
  · exact iff_of_false (by rw [decodeCmd_rep hrep]; nofun) (by omega)

theorem decodeCmd_eq_rep_iff (c : Byte) : decodeCmd c = .rleRep c ↔ 0x81 ≤ c.toNat := by
  refine ⟨fun h => ?_, decodeCmd_rep⟩
  rcases cmdClass c with hlit | rfl | hrep
  · cases (decodeCmd_lit hlit).symm.trans h
  · cases h
  · exact hrep

theorem countP_range_interval (lo hi n : Nat) :
    ((List.range n).countP fun k => decide (lo ≤ k ∧ k < hi)) = min hi n - lo := by
  induction n with
  | zero => simp
  | succ n ih =>
    rw [List.range_succ, List.countP_append, ih, List.countP_singleton]
    simp only [decide_eq_true_iff]
    split <;> omega

/-- A class of command bytes that is the interval from `lo` up to `hi` has `hi - lo` members. -/
theorem countP_decodeCmd (u : Byte → Instr) {lo hi : Nat} (hhi : hi ≤ 256)
    (h : ∀ c : Byte, decodeCmd c = u c ↔ lo ≤ c.toNat ∧ c.toNat < hi) :
    ((List.range 256).countP fun n => decide (decodeCmd (BitVec.ofNat 8 n) = u (BitVec.ofNat 8 n))) = hi - lo := by
  rw [← Nat.min_eq_left hhi, ← countP_range_interval]
  refine List.countP_congr fun n hn => ?_
  have hnum : (BitVec.ofNat 8 n).toNat = n := Nat.mod_eq_of_lt (List.mem_range.1 hn)
  rw [decide_eq_true_iff, decide_eq_true_iff, h, hnum]

/-- Settles O4: each class is an interval of byte values, which gives its count. -/
theorem commandBytesClassified : Obligations.CommandBytesClassified :=
  ⟨fun _ => ⟨decodeCmd_lit, fun h => h ▸ decodeCmd_nop, decodeCmd_rep⟩,
    countP_decodeCmd .rleLit (lo := 0) (hi := 0x80) (by decide) fun c => (decodeCmd_eq_lit_iff c).trans (by omega),
    countP_decodeCmd (fun _ => .rleNop) (lo := 0x80) (hi := 0x81) (by decide) fun c =>
      (decodeCmd_eq_nop_iff c).trans (by omega),
    countP_decodeCmd .rleRep (lo := 0x81) (hi := 0x100) (by decide) fun c =>
      (decodeCmd_eq_rep_iff c).trans (by have := c.isLt; omega)⟩

/-- Settles O3: each word or bit pattern is in the class of its unit, with the unit's fields. -/
theorem specWordsDecode : Obligations.SpecWordsDecode :=
  ⟨decodeEntry_zero, decodeEntry_neg rfl (by decide), decodeEntry_rle rfl, decodeEntry_bitpack rfl,
    decodeEntry_bad (by decide), decodeCmd_lit (by decide), decodeCmd_nop, decodeCmd_rep (by decide),
    decode_raw8 (l := bitsOfByte 0xAA) (rest := []) rfl,
    decode_hit (l := bitsOf 4 5) (rest := []) rfl, decode_lit (l := bitsOfByte 0x5A) (rest := []) rfl⟩

/-! ### Sign extension (30_encoding.md R74) -/

theorem sext24_of_lt {v : BitVec 24} (h : v.toNat < 0x800000) : sext24 v = v.toNat := if_pos h

theorem sext24_of_ge {v : BitVec 24} (h : 0x800000 ≤ v.toNat) : sext24 v = v.toNat - 0x1000000 := if_neg (by omega)

/-- The sign extension is the field modulo `2^24`. -/
theorem sext24_emod (v : BitVec 24) : sext24 v % 0x1000000 = v.toNat := by
  have := v.isLt
  by_cases h : v.toNat < 0x800000
  · rw [sext24_of_lt h]; omega
  · rw [sext24_of_ge (by omega)]; omega

theorem sext24_injective {u v : BitVec 24} (h : sext24 u = sext24 v) : u = v := by
  have := (sext24_emod u).symm.trans ((congrArg (· % 0x1000000) h).trans (sext24_emod v))
  exact BitVec.eq_of_toNat_eq (Int.ofNat_inj.1 this)

/-- Every number of the range is the extension of its residue modulo `2^24`. -/
theorem sext24_ofInt {x : Int} (hlo : -8388608 ≤ x) (hhi : x ≤ 8388607) : sext24 (BitVec.ofInt 24 x) = x := by
  have hmod := sext24_emod (BitVec.ofInt 24 x)
  have hrange := sext24_range (BitVec.ofInt 24 x)
  rw [BitVec.toNat_ofInt] at hmod
  omega

/-- Bit 23 tells the two cases apart. -/
theorem sext24_eq_sub_signBit (v : BitVec 24) :
    sext24 v = (v.toNat : Int) - (if v.getLsbD 23 then 2 ^ 24 else 0) := by
  have hbit : v.getLsbD 23 = decide (2 ^ 23 ≤ v.toNat) := BitVec.msb_eq_decide v
  by_cases h : v.toNat < 0x800000
  · rw [sext24_of_lt h, hbit, if_neg (by simpa using h), Int.sub_zero]
  · rw [sext24_of_ge (by omega), hbit, if_pos (by simpa using h)]
    rfl

/-- Settles O6: the two cases give the residue modulo `2^24`, and it the bijection. -/
theorem signExtensionOf24Bits : Obligations.SignExtensionOf24Bits :=
  ⟨fun _ => sext24_of_lt, fun _ => sext24_of_ge, sext24_range, fun _ _ => sext24_injective,
    fun x hlo hhi => ⟨BitVec.ofInt 24 x, sext24_ofInt hlo hhi⟩, sext24_zero_iff, sext24_eq_sub_signBit, rfl, rfl⟩

/-! ### Pseudo-instructions (30_encoding.md R91) -/

/-- A line is a mode-1 command in its range (30_encoding.md R90). -/
def CommandInRange (l : AsmLine) : Prop :=
  ∃ bs, commandBytes l = some bs

theorem commandInRange_lit {bs : List Byte} (hlo : 1 ≤ bs.length) (hhi : bs.length ≤ 128) : CommandInRange (.lit bs) :=
  ⟨_, if_pos ⟨hlo, hhi⟩⟩

theorem commandInRange_rep {len : Nat} (hlo : 2 ≤ len) (hhi : len ≤ 128) (v : Byte) : CommandInRange (.rep len v) :=
  ⟨_, if_pos ⟨hlo, hhi⟩⟩

/-- A stream of lines that are all in range has its bytes. -/
theorem streamBytes_of_inRange {ls : List AsmLine} (h : ∀ l ∈ ls, CommandInRange l) :
    ∃ bytes, streamBytes ls = some bytes := by
  induction ls with
  | nil => exact ⟨[], rfl⟩
  | cons l ls ih =>
    obtain ⟨bs, hbs⟩ := h l List.mem_cons_self
    obtain ⟨rest, hrest⟩ := ih fun k hk => h k (List.mem_cons_of_mem l hk)
    exact ⟨bs ++ rest, by rw [streamBytes, hbs, hrest]⟩

/-- The rest of a FILL is fewer than 128 bytes: a repeat, a literal of one byte, or nothing. -/
theorem fillRest_cases (r : Nat) (v : Byte) : (2 ≤ r ∧ fillRest r v = [.rep r v]) ∨
    (r = 1 ∧ fillRest r v = [.lit [v]]) ∨ (r = 0 ∧ fillRest r v = []) := by
  unfold fillRest
  split
  · exact .inl ⟨by assumption, rfl⟩
  · split
    · exact .inr (.inl ⟨by assumption, rfl⟩)
    · exact .inr (.inr ⟨by omega, rfl⟩)

theorem fillRest_run (r : Nat) (v : Byte) : (fillRest r v).flatMap commandRun = List.replicate r v := by
  rcases fillRest_cases r v with ⟨-, e⟩ | ⟨rfl, e⟩ | ⟨rfl, e⟩ <;> rw [e]
  · exact List.append_nil _
  · rfl
  · rfl

theorem fillRest_inRange {r : Nat} (hr : r ≤ 128) (v : Byte) : ∀ l ∈ fillRest r v, CommandInRange l := by
  rcases fillRest_cases r v with ⟨h2, e⟩ | ⟨-, e⟩ | ⟨-, e⟩ <;> rw [e]
  · simpa using commandInRange_rep h2 hr v
  · simpa using commandInRange_lit (bs := [v]) (by simp) (by simp)
  · simp

/-- The lines of a COPY stand for its bytes, where the fuel is enough for them. -/
theorem copyLines_run {fuel : Nat} {bs : List Byte} (h : bs.length ≤ fuel) :
    (copyLines fuel bs).flatMap commandRun = bs := by
  induction fuel generalizing bs with
  | zero => exact (List.length_eq_zero_iff.1 (Nat.le_zero.1 h)).symm
  | succ fuel ih =>
    cases bs with
    | nil => rfl
    | cons b bs =>
      have hdrop : ((b :: bs).drop 128).length ≤ fuel := by simp only [List.length_drop, List.length_cons] at h ⊢; omega
      rw [copyLines, List.flatMap_cons, ih hdrop]
      exact List.take_append_drop 128 (b :: bs)

theorem copyLines_inRange (fuel : Nat) (bs : List Byte) : ∀ l ∈ copyLines fuel bs, CommandInRange l := by
  induction fuel generalizing bs with
  | zero => exact nofun
  | succ fuel ih =>
    cases bs with
    | nil => exact nofun
    | cons b bs =>
      rw [copyLines, List.forall_mem_cons]
      exact ⟨commandInRange_lit (by simp) (by simp), ih _⟩

/-- Settles O59: whole repeats of 128 and the rest make up a FILL, literals of 128 a COPY. -/
theorem pseudoInstructionsExpand : Obligations.PseudoInstructionsExpand := by
  refine ⟨fun len v hlo hhi => ⟨_, if_pos ⟨hlo, hhi⟩, ?_, streamBytes_of_inRange fun l hl => ?_⟩,
    fun bs => ⟨_, rfl, copyLines_run le_rfl, streamBytes_of_inRange (copyLines_inRange _ bs)⟩⟩
  · calc (List.replicate (len / 128) (AsmLine.rep 128 v) ++ fillRest (len % 128) v).flatMap commandRun
        = List.replicate (len / 128 * 128) v ++ List.replicate (len % 128) v := by
          rw [List.flatMap_append, fillRest_run, List.flatMap_replicate, commandRun, List.flatten_replicate_replicate]
      _ = List.replicate len v := by rw [List.replicate_append_replicate, Nat.div_add_mod']
  · rcases List.mem_append.1 hl with hrep | hrest
    · rw [List.eq_of_mem_replicate hrep]
      exact commandInRange_rep (by omega) le_rfl v
    · exact fillRest_inRange (by omega) v l hrest

/-! ### The step -/

theorem step_of_unit {s : State} {i : Instr} (h : fetch s = .unit i) : step s = exec i (takeCommand s) := by
  rw [step, h]

theorem step_of_access {s : State} {op : PortOp} (h : fetch s = .access op) :
    step s = hostAccess op (takeCommand s) := by
  rw [step, h]

theorem fetch_start {s : State} {w : Word} {q : List HostCmd} (hhost : s.host = .start :: q) (hentry : s.entry = some w) :
    fetch s = .unit (decodeEntry w) := by
  simp only [fetch, hhost, fetchEntry, hentry]

theorem fetch_port {s : State} {op : PortOp} {q : List HostCmd} (hhost : s.host = .port op :: q) :
    fetch s = .access op := by
  simp only [fetch, hhost]

theorem takeCommand_of_cons {s : State} {c : HostCmd} {q : List HostCmd} (hhost : s.host = c :: q) :
    takeCommand s = { s with host := q } := by
  rw [takeCommand, hhost, List.tail_cons]

/-- Settles O32, by what is fetched on each kind of turn. -/
theorem stepRunsDecodedUnit : Obligations.StepRunsDecodedUnit :=
  ⟨fun _ _ => step_of_unit,
    fun _ _ _ hhost hentry => takeCommand_of_cons hhost ▸ step_of_unit (fetch_start hhost hentry),
    fun _ => fetch_engineTurn,
    fun _ _ _ hhost => takeCommand_of_cons hhost ▸ step_of_access (fetch_port hhost)⟩

end Sys2Proof.Machine
end

section
/-! PROOFS. The obligations of 40_entry_resolve.md: START and entry resolution (R100 to R112), the step that MODE and
DICT_VALID select (R108), and the decode as a whole: its end within the bounds of R110, and its block result. -/

namespace Sys2Proof.Machine

/-! ### A decode from START to its end (R110) -/

/-- The first step of a started decode is the resolution of its entry word, with no command of the host behind it. -/
theorem step_started {s : State} {base : Nat} {w : Word} (h : Started s base w) :
    (takeCommand s).host = [] ∧ step s = .next (resolve (entryMode w) (entryRaw w) base (takeCommand s)) := by
  obtain ⟨hhost, hfree, hentry, hbase⟩ := h
  have hready : StartReady (takeCommand s) base := ⟨hfree, by rw [takeCommand, hentry]; nofun, hbase⟩
  exact ⟨by rw [takeCommand, hhost]; rfl,
    (step_of_unit (fetch_start hhost hentry)).trans ((exec_decodeEntry w _).trans (start_ready hready _ _))⟩

theorem ended_of_observe {s : State} {r : DecodeResult} (h : observe s = some r) :
    s.ctrl = .done ∨ s.ctrl = .fault := by
  cases hc : s.ctrl with
  | idle => simp [observe, hc] at h
  | busy => simp [observe, hc] at h
  | done => exact .inl rfl
  | fault => exact .inr rfl

/-- The bound of R110 on the steps of a decode of mode `m` behind START, `left` bytes of the ROM from SRC on. -/
def modeBound (m : Byte) (left : Int) : Nat :=
  if m = 0 then 512 else if m = 1 then (left + 1).toNat else 513

/-- A decode begun inside the ROM ends within the bound of its mode, as the block results of R123, R146 and R175 do. -/
theorem beginDecode_ends {s : State} (hhost : s.host = []) {m : Byte} (hm : m.toNat ≤ 2) {a : Nat} (ha : a < s.rom.len)
    (off : Int) :
    ∃ r, EndsWithin (beginDecode a (acceptStart m off (some (a : Int)) s)) (modeBound m (s.rom.len - a)) r := by
  have hbegun := midDecode_beginDecode hhost a m off
  have hmode : m = 0 ∨ m = 1 ∨ m = 2 := by
    have hval : m.toNat = 0 ∨ m.toNat = 1 ∨ m.toNat = 2 := by omega
    simpa [BitVec.toNat_eq] using hval
  rcases hmode with rfl | rfl | rfl
  · exact ⟨_, negBlock_endsWithin hbegun ha⟩
  · have hbound : s.rom.len - a + 1 ≤ modeBound 1 (s.rom.len - a) := by
      rw [modeBound, if_neg (by decide), if_pos rfl]
      omega
    exact ⟨_, (rleBlock_endsWithin hbegun ha).mono hbound⟩
  · exact ⟨_, packedBlock_endsWithin hbegun rfl ha⟩

/-- START ends at once, or begins a decode that ends within the bound of its mode. -/
theorem resolve_ends {s : State} (hhost : s.host = []) (mode : Byte) (raw : BitVec 24) (base : Nat) :
    ∃ k t, k ≤ modeBound mode (s.rom.len - (base + sext24 raw)) ∧ runSteps k (resolve mode raw base s) = some t ∧
      (t.ctrl = .done ∨ t.ctrl = .fault) := by
  rcases resolve_cases mode raw base s with ⟨-, e⟩ | ⟨-, -, e⟩ | ⟨-, -, -, e⟩ | ⟨hm, -, hge, hlt, e⟩ <;> rw [e]
  · exact ⟨0, _, Nat.zero_le _, rfl, .inr rfl⟩
  · exact ⟨0, _, Nat.zero_le _, rfl, .inl rfl⟩
  · exact ⟨0, _, Nat.zero_le _, rfl, .inr rfl⟩
  · obtain ⟨a, ha⟩ := Int.eq_ofNat_of_zero_le hge
    rw [ha] at hlt ⊢
    obtain ⟨r, k, t, hk, hrun, hobs⟩ := beginDecode_ends hhost hm (Int.ofNat_lt.1 hlt) (sext24 raw)
    exact ⟨k, t, hk, hrun, ended_of_observe hobs⟩

/-- Settles O57: the step of START, and behind it the decode of each mode within its own bound. -/
theorem everyDecodeEnds : Obligations.EveryDecodeEnds := by
  intro s base w hstarted
  obtain ⟨hhost, hstep⟩ := step_started hstarted
  obtain ⟨k, t, hk, hrun, hended⟩ := resolve_ends hhost (entryMode w) (entryRaw w) base
  refine ⟨k, t, ?_, hended, hk⟩
  rw [Nat.add_comm, runSteps, hstep]
  exact hrun

theorem runSteps_keepsNoCommand {n : Nat} : ∀ {s t : State}, s.host = [] → runSteps n s = some t → t.host = [] := by
  induction n with
  | zero =>
    intro s t hhost h
    cases h
    exact hhost
  | succ n ih =>
    intro s t hhost h
    rw [runSteps] at h
    split at h
    · rename_i u hstep
      exact ih (step_keepsNoCommand hhost hstep) h
    · cases h
    · cases h

/-- A decode that ends within `n` steps shows its result after `n` steps, since the machine that has ended waits (log 6,
log 23). -/
theorem EndsWithin.runSteps_observe {s : State} {n : Nat} {r : DecodeResult} (h : EndsWithin s n r)
    (hhost : s.host = []) : ∃ t, runSteps n s = some t ∧ observe t = some r := by
  obtain ⟨k, t, hk, hrun, hobs⟩ := h
  have hended : t.ctrl ≠ .busy := fun hbusy => nomatch (observe_busy hbusy).symm.trans hobs
  refine ⟨t, ?_, hobs⟩
  rw [← Nat.add_sub_cancel' hk, runSteps_add, hrun]
  exact runSteps_ended (runSteps_keepsNoCommand hhost hrun) hended (n - k)

theorem booted_started (rom : Rom) (base : Nat) (w : Word) : Started (booted rom base w) base w :=
  ⟨rfl, nofun, rfl, rfl⟩

/-- Settles O58: the booted machine is started, its decode ends with the block result, and the steps left over change
nothing. -/
theorem decodeIsBlockResult : Obligations.DecodeIsBlockResult := by
  intro rom base w
  obtain ⟨u, hstep, hhost, -, hends⟩ := started_endsWithin (booted_started rom base w)
  obtain ⟨t, hrun, hobs⟩ := hends.runSteps_observe hhost
  have hall : runSteps (decodeSteps rom) (booted rom base w) = some t := by
    rw [decodeSteps, Nat.add_comm, runSteps, hstep]
    exact hrun
  rw [decodeBlock, hall]
  exact hobs

/-! ### START's legality (R100) -/

theorem start_busy {s : State} (h : s.ctrl = .busy) (mode : Byte) (raw : BitVec 24) :
    start mode raw s = .refused .startWhileBusy := if_pos h

theorem start_noEntry {s : State} (hfree : s.ctrl ≠ .busy) (hentry : s.entry = none) (mode : Byte) (raw : BitVec 24) :
    start mode raw s = .refused (.startWithoutInput .entry) := by
  rw [start, if_neg hfree, if_pos hentry]

theorem start_noDataBase {s : State} (hfree : s.ctrl ≠ .busy) (hentry : s.entry ≠ none) (hbase : s.dataBase = none)
    (mode : Byte) (raw : BitVec 24) : start mode raw s = .refused (.startWithoutInput .dataBase) := by
  rw [start, if_neg hfree, if_neg hentry, hbase]

theorem step_start_noEntry {s : State} (hhost : s.host.head? = some .start) (hentry : s.entry = none) :
    step s = .refused (.startWithoutInput .entry) := by
  obtain ⟨q, hq⟩ := host_of_head hhost
  have hfetch : fetch s = .refused (.startWithoutInput .entry) := by simp only [fetch, hq, fetchEntry, hentry]
  rw [step, hfetch]

/-- Settles O11: the checks of START in their order, each before the resolution. -/
theorem startRefusedWhereIllegal : Obligations.StartRefusedWhereIllegal := by
  intro i s hi
  obtain ⟨mode, raw, hstart⟩ := exec_entry_eq_start hi
  rw [hstart]
  exact ⟨fun hbusy => start_busy hbusy mode raw, fun hfree hentry => start_noEntry hfree hentry mode raw,
    fun hfree hentry hbase => start_noDataBase hfree hentry hbase mode raw, step_start_noEntry⟩

/-! ### Independence of an earlier decode (R111) -/

section
variable {s₁ s₂ : State}

/-- From states with the same inputs START is refused for the same want of an input. -/
theorem start_refused_of_keepsInputs (hfree₁ : s₁.ctrl ≠ .busy) (hfree₂ : s₂.ctrl ≠ .busy) (hkeep : KeepsInputs s₁ s₂)
    {mode : Byte} {raw : BitVec 24} {r : Refusal} (h : start mode raw s₁ = .refused r) :
    start mode raw s₂ = .refused r := by
  obtain ⟨-, hentry, hbase, -, -⟩ := hkeep
  by_cases he : s₁.entry = none
  · rw [start_noEntry hfree₂ (hentry.trans he), ← h, start_noEntry hfree₁ he]
  · cases hb : s₁.dataBase with
    | none => rw [start_noDataBase hfree₂ (hentry ▸ he) (hbase.trans hb), ← h, start_noDataBase hfree₁ he hb]
    | some base => cases (start_ready ⟨hfree₁, he, hb⟩ mode raw).symm.trans h

/-- What the clearing leaves is the inputs and STATE, and the zero block writes STATE. -/
theorem zeroBlock_of_keepsInputs (hkeep : KeepsInputs s₁ s₂) (mode : Byte) (off : Int) (src : Option Int) :
    zeroBlock (acceptStart mode off src s₂) = zeroBlock (acceptStart mode off src s₁) := by
  obtain ⟨hrom, hentry, hbase, hhost, hdata⟩ := hkeep
  simp only [zeroBlock, acceptStart, setResolution, clearForStart, hrom, hentry, hbase, hhost, hdata]

/-- What the clearing leaves is the inputs and STATE, and the beginning of a decode writes STATE. -/
theorem beginDecode_of_keepsInputs (hkeep : KeepsInputs s₁ s₂) (a : Int) (mode : Byte) (off : Int) (src : Option Int) :
    beginDecode a (acceptStart mode off src s₂) = beginDecode a (acceptStart mode off src s₁) := by
  obtain ⟨hrom, hentry, hbase, hhost, hdata⟩ := hkeep
  simp only [beginDecode, acceptStart, setResolution, clearForStart, hrom, hentry, hbase, hhost, hdata]

/-- From states with the same inputs the resolution faults alike, or ends in the same state. -/
theorem resolve_of_keepsInputs (hkeep : KeepsInputs s₁ s₂) (mode : Byte) (raw : BitVec 24) (base : Nat) :
    (∃ f src, resolve mode raw base s₁ = faultStart f mode (sext24 raw) src s₁ ∧
      resolve mode raw base s₂ = faultStart f mode (sext24 raw) src s₂) ∨
    resolve mode raw base s₂ = resolve mode raw base s₁ := by
  simp only [resolve, locate, hkeep.1]
  split
  · exact .inl ⟨_, _, rfl, rfl⟩
  · split
    · exact .inr (zeroBlock_of_keepsInputs hkeep ..)
    · split
      · exact .inl ⟨_, _, rfl, rfl⟩
      · exact .inr (beginDecode_of_keepsInputs hkeep ..)

end

/-- Settles O13: START is refused alike, and its resolution faults alike or forgets all but the inputs. -/
theorem startForgetsEarlierDecode : Obligations.StartForgetsEarlierDecode := by
  intro i s₁ s₂ hi hfree₁ hfree₂ hkeep
  obtain ⟨mode, raw, hstart⟩ := exec_entry_eq_start hi
  rw [hstart, hstart]
  refine ⟨fun r => start_refused_of_keepsInputs hfree₁ hfree₂ hkeep, fun t₁ h => ?_⟩
  obtain ⟨base, ⟨-, hentry, hbase⟩, rfl⟩ := start_next h
  have hready : StartReady s₂ base := ⟨hfree₂, hkeep.2.1 ▸ hentry, hkeep.2.2.1.trans hbase⟩
  refine ⟨_, start_ready hready mode raw, ?_⟩
  rcases resolve_of_keepsInputs hkeep mode raw base with ⟨f, src, e₁, e₂⟩ | e
  · rw [e₁, e₂]
    exact ⟨rfl, rfl, ⟨rfl, rfl, rfl⟩, ⟨rfl, rfl, rfl⟩, fun hf => absurd rfl hf⟩
  · rw [e]
    exact ⟨rfl, rfl, ⟨rfl, rfl, rfl⟩, ⟨rfl, rfl, rfl⟩, fun _ => rfl⟩

/-! ### What the resolution gives (R101 to R107, R112) -/

/-- Settles O14: both ends without a fault come behind the mode check, with MODE and OFFSET written. -/
theorem resolvedModeAndOffset : Obligations.ResolvedModeAndOffset := by
  intro s t w h hend
  rw [exec_decodeEntry] at h
  obtain ⟨base, -, rfl⟩ := start_next h
  rcases resolve_cases (entryMode w) (entryRaw w) base s with ⟨-, e⟩ | ⟨hm, -, e⟩ | ⟨-, -, -, e⟩ | ⟨hm, -, -, -, e⟩ <;>
    rw [e] at hend ⊢
  · rcases hend with hend | hend <;> cases hend
  · exact ⟨by rw [hm]; decide, rfl, rfl⟩
  · rcases hend with hend | hend <;> cases hend
  · exact ⟨hm, rfl, rfl⟩

/-- A resolution that passes every check begins the decode (R103 to R107). -/
theorem resolve_inside {mode : Byte} {raw : BitVec 24} {base : Nat} {s : State} (hmode : mode.toNat ≤ 2)
    (hnotZero : ¬(mode = 0 ∧ sext24 raw = 0)) (hge : 0 ≤ base + sext24 raw) (hlt : base + sext24 raw < s.rom.len) :
    resolve mode raw base s = beginDecode (base + sext24 raw)
      (acceptStart mode (sext24 raw) (some (base + sext24 raw)) s) := by
  have hinside : ¬(base + sext24 raw < 0 ∨ (s.rom.len : Int) ≤ base + sext24 raw) := by omega
  rw [resolve, if_neg hmode.not_gt, if_neg hnotZero, locate, if_neg hinside]

/-- Settles O9: each of the three units passes the checks of the resolution. -/
theorem startBeginsDecode : Obligations.StartBeginsDecode := by
  intro i m raw s base hi hwf hready hge hlt
  have hunit : exec i s = start m raw s ∧ m.toNat ≤ 2 ∧ ¬(m = 0 ∧ sext24 raw = 0) := by
    rcases hi with ⟨rfl, rfl⟩ | ⟨rfl, rfl⟩ | ⟨rfl, rfl⟩
    · have hraw : raw ≠ 0 := bne_iff_ne.1 hwf
      exact ⟨rfl, by decide, fun h => hraw ((sext24_zero_iff raw).1 h.2)⟩
    · exact ⟨rfl, by decide, fun h => absurd h.1 (by decide)⟩
    · exact ⟨rfl, by decide, fun h => absurd h.1 (by decide)⟩
  obtain ⟨hexec, hmode, hnotZero⟩ := hunit
  rw [hexec, start_ready hready, resolve_inside hmode hnotZero hge hlt]
  exact ⟨_, rfl, rfl, rfl, rfl, rfl, rfl, rfl, rfl, beginDecode_nothingProduced .., beginDecode_noFaultRecorded ..,
    rfl, rfl, rfl, rfl, rfl⟩

/-! ### The step that MODE and DICT_VALID select (R108) -/

theorem step_of_raise {s : State} {f : FaultInfo} (h : fetch s = .raise f) :
    step s = .next (takeFault f (takeCommand s)) := by
  rw [step, h]

theorem fetch_stepping_neg {s : State} {p : Nat} (h : Stepping .neg s) (hp : s.iptr = some p) :
    fetch s = fetchByte s.rom p .negByte := by
  obtain ⟨m, hm, hk, hbusy⟩ := stepping_mode h
  rw [fetch_engineTurn h.1, fetchStep, if_pos hbusy, hm, fetchNeed_some, hk, hp]
  rfl

theorem fetch_stepping_dictLoad {s : State} {a : Int} (h : Stepping .dictLoad s) (ha : s.src = some a) :
    fetch s = fetchDict s.rom a := by
  obtain ⟨m, hm, hk, hbusy⟩ := stepping_mode h
  rw [fetch_engineTurn h.1, fetchStep, if_pos hbusy, hm, fetchNeed_some, hk, ha]
  rfl

/-- Settles O16, by whether IPTR names a byte. -/
theorem modeZeroStepReads : Obligations.ModeZeroStepReads := by
  intro s p h hp
  have hfetch := fetch_stepping_neg h hp
  refine ⟨fun b hb => step_of_unit ?_, fun hnone => step_of_raise (f := ⟨.outOfBounds, .bytePastEnd, p⟩) ?_⟩
  · rw [hfetch, fetchByte, memRead_ok_iff.2 hb]
  · rw [hfetch, fetchByte, memRead_error_iff.2 ⟨hnone, rfl⟩]

/-- Settles O24, by whether the 16 bytes from SRC up are all the ROM's. -/
theorem dictStepReads : Obligations.DictStepReads := by
  intro s a h ha
  have hfetch := fetch_stepping_dictLoad h ha
  refine ⟨fun d hholds => step_of_unit ?_,
    fun k hk hnone hfirst => step_of_raise (f := ⟨.outOfBounds, .bytePastEnd, a + k⟩) ?_⟩
  · have hread : readBytes s.rom a 16 = .ok d.toList :=
      readBytes_ok_iff.2 ⟨d.length_toList, fun k hk => hholds k (by rwa [d.length_toList])⟩
    rw [hfetch, fetchDict_ok hread]
    rfl
  · rw [hfetch, fetchDict, readBytes_first hk hnone hfirst]

theorem inStep_refused {k : StepKind} {s : State} (h : ¬InStep k s) (body : StepOutcome) :
    inStep k s body = .refused .notEnabled := if_neg h

/-- Settles O34: every unit of a decode step asks for its own step first. -/
theorem unitsRefusedOutsideTheirStep : Obligations.UnitsRefusedOutsideTheirStep := fun _ =>
  ⟨fun h _ => inStep_refused h _, fun h => ⟨inStep_refused h _, fun _ => ⟨inStep_refused h _, inStep_refused h _⟩⟩,
    fun h _ => inStep_refused h _, fun h _ _ => ⟨inStep_refused h _, inStep_refused h _⟩⟩

end Sys2Proof.Machine
end

section
/-! PROOFS. The obligations of 41_mode0.md: the zero block (R120), the byte that NEG_BYTE outputs (R121, R122), the
mode-0 block result for every storage start (R123), and blocks stored negated (R124). -/

namespace Sys2Proof.Machine

/-! ### From START to the end of a decode (R110) -/

section
variable {s : State} {base : Nat} {w : Word}

theorem decodesWithin_of_resolve {bound : Nat} {r : DecodeResult} (h : Started s base w)
    (hends : EndsWithin (resolve (entryMode w) (entryRaw w) base (takeCommand s)) bound r) :
    DecodesWithin s bound r := by
  obtain ⟨k, t, hk, hrun, hobs⟩ := hends
  refine ⟨k, t, hk, ?_, hobs⟩
  rw [Nat.add_comm, runSteps, (step_started h).2]
  exact hrun

/-- A decode whose storage starts inside the ROM gives the result that it gives once begun there. -/
theorem decodesWithin_inside {src bound : Nat} {r : DecodeResult} (h : Started s base w)
    (hmode : (entryMode w).toNat ≤ 2) (hnotZero : ¬(entryMode w = 0 ∧ sext24 (entryRaw w) = 0))
    (hsrc : base + sext24 (entryRaw w) = (src : Int)) (hlt : src < s.rom.len)
    (hbegun : ∀ u, MidDecode (entryMode w) src src 0 [] u → u.dictValid = false → u.rom = s.rom →
      EndsWithin u bound r) : DecodesWithin s bound r := by
  refine decodesWithin_of_resolve h ?_
  rw [resolve_inside hmode hnotZero (by omega) (by rw [hsrc]; exact Int.ofNat_lt.2 hlt), hsrc]
  exact hbegun _ (midDecode_beginDecode (step_started h).1 ..) rfl rfl

/-- A resolution whose storage starts outside the ROM faults with the exact sum (R105, R106). -/
theorem resolve_outside {mode : Byte} {raw : BitVec 24} (hmode : mode.toNat ≤ 2)
    (hnotZero : ¬(mode = 0 ∧ sext24 raw = 0))
    (hout : base + sext24 raw < 0 ∨ (s.rom.len : Int) ≤ base + sext24 raw) :
    resolve mode raw base s = faultStart ⟨.outOfBounds, .startOutside, base + sext24 raw⟩ mode (sext24 raw)
      (some (base + sext24 raw)) s := by
  rw [resolve, if_neg hmode.not_gt, if_neg hnotZero, locate, if_pos hout]

/-- A decode whose storage starts outside the ROM ends at START. -/
theorem decodesWithin_outside (h : Started s base w) (hmode : (entryMode w).toNat ≤ 2)
    (hnotZero : ¬(entryMode w = 0 ∧ sext24 (entryRaw w) = 0))
    (hout : base + sext24 (entryRaw w) < 0 ∨ (s.rom.len : Int) ≤ base + sext24 (entryRaw w)) :
    DecodesWithin s 0 (.fault .outOfBounds .startOutside (base + sext24 (entryRaw w))) := by
  refine decodesWithin_of_resolve h ?_
  rw [resolve_outside (s := takeCommand s) hmode hnotZero hout]
  exact endsWithin_observed rfl

end

/-! ### The mode-0 block (R123) -/

/-- Bytes that all lie inside the ROM are read. -/
theorem readBytes_inside {m : Rom} {a n : Nat} (h : a + n ≤ m.len) : ∃ bs, readBytes m a n = .ok bs := by
  cases hread : readBytes m a n with
  | ok bs => exact ⟨bs, rfl⟩
  | error f =>
    obtain ⟨k, hk, hnone, -⟩ := readBytes_error hread
    have := (romByte_none_iff m _).1 hnone
    omega

/-- Bytes read begin at an address of the ROM, not below it (20_memory.md R53). -/
theorem readBytes_start {m : Rom} {a : Int} {n : Nat} {bs : List Byte} (hn : 0 < n) (h : readBytes m a n = .ok bs) :
    0 ≤ a := by
  obtain ⟨hlen, hbytes⟩ := readBytes_ok_iff.1 h
  have hfirst := hbytes 0 hn
  rw [List.getElem?_eq_getElem (by omega)] at hfirst
  have := (romByte_isSome_iff m _).1 (Option.isSome_of_eq_some hfirst)
  omega

theorem negBlock_whole {m : Rom} {src : Nat} {bs : List Byte} (h : readBytes m src 512 = .ok bs) :
    negBlock m src = .done (bs.map negate) 512 := by
  rw [negBlock, h]

theorem negBlock_cut {m : Rom} {src : Nat} (h : m.len < src + 512) : negBlock m src = pastEnd m := by
  cases hread : readBytes m src 512 with
  | error f => rw [negBlock, hread]
  | ok bs =>
    have := readBytes_end (by decide) hread
    omega

section
variable {s : State} {base : Nat} {w : Word}

/-- An offset other than 0 is no zero block, whatever the mode (R75). -/
theorem notZeroBlock_of_raw (hraw : entryRaw w ≠ 0) : ¬(entryMode w = 0 ∧ sext24 (entryRaw w) = 0) :=
  fun h => hraw ((sext24_zero_iff _).1 h.2)

/-- A mode-0 decode from inside the ROM gives the mode-0 block of its storage start. -/
theorem negBlock_decodesWithin {src : Nat} (h : Started s base w) (hmode : entryMode w = 0) (hraw : entryRaw w ≠ 0)
    (hsrc : base + sext24 (entryRaw w) = (src : Int)) (hlt : src < s.rom.len) :
    DecodesWithin s 512 (negBlock s.rom src) := by
  refine decodesWithin_inside h (by rw [hmode]; decide) (notZeroBlock_of_raw hraw) hsrc hlt fun u hbegun _ hrom => ?_
  rw [hmode] at hbegun
  rw [← hrom] at hlt ⊢
  exact negBlock_endsWithin hbegun hlt

end

/-- Settles O51: inside the ROM the decode gives the mode-0 block, which is whole or cut by the ROM's end; outside it
START faults. -/
theorem modeZeroBlockResult : Obligations.ModeZeroBlockResult := by
  intro s base w src h hmode hraw hsum
  refine ⟨fun hge hfit => ?_, fun hge hlt hcut => ?_, fun hout => ?_⟩
  · obtain ⟨a, rfl⟩ := Int.eq_ofNat_of_zero_le hge
    have hblock := negBlock_decodesWithin h hmode hraw hsum.symm (by omega)
    obtain ⟨bs, hread⟩ := readBytes_inside (m := s.rom) (a := a) (n := 512) (by omega)
    obtain ⟨hlen, hbytes⟩ := readBytes_ok_iff.1 hread
    rw [negBlock_whole hread] at hblock
    refine ⟨bs.map negate, by rw [List.length_map, hlen], hblock, fun i hi => ?_⟩
    have hget : bs[i]? = some bs[i] := List.getElem?_eq_getElem (hlen ▸ hi)
    exact ⟨bs[i], (hbytes i hi).trans hget, by rw [List.getElem?_map, hget, Option.map_some, negate_eq]⟩
  · obtain ⟨a, rfl⟩ := Int.eq_ofNat_of_zero_le hge
    have hblock := negBlock_decodesWithin h hmode hraw hsum.symm (Int.ofNat_lt.1 hlt)
    rwa [negBlock_cut (by omega)] at hblock
  · rw [hsum] at hout ⊢
    exact decodesWithin_outside h (by rw [hmode]; decide) (notZeroBlock_of_raw hraw) hout

/-! ### Blocks stored negated (R124) -/

theorem negate_involutive : Function.Involutive negate := sub_sub_cancel 0

/-- Settles O54: the block read is the negated one, and the decode negates it back. -/
theorem negatedBlockDecodes : Obligations.NegatedBlockDecodes := by
  refine ⟨negate_involutive, fun s base w x h hmode hraw hlen hholds => ?_⟩
  have hread : readBytes s.rom (base + sext24 (entryRaw w)) 512 = .ok (x.map negate) :=
    readBytes_ok_iff.2 ⟨by rw [List.length_map, hlen], fun k hk => hholds k (by rwa [List.length_map, hlen])⟩
  obtain ⟨a, ha⟩ := Int.eq_ofNat_of_zero_le (readBytes_start (by decide) hread)
  rw [ha] at hread
  have hend := readBytes_end (by decide) hread
  have hblock := negBlock_decodesWithin h hmode hraw ha (by omega)
  rwa [negBlock_whole hread, negate_involutive.list_map x] at hblock

/-! ### The zero block and the negated byte (R120 to R122) -/

/-- Settles O7: START on the word 0 is the zero block behind the clearing of START. -/
theorem entZeroGivesZeroBlock : Obligations.EntZeroGivesZeroBlock := by
  intro s base hready
  have hstart : exec .entZero s = .next (zeroBlock (acceptStart 0 0 none s)) := start_ready hready 0 0
  exact ⟨_, hstart, rfl, outAt_replicate (zeroBlock_out _), rfl, rfl, rfl, rfl, rfl, rfl, rfl, dictAt_cleared rfl, rfl,
    zeroBlock_noFaultRecorded .., exec_keepsInputs hstart⟩

theorem execNegByte_of {s : State} {p n : Nat} (henabled : InStep .neg s) (hp : s.iptr = some p) (hn : s.ocnt = some n)
    (hlt : n < 512) (b : Byte) :
    execNegByte b s = .next (complete 512 { emit n [negate b] s with iptr := some (p + 1) }) := by
  rw [execNegByte, inStep_of henabled, hp, need_some, hn, need_some, if_pos hlt]

/-- Settles O15: the byte is output behind the others, and completion writes ENDOFF and STATE only. -/
theorem negByteResult : Obligations.NegByteResult := by
  intro b s p n henabled hp hn hlt
  refine ⟨_, execNegByte_of henabled hp hn hlt b, ?_, ?_, completes_complete henabled.1 rfl⟩
  · rw [complete_out]
    exact complete_eq ..
  · rw [← negate_eq]
    exact outputs_of (complete_out ..) (Nat.succ_le_of_lt hlt)

end Sys2Proof.Machine
end

section
/-! PROOFS. The obligations of 42_mode1_rle.md: what each command does (R140 to R145), the mode-1 block result for every
command stream (R146), and streams of commands that expand to a block (R147). -/

namespace Sys2Proof.Machine

/-! ### The mode-1 block (R146) -/

/-- A mode-1 decode from inside the ROM gives the mode-1 block of its storage start. -/
theorem rleBlock_decodesWithin {s : State} {base : Nat} {w : Word} {src : Nat} (h : Started s base w)
    (hmode : entryMode w = 1) (hsrc : base + sext24 (entryRaw w) = (src : Int)) (hlt : src < s.rom.len) :
    DecodesWithin s (s.rom.len - src + 1) (rleBlock s.rom src (s.rom.len - src + 1) src []) := by
  refine decodesWithin_inside h (by rw [hmode]; decide) (fun hzero => absurd (hmode.symm.trans hzero.1) (by decide)) hsrc
    hlt fun u hbegun _ hrom => ?_
  rw [hmode] at hbegun
  rw [← hrom] at hlt ⊢
  exact rleBlock_endsWithin hbegun hlt

/-- Settles O52: the decode begun at the storage start follows the block result command by command. -/
theorem modeOneBlockResult : Obligations.ModeOneBlockResult :=
  fun _ _ _ _ h hmode hsrc hlt => rleBlock_decodesWithin h hmode hsrc.symm hlt

/-! ### A command line's bytes and what they expand to (30_encoding.md R90) -/

section
variable {m : Rom} {a : Int} {b : Byte} {xs ys : List Byte}

theorem romHolds_head (h : RomHolds m a (b :: xs)) : romByte m a = some b := by
  simpa using h 0 (Nat.succ_pos _)

theorem romHolds_append_left (h : RomHolds m a (xs ++ ys)) : RomHolds m a xs := by
  intro k hk
  rw [h k (by rw [List.length_append]; omega), List.getElem?_append_left hk]

theorem romHolds_append_right (h : RomHolds m a (xs ++ ys)) : RomHolds m (a + xs.length) ys := by
  intro k hk
  have hbyte := h (xs.length + k) (by rw [List.length_append]; omega)
  rw [List.getElem?_append_right (Nat.le_add_right ..), Nat.add_sub_cancel_left] at hbyte
  rw [← hbyte, Int.natCast_add, Int.add_assoc]

theorem romHolds_tail (h : RomHolds m a (b :: xs)) : RomHolds m (a + 1) xs :=
  romHolds_append_right (xs := [b]) h

theorem readBytes_of_romHolds (h : RomHolds m a xs) : readBytes m a xs.length = .ok xs :=
  readBytes_ok_iff.2 ⟨rfl, h⟩

theorem repRun_of_romByte {c : Byte} (h : romByte m a = some b) :
    repRun m a c = .ok (List.replicate (repLen c) b) := by
  rw [repRun, memRead_ok_iff.2 h]

end

/-- The command byte `c` with the operand bytes `ops` behind it outputs the bytes `run`. -/
structure CommandGives (c : Byte) (ops run : List Byte) : Prop where
  notNop : c ≠ 0x80
  operands : cmdOperands c = ops.length
  run : ∀ (m : Rom) (a : Int), RomHolds m a ops → cmdRun m a c = .ok run

theorem commandGives_lit {xs : List Byte} (hlo : 1 ≤ xs.length) (hhi : xs.length ≤ 128) :
    CommandGives (BitVec.ofNat 8 (xs.length - 1)) xs xs := by
  have hnum : (BitVec.ofNat 8 (xs.length - 1)).toNat = xs.length - 1 := Nat.mod_eq_of_lt (by omega)
  have hlit : (BitVec.ofNat 8 (xs.length - 1)).toNat ≤ 0x7F := by omega
  have hlen : litLen (BitVec.ofNat 8 (xs.length - 1)) = xs.length := by rw [litLen]; omega
  refine ⟨fun hnop => ?_, (if_pos hlit).trans hlen, fun m a hholds => ?_⟩
  · rw [hnop] at hlit
    exact absurd hlit (by decide)
  · rw [cmdRun, if_pos hlit, litRun, hlen]
    exact readBytes_of_romHolds hholds

theorem commandGives_rep {len : Nat} (hlo : 2 ≤ len) (hhi : len ≤ 128) (v : Byte) :
    CommandGives (BitVec.ofNat 8 (257 - len)) [v] (List.replicate len v) := by
  have hnum : (BitVec.ofNat 8 (257 - len)).toNat = 257 - len := Nat.mod_eq_of_lt (by omega)
  have hrep : ¬(BitVec.ofNat 8 (257 - len)).toNat ≤ 0x7F := by omega
  have hlen : repLen (BitVec.ofNat 8 (257 - len)) = len := by rw [repLen]; omega
  refine ⟨fun hnop => ?_, if_neg hrep, fun m a hholds => ?_⟩
  · rw [hnop] at hnum
    have : (0x80 : Byte).toNat = 128 := rfl
    omega
  · rw [cmdRun, if_neg hrep, repRun_of_romByte (romHolds_head hholds), hlen]

/-- A command line is the no-op, which expands to nothing, or a command byte and operands that give its expansion. -/
theorem commandBytes_gives {l : AsmLine} {bs : List Byte} (h : commandBytes l = some bs) :
    ∃ c ops, bs = c :: ops ∧ (c = 0x80 ∧ ops = [] ∧ commandRun l = [] ∨ CommandGives c ops (commandRun l)) := by
  cases l with
  | lit xs =>
    obtain ⟨⟨hlo, hhi⟩, ⟨⟩⟩ := Option.ite_none_right_eq_some.1 h
    exact ⟨_, _, rfl, .inr (commandGives_lit hlo hhi)⟩
  | rep len v =>
    obtain ⟨⟨hlo, hhi⟩, ⟨⟩⟩ := Option.ite_none_right_eq_some.1 h
    exact ⟨_, _, rfl, .inr (commandGives_rep hlo hhi v)⟩
  | nop =>
    cases h
    exact ⟨_, _, rfl, .inl ⟨rfl, rfl, rfl⟩⟩
  | _ => cases h

theorem streamBytes_cons {l : AsmLine} {ls : List AsmLine} {bytes : List Byte} (h : streamBytes (l :: ls) = some bytes) :
    ∃ bs rest, commandBytes l = some bs ∧ streamBytes ls = some rest ∧ bytes = bs ++ rest := by
  rw [streamBytes] at h
  split at h
  · rename_i bs rest hbs hrest
    cases h
    exact ⟨bs, rest, hbs, hrest, rfl⟩
  · cases h
  · cases h

/-- Every command emits its command byte at least. -/
theorem streamBytes_length_pos {l : AsmLine} {ls : List AsmLine} {bytes : List Byte}
    (h : streamBytes (l :: ls) = some bytes) : 0 < bytes.length := by
  obtain ⟨bs, rest, hbs, -, rfl⟩ := streamBytes_cons h
  obtain ⟨c, ops, rfl, -⟩ := commandBytes_gives hbs
  exact Nat.succ_pos _

/-! ### The round trip (R147) -/

/-- A stream whose expansions fill the block behind `out` gives it, whatever follows the command that fills it. -/
theorem rleBlock_stream {rom : Rom} {src : Nat} {cmds : List AsmLine} : ∀ {fuel a : Nat} {bytes out : List Byte},
    streamBytes cmds = some bytes → RomHolds rom a bytes → out.length < 512 →
    (out ++ cmds.flatMap commandRun).length = 512 → rom.len < a + fuel →
    ∃ e, rleBlock rom src fuel a out = .done (out ++ cmds.flatMap commandRun) e := by
  induction cmds with
  | nil =>
    intro fuel a bytes out _ _ hout hlen _
    rw [List.flatMap_nil, List.append_nil] at hlen
    omega
  | cons l ls ih =>
    intro fuel a bytes out hbytes hholds hout hlen hfuel
    obtain ⟨bs, rest, hbs, hrest, rfl⟩ := streamBytes_cons hbytes
    obtain ⟨c, ops, rfl, hcommand⟩ := commandBytes_gives hbs
    have hc := romHolds_head hholds
    have hlt := romByte_lt hc
    have hoperands := romHolds_tail (romHolds_append_left hholds)
    have hbehind := romHolds_append_right (romHolds_tail hholds)
    obtain ⟨fuel, rfl⟩ := Nat.exists_eq_succ_of_ne_zero (n := fuel) (by omega)
    rw [List.flatMap_cons, ← List.append_assoc] at hlen ⊢
    rcases hcommand with ⟨rfl, rfl, hnop⟩ | hgives
    · rw [hnop, List.append_nil] at hlen ⊢
      rw [rleBlock_nop hc]
      exact ih hrest (by simpa using hbehind) hout hlen (by omega)
    · have hrun := hgives.run rom (a + 1) hoperands
      have hsum : (out ++ commandRun l).length = out.length + cmdLen c := by rw [List.length_append, (cmdRun_ok hrun).1]
      rw [List.length_append] at hlen
      have hle : (out ++ commandRun l).length ≤ 512 := by omega
      rcases hle.eq_or_lt with hfull | hmore
      · have hnil : ls.flatMap commandRun = [] := List.eq_nil_of_length_eq_zero (by omega)
        rw [rleBlock_full hc hgives.notNop (hsum ▸ hfull) hrun, hnil, List.append_nil]
        exact ⟨_, rfl⟩
      · rw [rleBlock_more hc hgives.notNop (hsum ▸ hmore) hrun, hgives.operands]
        exact ih hrest (by exact_mod_cast hbehind) hmore (by rwa [List.length_append]) (by omega)

/-- Settles O55: the stream lies inside the ROM, and the block result of its storage start is its expansion. -/
theorem rleStreamRoundTrip : Obligations.RleStreamRoundTrip := by
  intro s base w cmds bytes h hmode hbytes hlen hholds
  have hpos : 0 < bytes.length := by
    cases cmds with
    | nil => cases hlen
    | cons l ls => exact streamBytes_length_pos hbytes
  have hread := readBytes_of_romHolds hholds
  have hend := readBytes_end hpos hread
  obtain ⟨src, hsrc⟩ := Int.eq_ofNat_of_zero_le (readBytes_start hpos hread)
  rw [hsrc] at hholds hend
  obtain ⟨e, hblock⟩ := rleBlock_stream (src := src) (fuel := s.rom.len - src + 1) (out := []) hbytes hholds (by decide)
    hlen (by omega)
  obtain ⟨k, t, hk, hrun, hobs⟩ := rleBlock_decodesWithin h hmode hsrc (by omega)
  rw [hblock] at hobs
  exact ⟨e, k, t, by omega, hrun, hobs⟩

/-! ### The commands one by one (R140 to R145) -/

theorem exec_rleLit {c : Byte} {s : State} (henabled : InStep .rle s) :
    exec (.rleLit c) s = performRun (c.toNat + 1) (c.toNat + 1) (fun m a => readBytes m a (c.toNat + 1)) s :=
  inStep_of henabled _

theorem repLen_eq (c : Byte) : repLen c = 257 - c.toNat := by
  have := c.isLt
  rw [repLen]
  omega

theorem exec_rleRep {c : Byte} {s : State} (henabled : InStep .rle s) :
    exec (.rleRep c) s = performRun (257 - c.toNat) 1 (fun m a => repRun m a c) s := by
  rw [← repLen_eq]
  exact inStep_of henabled _

/-- Settles O17: the enabled no-op reads IPTR and writes it. -/
theorem rleNopResult : Obligations.RleNopResult := by
  intro s p henabled hp
  rw [exec, execRleNop, inStep_of henabled, hp, need_some]

/-- What a run leaves: its bytes output, IPTR behind the command, and completion (R144). -/
theorem finishRun_result {s : State} {run : List Byte} {n : Nat} (hbusy : s.ctrl = .busy) (hfit : n + run.length ≤ 512)
    (src : Int) (next : Nat) :
    finishRun src n next run s = { s with
      out := (finishRun src n next run s).out, ocnt := some (n + run.length), iptr := some next
      endoff := (finishRun src n next run s).endoff, ctrl := (finishRun src n next run s).ctrl } ∧
    Outputs n run s (finishRun src n next run s) ∧ Completes (next - src).toNat s (finishRun src n next run s) := by
  refine ⟨?_, outputs_of (complete_out ..) hfit, completes_complete hbusy rfl⟩
  rw [finishRun, complete_out]
  exact complete_eq ..

/-- Settles O18: the payload is read whole, and the run is finished behind it. -/
theorem rleLitResult : Obligations.RleLitResult := by
  intro c s a p n bs _ henabled hsrc hp hn hfit hlen hholds
  have hread : readBytes s.rom (p + 1) (c.toNat + 1) = .ok bs := hlen ▸ readBytes_of_romHolds hholds
  rw [exec_rleLit henabled, (performRun_of hsrc hp hn).2.2 hfit bs hread]
  rw [← hlen] at hfit ⊢
  exact ⟨_, rfl, finishRun_result henabled.1 hfit a _⟩

/-- Settles O19: the value is read, and its copies are the run. -/
theorem rleRepResult : Obligations.RleRepResult := by
  intro c v s a p n _ henabled hsrc hp hn hfit hv
  have hrun : repRun s.rom (p + 1) c = .ok (List.replicate (257 - c.toNat) v) := repLen_eq c ▸ repRun_of_romByte hv
  rw [exec_rleRep henabled, (performRun_of hsrc hp hn).2.2 hfit _ hrun]
  have hresult := finishRun_result (run := List.replicate (257 - c.toNat) v) henabled.1 (by simpa using hfit) a (p + 2)
  rw [List.length_replicate] at hresult
  exact ⟨_, rfl, hresult⟩

/-- Settles O20: whatever the operands, the length of the run is compared first. -/
theorem runOverflowFaults : Obligations.RunOverflowFaults := by
  intro i c len s p n hi henabled hsrc hp hn hover
  obtain ⟨a, ha⟩ := Option.ne_none_iff_exists'.1 hsrc
  have hexec : ∃ operands run, exec i s = performRun len operands run s := by
    rcases hi with ⟨rfl, -, rfl⟩ | ⟨rfl, -, rfl⟩
    · exact ⟨_, _, exec_rleLit henabled⟩
    · exact ⟨_, _, exec_rleRep henabled⟩
  obtain ⟨operands, run, hexec⟩ := hexec
  exact hexec.trans ((performRun_of ha hp hn).1 hover)

theorem repRun_pastEnd {m : Rom} {a : Int} (h : romByte m a = none) (c : Byte) :
    repRun m a c = .error ⟨.outOfBounds, .bytePastEnd, a⟩ := by
  rw [repRun, memRead_error_iff.2 ⟨h, rfl⟩]

/-- Settles O21: a literal reads its payload from the first byte up, a repeat its one value byte. -/
theorem operandPastEndFaults : Obligations.OperandPastEndFaults := by
  intro i c len operands k s p n hi henabled hsrc hp hn hfit hk hnone hfirst
  obtain ⟨a, ha⟩ := Option.ne_none_iff_exists'.1 hsrc
  have hexec : ∃ run, exec i s = performRun len operands run s ∧
      run s.rom (p + 1) = .error ⟨.outOfBounds, .bytePastEnd, p + 1 + k⟩ := by
    rcases hi with ⟨rfl, -, rfl, rfl⟩ | ⟨rfl, -, rfl, rfl⟩
    · exact ⟨_, exec_rleLit henabled, readBytes_first hk hnone hfirst⟩
    · obtain rfl := Nat.lt_one_iff.1 hk
      exact ⟨_, exec_rleRep henabled, by simpa using repRun_pastEnd hnone c⟩
  obtain ⟨run, hexec, hrun⟩ := hexec
  exact hexec.trans ((performRun_of ha hp hn).2.1 hfit _ hrun)

theorem fetch_stepping_rle {s : State} {p : Nat} (h : Stepping .rle s) (hp : s.iptr = some p) :
    fetch s = fetchByte s.rom p decodeCmd := by
  obtain ⟨m, hm, hk, hbusy⟩ := stepping_mode h
  rw [fetch_engineTurn h.1, fetchStep, if_pos hbusy, hm, fetchNeed_some, hk, hp]
  rfl

/-- Settles O22, by whether IPTR names a byte, and by the class of the byte. -/
theorem rleStepReads : Obligations.RleStepReads := by
  intro s p h hp
  have hfetch := fetch_stepping_rle h hp
  refine ⟨fun c hc => ?_, fun hnone => step_of_raise (f := ⟨.outOfBounds, .bytePastEnd, p⟩) ?_⟩
  · have hstep : step s = exec (decodeCmd c) (takeCommand s) :=
      step_of_unit (by rw [hfetch, fetchByte, memRead_ok_iff.2 hc])
    refine ⟨fun hnop => ?_, fun hlit => ?_, fun hrep => ?_⟩
    · rw [hstep, hnop, decodeCmd_nop]
    · rw [hstep, decodeCmd_lit hlit]
    · rw [hstep, decodeCmd_rep hrep]
  · rw [hfetch, fetchByte, memRead_error_iff.2 ⟨hnone, rfl⟩]

end Sys2Proof.Machine
end

section
/-! PROOFS. The obligations of 43_mode2_bitpacked.md: the dictionary load (R170), what a code step reads and outputs
(R171 to R174), the mode-2 block result for every dictionary and bit stream (R175), and packed codes that decode to the
bytes they stand for (R176). -/

namespace Sys2Proof.Machine

/-! ### The mode-2 block (R175) -/

/-- A mode-2 decode from inside the ROM gives the mode-2 block of its storage start. -/
theorem packedBlock_decodesWithin {s : State} {base : Nat} {w : Word} {src : Nat} (h : Started s base w)
    (hmode : entryMode w = 2) (hsrc : base + sext24 (entryRaw w) = (src : Int)) (hlt : src < s.rom.len) :
    DecodesWithin s 513 (packedBlock s.rom src) := by
  have hnotZero : ¬(entryMode w = 0 ∧ sext24 (entryRaw w) = 0) :=
    fun hzero => absurd (hmode.symm.trans hzero.1) (by decide)
  refine decodesWithin_inside h (by rw [hmode]; decide) hnotZero hsrc hlt fun u hbegun hload hrom => ?_
  rw [hmode] at hbegun
  rw [← hrom] at hlt ⊢
  exact packedBlock_endsWithin hbegun hload hlt

/-- Settles O53: the decode begun at the storage start loads the dictionary and follows the block result code by
code. -/
theorem modeTwoBlockResult : Obligations.ModeTwoBlockResult :=
  fun _ _ _ _ h hmode hsrc hlt => packedBlock_decodesWithin h hmode hsrc.symm hlt

/-! ### Packed codes (R176) -/

/-- Fewer than 8 bits fill the last byte, and each of them is 0 (30_encoding.md R90). -/
theorem packBits_pads (l : List Bool) :
    ∃ pad, bitsOfBytes (packBits l) = l ++ pad ∧ pad.length < 8 ∧ ∀ b ∈ pad, b = false :=
  ⟨padBits l.length, bitsOfBytes_packBits l, by rw [padBits_length]; omega, fun _ hb => List.eq_of_mem_replicate hb⟩

/-- Every unit of the code format is a code of the table, and as long as its flag says. -/
theorem code_wellFormed_length {i : Instr} (h : i.format = .code) :
    i.WellFormed ∧ (encode i).length = i.bitLength := by
  cases i with
  | m2Hit i => exact ⟨rfl, Laws.EncodedLength.m2Hit i⟩
  | m2Lit b => exact ⟨rfl, Laws.EncodedLength.m2Lit b⟩
  | _ => cases h

/-- Codes packed one behind the other are read back as the bytes they stand for, whatever bits follow. -/
theorem codesOf_flatMap_encode (dict : List Byte) (rest : List Bool) {codes : List Instr}
    (h : ∀ i ∈ codes, i.format = .code) :
    codesOf dict codes.length (codes.flatMap encode ++ rest) =
      some (codes.map (codeByte dict), (codes.flatMap encode).length) := by
  induction codes with
  | nil => rfl
  | cons i codes ih =>
    obtain ⟨hi, hcodes⟩ := List.forall_mem_cons.1 h
    obtain ⟨hwf, hlen⟩ := code_wellFormed_length hi
    have hdec := encodedUnitsDecode i (codes.flatMap encode ++ rest) hwf
    rw [hi] at hdec
    rw [List.flatMap_cons, List.append_assoc, List.length_cons, codesOf, hdec]
    simp only [ih hcodes, Option.map_some, List.map_cons, List.length_append, hlen]

/-- The bytes from an address to the ROM's end are those that the addresses from there on name. -/
theorem bytesFrom_getElem? (m : Rom) (a k : Nat) : (bytesFrom m a)[k]? = romByte m ((a : Int) + k) := by
  by_cases hk : a + k < m.len
  · have hidx : k < m.len - a := by omega
    have hbyte := romByte_inside hk
    rw [Int.natCast_add] at hbyte
    simp [bytesFrom, hbyte, hidx]
  · rw [List.getElem?_eq_none (by simp [bytesFrom]; omega), (romByte_none_iff m _).2 (by omega)]

/-- Bytes that the ROM holds from `a` on come first among those from `a` to its end. -/
theorem romHolds_prefix {m : Rom} {a : Nat} {bs : List Byte} (h : RomHolds m a bs) : bs <+: bytesFrom m a :=
  List.prefix_iff_getElem?.2 fun k hk => by rw [bytesFrom_getElem?, h k hk, List.getElem?_eq_getElem hk]

/-- A dictionary and packed codes behind it are the block of the bytes that the codes stand for. -/
theorem packedBlock_codes {m : Rom} {src : Nat} {d : Vector Byte 16} {codes : List Instr} {bytes : List Byte}
    {pad : List Bool} (hlen : codes.length = 512) (hcodes : ∀ i ∈ codes, i.format = .code)
    (hbytes : bitsOfBytes bytes = codes.flatMap encode ++ pad) (hholds : RomHolds m src (d.toList ++ bytes)) :
    packedBlock m src = .done (codes.map (codeByte d.toList)) (byteOffset (codes.flatMap encode).length) := by
  have hread := readBytes_of_romHolds (romHolds_append_left hholds)
  have hbehind := romHolds_append_right hholds
  rw [d.length_toList] at hread hbehind
  obtain ⟨after, hafter⟩ := romHolds_prefix (a := src + 16) hbehind
  have hstream : streamBits m src = codes.flatMap encode ++ (pad ++ bitsOfBytes after) := by
    rw [streamBits, ← hafter, bitsOfBytes_append, hbytes, List.append_assoc]
  refine packedBlock_whole hread ?_
  rw [hstream, ← hlen]
  exact codesOf_flatMap_encode d.toList _ hcodes

/-- Settles O56: the 16 dictionary bytes lie inside the ROM, and the block result of their address is the codes'
bytes. -/
theorem packedStreamRoundTrip : Obligations.PackedStreamRoundTrip := by
  refine ⟨packBits_pads, fun s base w d codes bytes pad h hmode hlen hcodes hbytes hholds => ?_⟩
  have hread := readBytes_of_romHolds (romHolds_append_left hholds)
  rw [d.length_toList] at hread
  have hend := readBytes_end (by decide) hread
  obtain ⟨src, hsrc⟩ := Int.eq_ofNat_of_zero_le (readBytes_start (by decide) hread)
  rw [hsrc] at hholds hend
  rw [← packedBlock_codes hlen hcodes hbytes hholds]
  exact packedBlock_decodesWithin h hmode hsrc (by omega)

/-! ### What a code step reads (R171) -/

theorem fetch_stepping_code {s : State} {a : Int} {p : Nat} (h : Stepping .code s) (ha : s.src = some a)
    (hp : s.bptr = some p) : fetch s = fetchCode s.rom a p := by
  obtain ⟨m, hm, hk, hbusy⟩ := stepping_mode h
  rw [fetch_engineTurn h.1, fetchStep, if_pos hbusy, hm, fetchNeed_some, hk, ha, hp]
  rfl

section
variable {m : Rom} {a : Int} {p q r : Nat} {flag : Bool} {bs : List Bool} {f : FaultInfo}

theorem fetchCode_flagFault (h : readBit m (bitBase a) p = .error f) : fetchCode m a p = .raise f := by
  rw [fetchCode, h]

theorem fetchCode_bitsFault (hflag : readBit m (bitBase a) p = .ok (flag, q))
    (hbits : readBitList m (bitBase a) (if flag then 4 else 8) q = .error f) : fetchCode m a p = .raise f := by
  rw [fetchCode, hflag]
  simp only [hbits]

theorem fetchCode_hit (hflag : readBit m (bitBase a) p = .ok (true, q))
    (hbits : readBitList m (bitBase a) 4 q = .ok (bs, r)) :
    fetchCode m a p = .unit (.m2Hit (BitVec.ofNat 4 (natOfBits bs))) := by
  have hdec := decode_hit (rest := []) (readBitList_cursor hbits).2
  rw [List.append_nil] at hdec
  rw [fetchCode, hflag]
  simp only [if_true, hbits, hdec]

theorem fetchCode_lit (hflag : readBit m (bitBase a) p = .ok (false, q))
    (hbits : readBitList m (bitBase a) 8 q = .ok (bs, r)) :
    fetchCode m a p = .unit (.m2Lit (byteOfBits bs)) := by
  have hdec := decode_lit (rest := []) (readBitList_cursor hbits).2
  rw [List.append_nil] at hdec
  rw [fetchCode, hflag]
  simp only [Bool.false_eq_true, if_false, hbits, hdec]

end

/-- Settles O27: the flag bit says how many bits follow, and the first bit that faults is the fault raised. -/
theorem codeStepReads : Obligations.CodeStepReads := by
  intro s a p h ha hp
  have hfetch := fetch_stepping_code h ha hp
  refine ⟨fun q v r hflag hbits => ?_, fun q v r hflag hbits => ?_, fun f hf => step_of_raise (hfetch.trans ?_)⟩
  · obtain ⟨bs, hlist, rfl⟩ := readBits_ok_list hbits
    exact step_of_unit (hfetch.trans (fetchCode_hit hflag hlist))
  · obtain ⟨bs, hlist, rfl⟩ := readBits_ok_list hbits
    exact step_of_unit (hfetch.trans (fetchCode_lit hflag hlist))
  · rcases hf with hflag | ⟨q, hflag, hbits⟩ | ⟨q, hflag, hbits⟩
    · exact fetchCode_flagFault hflag
    · exact fetchCode_bitsFault hflag (readBits_error_list hbits)
    · exact fetchCode_bitsFault hflag (readBits_error_list hbits)

/-- A code whose flag bit is read and whose other bits pass the stream's end faults at ROM_LEN (60_exceptions.md
R214). -/
theorem fetchCode_bitsPastEnd {m : Rom} {a p q : Nat} {flag : Bool} (ha : a + 16 ≤ m.len)
    (hflag : readBit m (bitBase a) p = .ok (flag, q))
    (hend : 8 * (m.len - (a + 16)) < p + 1 + if flag then 4 else 8) :
    fetchCode m a p = .raise ⟨.outOfBounds, .bitPastEnd, m.len⟩ := by
  obtain ⟨rfl, hlt⟩ := readBit_cursor hflag
  unfold bitLen bitBase at hlt
  exact fetchCode_bitsFault hflag (readBitList_pastEnd ha (by omega) hend)

/-- Settles O28, by which bit is the first past the end: the flag bit, or one of a hit's or a literal's own. -/
theorem codePastEndFaults : Obligations.CodePastEndFaults := by
  intro s a p h hsrc hp ha _ hcut
  refine step_of_raise (f := ⟨.outOfBounds, .bitPastEnd, s.rom.len⟩) ((fetch_stepping_code h hsrc hp).trans ?_)
  rcases hcut with hend | ⟨q, hflag, hend⟩ | ⟨q, hflag, hend⟩
  · exact fetchCode_flagFault (readBit_streamEnd ha (hend.trans (streamBits_length s.rom a).symm))
  · exact fetchCode_bitsPastEnd ha hflag hend
  · exact fetchCode_bitsPastEnd ha hflag hend

/-! ### The dictionary load and the two codes (R170, R172 to R174) -/

/-- Settles O23: the enabled load writes DICT and DICT_VALID only. -/
theorem dictLoadResult : Obligations.DictLoadResult := by
  intro d s henabled
  refine ⟨loadDict d s, inStep_of henabled _, rfl, fun k => ?_⟩
  by_cases hk : k < 16
  · rw [loadDict_dictAt d s k hk, List.getElem?_eq_getElem (by simpa using hk), Vector.getElem_toList]
  · rw [dictAt_ge _ k (by omega), List.getElem?_eq_none (by rw [d.length_toList]; omega)]

/-- What a code leaves: its byte output, BPTR behind its bits, and completion (R174). -/
theorem finishCode_result {s : State} {p n : Nat} (hbusy : s.ctrl = .busy) (hp : s.bptr = some p)
    (hn : s.ocnt = some n) (hlt : n < 512) (len : Nat) (b : Byte) :
    ∃ t, finishCode len b s = .next t ∧
      t = { s with
        out := t.out, ocnt := some (n + 1), bptr := some (p + len), endoff := t.endoff, ctrl := t.ctrl } ∧
      Outputs n [b] s t ∧ Completes (byteOffset (p + len)) s t := by
  refine ⟨complete (byteOffset (p + len)) { emit n [b] s with bptr := some (p + len) }, ?_, ?_,
    outputs_of (complete_out ..) (Nat.succ_le_of_lt hlt), completes_complete hbusy rfl⟩
  · rw [finishCode, hp, need_some, hn, need_some, if_pos hlt]
  · rw [complete_out]
    exact complete_eq ..

theorem get_dict_eq_dictAt (s : State) (i : BitVec 4) : s.dict.get i.toFin = s.dictAt i.toNat := by
  rw [State.dictAt, dif_pos i.isLt]
  rfl

/-- Settles O25: the entry that the index names holds a value, which the code outputs. -/
theorem hitCodeResult : Obligations.HitCodeResult := by
  intro i b s p n henabled hb hp hn hlt
  rw [exec, execM2Hit, inStep_of henabled, get_dict_eq_dictAt, hb, need_some]
  exact finishCode_result henabled.1 hp hn hlt 5 b

/-- Settles O26: the enabled literal is a code that outputs its own byte. -/
theorem literalCodeResult : Obligations.LiteralCodeResult := by
  intro b s p n henabled hp hn hlt
  rw [exec, execM2Lit, inStep_of henabled]
  exact finishCode_result henabled.1 hp hn hlt 9 b

end Sys2Proof.Machine
end

section
/-! PROOFS. The obligations of 44_bitstream_reader.md: `bit()` (R191), `bits(n)` (R192) and `byteOffset()` (R193). -/

namespace Sys2Proof.Machine

/-! ### `bit()` (R191) -/

/-- Settles O29: a cursor inside the stream names a byte inside the ROM, whose bit is read. -/
theorem bitReadsMostSignificantFirst : Obligations.BitReadsMostSignificantFirst := by
  intro m bb p
  refine ⟨readBit_pastEnd, fun hend => by omega, fun hlt hbb => ?_⟩
  have hinside : 0 ≤ bb + (p / 8 : Nat) ∧ bb + (p / 8 : Nat) < m.len := by omega
  obtain ⟨b, hb⟩ := Option.isSome_iff_exists.1 ((romByte_isSome_iff m _).2 hinside)
  exact ⟨b, hb, readBit_ok hlt hb⟩

/-! ### `bits(n)` (R192) -/

section
variable {m : Rom} {bb : Int} {n p q r v : Nat} {b : Bool} {f : FaultInfo}

theorem readBits_cursor (h : readBits m bb n p = .ok (v, q)) : v < 2 ^ n ∧ q = p + n := by
  obtain ⟨bs, hlist, rfl⟩ := readBits_ok_list h
  obtain ⟨hq, hlen⟩ := readBitList_cursor hlist
  exact ⟨hlen ▸ natOfBits_lt bs, hq⟩

theorem readBits_succ_ok (h : readBits m bb n p = .ok (v, q)) (hbit : readBit m bb q = .ok (b, r)) :
    readBits m bb (n + 1) p = .ok (2 * v + b.toNat, r) := by
  obtain ⟨bs, hlist, rfl⟩ := readBits_ok_list h
  have hvalue : natOfBits (bs ++ [b]) = 2 * natOfBits bs + b.toNat := by simp [natOfBits]
  rw [readBits, readBitList_snoc, hlist]
  simp only [hbit, hvalue]

theorem readBits_succ_bitFault (h : readBits m bb n p = .ok (v, q)) (hbit : readBit m bb q = .error f) :
    readBits m bb (n + 1) p = .error f := by
  obtain ⟨bs, hlist, -⟩ := readBits_ok_list h
  rw [readBits, readBitList_snoc, hlist]
  simp only [hbit]

theorem readBits_succ_fault (h : readBits m bb n p = .error f) : readBits m bb (n + 1) p = .error f := by
  rw [readBits, readBitList_snoc, readBits_error_list h]

end

/-- Settles O30, by what one more bit adds behind the first `n`. -/
theorem bitsAccumulateFirstBitHighest : Obligations.BitsAccumulateFirstBitHighest := by
  refine fun m bb n p => ⟨rfl, fun v q h => ?_, fun f => readBits_succ_fault⟩
  obtain ⟨hv, hq⟩ := readBits_cursor h
  exact ⟨hv, hq, fun b r => readBits_succ_ok h, fun f => readBits_succ_bitFault h⟩

/-! ### `byteOffset()` (R193) -/

/-- The whole bytes touched hold the `p` bits read, with less than a byte to spare. -/
theorem byteOffset_bounds (p : Nat) : p ≤ 8 * byteOffset p ∧ 8 * byteOffset p < p + 8 := by
  unfold byteOffset
  omega

/-- Settles O31: the bounds make it the ceiling, and the spec's own values compute. -/
theorem byteOffsetIsCeiling : Obligations.ByteOffsetIsCeiling :=
  ⟨fun p => ⟨rfl, byteOffset_bounds p⟩, rfl, rfl, rfl, rfl, rfl⟩

end Sys2Proof.Machine
end

section
/-! PROOFS. The obligations of 60_exceptions.md: the faults of START (R211, R212), the table of a decode step's faults
(R210, R213 to R215, R222), and Internal, which no step raises (R216). -/

namespace Sys2Proof.Machine

/-! ### Which fault a decode step can raise (R210) -/

/-- The rows of the table of R210 that a decode step in `s` can record. -/
def DecodeFault (s : State) (f : FaultInfo) : Prop :=
  (f = ⟨.outOfBounds, .bytePastEnd, s.rom.len⟩ ∧ ¬InStep .code s) ∨
    (f = ⟨.outOfBounds, .bitPastEnd, s.rom.len⟩ ∧ InStep .code s) ∨
    (InStep .rle s ∧ ∃ p : Nat, s.iptr = some p ∧ f = ⟨.outOfBounds, .runOverflow, p⟩)

/-- Outside the code steps an access past the ROM's end is one of bytes (R213). -/
theorem decodeFault_bytePastEnd {s : State} {k : StepKind} (henabled : InStep k s) (hk : k ≠ .code) :
    DecodeFault s ⟨.outOfBounds, .bytePastEnd, s.rom.len⟩ :=
  .inl ⟨rfl, fun hcode => hk (inStep_unique henabled hcode)⟩

section
variable {m : Rom} {a p : Nat} {f : FaultInfo}

/-- A bit read at a cursor no further than the stream's end can only fault at that end (R214). -/
theorem readBit_error_atEnd (ha : a + 16 ≤ m.len) (hp : p ≤ (streamBits m a).length)
    (h : readBit m (bitBase a) p = .error f) : f = ⟨.outOfBounds, .bitPastEnd, m.len⟩ := by
  rcases hp.eq_or_lt with hend | hlt
  · cases (readBit_streamEnd ha hend).symm.trans h
    rfl
  · cases (readBit_stream (List.getElem?_eq_getElem hlt)).symm.trans h

/-- A bit that is read leaves the cursor no further than the stream's end (44_bitstream_reader.md R194). -/
theorem readBit_cursor_le {c : Bool} {q : Nat} (h : readBit m (bitBase a) p = .ok (c, q)) :
    q ≤ (streamBits m a).length := by
  obtain ⟨rfl, hlt⟩ := readBit_cursor h
  rw [streamBits_length]
  unfold bitLen bitBase at hlt
  omega

theorem readBitList_error_atEnd {n : Nat} (ha : a + 16 ≤ m.len) (hp : p ≤ (streamBits m a).length)
    (h : readBitList m (bitBase a) n p = .error f) : f = ⟨.outOfBounds, .bitPastEnd, m.len⟩ := by
  induction n generalizing p with
  | zero => cases h
  | succ n ih =>
    unfold readBitList at h
    split at h
    · cases h
      exact readBit_error_atEnd ha hp (by assumption)
    · rename_i c q hbit
      split at h
      · cases h
        exact ih (readBit_cursor_le hbit) (by assumption)
      · cases h

end

section
variable {s t : State} {f : FaultInfo} {i : Instr} {m : Byte}

/-- The byte cursor of a mode-0 or mode-1 decode stands inside the ROM or at its end (10_state.md R40(e), (f)). -/
theorem BusyInv.iptr_le (h : BusyInv s) (hm : s.mode = some 0 ∨ s.mode = some 1) {p : Nat} (hp : s.iptr = some p) :
    p ≤ s.rom.len := by
  rcases hm with hm | hm
  · obtain ⟨-, a, n, p', -, -, hp', -, hle⟩ := h.mode0 hm
    cases hp.symm.trans hp'
    exact hle
  · obtain ⟨-, a, p', -, hp', -, hle⟩ := h.mode1 hm
    cases hp.symm.trans hp'
    exact hle

/-- A byte at IPTR that the ROM does not hold is the first behind it (R213). -/
theorem BusyInv.decodeFault_atIptr (h : BusyInv s) (hbusy : s.ctrl = .busy) (hm : s.mode = some m)
    (hk : stepKind m s.dictValid = .neg ∨ stepKind m s.dictValid = .rle) {p : Nat} (hp : s.iptr = some p)
    (hnone : romByte s.rom p = none) : DecodeFault s ⟨.outOfBounds, .bytePastEnd, p⟩ := by
  have hmode : s.mode = some 0 ∨ s.mode = some 1 :=
    hk.imp (fun hneg => stepKind_neg hneg ▸ hm) (fun hrle => stepKind_rle hrle ▸ hm)
  have hle := h.iptr_le hmode hp
  have hout := (romByte_none_iff s.rom p).1 hnone
  have hend : p = s.rom.len := by omega
  rw [hend]
  exact decodeFault_bytePastEnd (inStep_of_mode hbusy hm rfl) (by rcases hk with hk | hk <;> rw [hk] <;> decide)

/-- The cursor of a loaded mode-2 decode stands inside its bit stream or at its end (10_state.md R40(g)). -/
theorem BusyInv.bptr_le (h : BusyInv s) (hm : s.mode = some 2) (hload : s.dictValid = true) {a : Int} {p : Nat}
    (ha : s.src = some a) (hp : s.bptr = some p) :
    ∃ a' : Nat, a = a' ∧ a' + 16 ≤ s.rom.len ∧ p ≤ (streamBits s.rom a').length := by
  obtain ⟨a', p', ha', hp', hbase, hle⟩ := h.mode2 hm hload
  cases ha.symm.trans ha'
  cases hp.symm.trans hp'
  exact ⟨a', rfl, hbase, by rwa [streamBits_length]⟩

/-- The unit's own bytes or bits, by the step that reads them (R213, R214, R222). -/
theorem BusyInv.fetchStep_decodeFault (h : BusyInv s) (hf : fetchStep s = .raise f) : DecodeFault s f := by
  obtain ⟨hbusy, m, hm, ⟨p, hk, hp, hnone, rfl⟩ | ⟨hk, a, ha, hread⟩ | ⟨hk, a, p, ha, hp, hbits⟩ | ⟨hk, -⟩⟩ :=
    fetchStep_raise hf
  · exact h.decodeFault_atIptr hbusy hm hk hp hnone
  · obtain ⟨a', ha', hlt⟩ := h.src
    cases ha.symm.trans ha'
    rw [readBytes_error_atEnd (Int.natCast_nonneg a') (Int.ofNat_le.2 hlt.le) hread]
    exact decodeFault_bytePastEnd (inStep_of_mode hbusy hm hk) nofun
  · obtain ⟨rfl, hload⟩ := stepKind_code hk
    obtain ⟨a', rfl, hbase, hle⟩ := h.bptr_le hm hload ha hp
    refine .inr (.inl ⟨?_, inStep_of_mode hbusy hm hk⟩)
    rcases hbits with hbit | ⟨c, q, hbit, hlist⟩
    · exact readBit_error_atEnd hbase hle hbit
    · exact readBitList_error_atEnd hbase (readBit_cursor_le hbit) hlist
  · exact absurd hk (h.stepKind_ne_internal hm)

theorem complete_ctrl_ne_fault {e : Nat} (h : s.ctrl ≠ .fault) : (complete e s).ctrl ≠ .fault := by
  by_cases hfull : s.ocnt = some 512
  · rw [complete_of_full hfull]
    nofun
  · rwa [complete_of_notFull hfull]

/-- A literal or repeat faults where its run does not fit, or at the ROM's end among its operands, since its command
byte lies inside the ROM (R213, R215, R221). -/
theorem exec_decodeCmd_decodeFault {c : Byte} (hnop : c ≠ 0x80) {p : Nat} (hp : s.iptr = some p) (hlt : p < s.rom.len)
    (h : exec (decodeCmd c) s = .next t) (hfault : t.ctrl = .fault) : ∃ f, t = takeFault f s ∧ DecodeFault s f := by
  rw [exec_decodeCmd hnop] at h
  obtain ⟨henabled, h⟩ := inStep_next h
  obtain ⟨a, p', n, -, hp', -, ⟨-, rfl⟩ | ⟨-, f, hf, rfl⟩ | ⟨-, bs, -, rfl⟩⟩ := performRun_next h
  · exact ⟨_, rfl, .inr (.inr ⟨henabled, p', hp', rfl⟩)⟩
  · cases hp.symm.trans hp'
    rw [cmdRun_error_atEnd (by omega) (by omega) hf]
    exact ⟨_, rfl, decodeFault_bytePastEnd henabled nofun⟩
  · exact absurd hfault (complete_ctrl_ne_fault (by simp [henabled.1]))

/-- Of the units that a decode reads only a mode-1 command can fault once it is read. -/
theorem exec_fetched_decodeFault (hi : fetchStep s = .unit i) (h : exec i s = .next t) (hfault : t.ctrl = .fault) :
    ∃ f, t = takeFault f s ∧ DecodeFault s f := by
  have hcmd : i.format = .cmd8 ∧ i ≠ .rleNop := by
    obtain ⟨c, rfl | rfl⟩ := exec_unit_fault (fetchStep_unit_format hi) h hfault <;> exact ⟨rfl, nofun⟩
  obtain ⟨hcmd8, hnop⟩ := hcmd
  obtain ⟨-, m, -, ⟨-, p, b, -, -, rfl⟩ | ⟨-, p, b, hp, hb, rfl⟩ | ⟨-, a, bs, hread, -, rfl⟩ |
    ⟨-, a, p, flag, q, bs, r, -, -, -, -, hdec⟩⟩ := fetchStep_unit hi
  · cases hcmd8
  · have hb80 : b ≠ 0x80 := fun hc => hnop ((congrArg decodeCmd hc).trans decodeCmd_nop)
    exact exec_decodeCmd_decodeFault hb80 hp (romByte_lt hb) h hfault
  · cases hcmd8
  · rcases decode_code_ok hdec with ⟨l, -, -, rfl⟩ | ⟨l, -, -, rfl⟩ <;> cases hcmd8

/-- A decode step's fault is raised while its unit is read or while it is performed, and is one of the table's. -/
theorem engineStep_decodeFault (hinv : Inv s) (hturn : EngineTurn s) (hbusy : s.ctrl = .busy) (h : step s = .next t)
    (hfault : t.ctrl = .fault) : ∃ f, t = takeFault f (takeCommand s) ∧ DecodeFault (takeCommand s) f := by
  have hfetch : fetch s = fetchStep (takeCommand s) := fetch_engineTurn hturn
  rcases (hinv.takeCommand.busy hbusy).fetchStep_answers hbusy with ⟨i, hi⟩ | ⟨f, hf⟩
  · exact exec_fetched_decodeFault hi ((step_of_unit (hfetch.trans hi)).symm.trans h) hfault
  · cases (step_of_raise (hfetch.trans hf)).symm.trans h
    exact ⟨f, rfl, (hinv.takeCommand.busy hbusy).fetchStep_decodeFault hf⟩

end

/-- Settles O38: each row of the table is a clause. -/
theorem decodeFaultTable : Obligations.DecodeFaultTable := by
  intro s t hinv hturn hbusy h hfault
  obtain ⟨f, rfl, ⟨rfl, hcode⟩ | ⟨rfl, hcode⟩ | ⟨hrle, p, hp, rfl⟩⟩ :=
    engineStep_decodeFault hinv hturn hbusy h hfault
  · exact ⟨rfl, .inl ⟨rfl, rfl, hcode⟩⟩
  · exact ⟨rfl, .inr (.inl ⟨rfl, rfl, hcode⟩)⟩
  · exact ⟨rfl, .inr (.inr ⟨rfl, hrle, p, hp, rfl⟩)⟩

/-! ### Internal (R216) -/

/-- No step of the engine writes MODE, whether it waits, performs a unit or faults (10_state.md R26). -/
theorem engineStep_keepsMode {s t : State} (hturn : EngineTurn s) (h : step s = .next t) : t.mode = s.mode := by
  rcases step_cases s with ⟨-, e⟩ | ⟨i, hi, e⟩ | ⟨f, -, e⟩ | ⟨op, hop, -⟩ | ⟨r, -, e⟩
  · cases e.symm.trans h
    rfl
  · rw [fetch_engineTurn hturn] at hi
    obtain ⟨-, ⟨hmode, -⟩, -⟩ := decodeUnitFrame i _ t (fetchStep_unit_format hi) (e.symm.trans h)
    exact hmode
  · cases e.symm.trans h
    rfl
  · exact absurd (fetch_engineTurn hturn ▸ hop) (fetchStep_ne_access s op)
  · cases e.symm.trans h

/-- Settles O39: the invariant, which every step keeps, holds MODE to a step's own in BUSY and Internal out of FKIND. -/
theorem internalIsUnreachable : Obligations.InternalIsUnreachable := by
  refine fun s hinv => ⟨fun hbusy => ?_, fun t h =>
    ⟨(stepKeepsInvariant.1 s t hinv h).noInternal, fun hturn => engineStep_keepsMode hturn h⟩⟩
  obtain ⟨w, base, -, -, hm, -⟩ := (hinv.busy hbusy).inputs
  exact ⟨_, hm, (hinv.busy hbusy).stepKind_ne_internal hm⟩

/-! ### The faults of START (R211, R212) -/

/-- A resolution whose mode byte has no mode ends before SRC is computed (R103). -/
theorem resolve_badMode {mode : Byte} (hmode : 2 < mode.toNat) (raw : BitVec 24) (base : Nat) (s : State) :
    resolve mode raw base s = faultStart ⟨.unsupportedBlockMode, .noCause, 0⟩ mode (sext24 raw) none s :=
  if_pos hmode

/-- Settles O8: the same fault is taken in every state where START is legal, whatever its ROM. -/
theorem entBadModeFaults : Obligations.EntBadModeFaults := by
  intro m raw s base hm hready
  have hexec : ∀ u, StartReady u base → exec (.entBadMode m raw) u =
      .next (faultStart ⟨.unsupportedBlockMode, .noCause, 0⟩ m (sext24 raw) none u) := fun u hu =>
    (start_ready hu m raw).trans (congrArg _ (resolve_badMode hm raw base u))
  exact ⟨_, hexec s hready, rfl, rfl, rfl, rfl, rfl, rfl, ⟨rfl, rfl, rfl, rfl, rfl⟩,
    fun r => hexec { s with rom := r } hready⟩

/-- The entry words with a storage start are a START that passes the mode check and is no zero block (R103, R104). -/
theorem exec_storedBlock {i : Instr} {raw : BitVec 24} (hi : i = .entNeg raw ∨ i = .entRle raw ∨ i = .entBitpack raw)
    (hwf : i.WellFormed) :
    ∃ m : Byte, m.toNat ≤ 2 ∧ ¬(m = 0 ∧ sext24 raw = 0) ∧ ∀ s, exec i s = start m raw s := by
  rcases hi with rfl | rfl | rfl
  · have hraw : raw ≠ 0 := bne_iff_ne.1 hwf
    exact ⟨0, by decide, fun h => hraw ((sext24_zero_iff raw).1 h.2), fun _ => rfl⟩
  · exact ⟨1, by decide, fun h => absurd h.1 (by decide), fun _ => rfl⟩
  · exact ⟨2, by decide, fun h => absurd h.1 (by decide), fun _ => rfl⟩

/-- Settles O10, by whether the exact sum names an address of the ROM. -/
theorem storageOutsideRomFaults : Obligations.StorageOutsideRomFaults := by
  intro i raw s base hi hwf hready
  obtain ⟨m, hmode, hnotZero, hexec⟩ := exec_storedBlock hi hwf
  rw [hexec, start_ready hready]
  refine ⟨_, rfl, ?_⟩
  by_cases hout : base + sext24 raw < 0 ∨ (s.rom.len : Int) ≤ base + sext24 raw
  · rw [resolve_outside hmode hnotZero hout]
    exact ⟨rfl, iff_of_true rfl hout, fun _ => ⟨rfl, rfl, rfl, rfl, rfl, rfl, rfl, rfl⟩⟩
  · rw [resolve_inside hmode hnotZero (by omega) (by omega)]
    exact ⟨rfl, iff_of_false nofun hout, nofun⟩

end Sys2Proof.Machine
end

section
/-! PROOFS. The obligation of 70_reset_and_hazards.md: the registers after reset (R250). -/

namespace Sys2Proof.Machine

/-- The reset state is what reset makes of itself (10_state.md R22). -/
theorem resetEngine_reset : resetEngine State.reset = State.reset := rfl

/-- No OUT byte, no DICT byte and no ENDOFF survives a reset (R250). -/
theorem nothingProduced_resetEngine (s : State) : NothingProduced (resetEngine s) :=
  ⟨outAt_cleared rfl, dictAt_cleared rfl, rfl, rfl⟩

/-- STATE, FKIND and FCAUSE are all code 0 after a reset, so STATUS reads 0 (10_state.md R39). -/
theorem statusWord_resetEngine (s : State) : statusWord (resetEngine s) = 0 :=
  BitVec.eq_of_toNat_eq (statusWord_toNat (resetEngine s))

/-- STATE is IDLE after a reset, so the engine's turn waits (10_state.md R25; log 6). -/
theorem step_resetEngine {s : State} (hturn : EngineTurn (resetEngine s)) :
    step (resetEngine s) = .next (takeCommand (resetEngine s)) :=
  step_engineTurn_notBusy hturn (nofun : Ctrl.idle ≠ .busy)

/-- Settles O44: the reset state and the state after the reset access are both made by `resetEngine`. -/
theorem resetRegisters : Obligations.ResetRegisters := by
  refine ⟨fun s => ⟨resetEngine s, rfl, resetEngine_rom s⟩, fun s t ht => ?_⟩
  obtain ⟨u, rfl⟩ : ∃ u, t = resetEngine u := by
    rcases ht with rfl | haccess
    · exact ⟨State.reset, resetEngine_reset.symm⟩
    · cases haccess
      exact ⟨s, rfl⟩
  exact ⟨rfl, ⟨rfl, rfl, rfl⟩, nothingProduced_resetEngine u, statusWord_resetEngine u, rfl, rfl, rfl, rfl, rfl, rfl, rfl,
    rfl, step_resetEngine⟩

end Sys2Proof.Machine
end
